-- ==== Sys2Proof/Word.lean ====
section
/-!
DEFINITION. Widths of the block's data (R11, R13) and the plain records built from them: a word, a byte, a bus
address, a draw, an I/Q pair and a bus transaction as the host drives it (R80).
-/

namespace Sys2Proof

/-- A 32-bit bus word (BUS_DATA_BITS, R11, R80). -/
abbrev Word := BitVec 32

/-- A byte of a coefficient entry; byte `i` of a word is its bits `8i+7 : 8i` (R87). -/
abbrev Byte := BitVec 8

/-- A 16-bit byte address on the host bus (BUS_ADDR_BITS, R11, R80). -/
abbrev Addr := BitVec 16

/-- A value of the random-draw port, `0 ≤ d < 2^31` (RNG_BITS, R60, R118). -/
abbrev Draw := BitVec 31

/-- The 64-bit pattern of a binary64 register (R114). -/
abbrev Pattern := BitVec 64

/-- A value for each channel: in-phase and quadrature (R19, "every datapath value is a pair"). -/
structure IQ (α : Type) where
  i : α
  q : α
deriving DecidableEq, Repr

/-- The same rule applied to each channel (R19). -/
def IQ.map {α β : Type} (f : α → β) (p : IQ α) : IQ β := ⟨f p.i, f p.q⟩

/-- A rule of two operands applied to each channel (R19). -/
def IQ.zip {α β γ : Type} (f : α → β → γ) (p : IQ α) (r : IQ β) : IQ γ := ⟨f p.i r.i, f p.q r.q⟩

/-- One transaction of the host bus (R80): a direction, a byte address and, for a write, the data word. The data
lines of a read carry nothing. -/
structure BusCycle where
  write : Bool
  addr : Addr
  data : Word
deriving DecidableEq, Repr

end Sys2Proof
end

