-- ==== Sys2Proof/Syntax.lean ====
section
/-!
DEFINITION. The instructions: one constructor per row of spec/opcode_table.json (R2, R111, R140, R141).
-/

namespace Sys2Proof

/-- What the host can make the block do (R2): the four commands and the reserved opcodes, each a word written to CMD
(R110, R111), and the two bus transactions (R80). ARG is kept where it is ignored, so that no bit of a command word is
lost (R112). -/
inductive Instr where
  /-- OPC 0x00 (R156). -/
  | nop (arg : BitVec 24)
  /-- OPC 0x01 (R153). -/
  | init (arg : BitVec 24)
  /-- OPC 0x02, the sample count N (R151, R112). -/
  | step (count : BitVec 24)
  /-- OPC 0x03 (R154). -/
  | abort (arg : BitVec 24)
  /-- OPC 0x04 to 0xFF (R113, R155). -/
  | reserved (opc : BitVec 8) (arg : BitVec 24)
  /-- BusRead(addr) (R140). -/
  | busRead (addr : Addr)
  /-- BusWrite(addr, data) (R141). -/
  | busWrite (addr : Addr) (data : Word)
deriving DecidableEq, Repr

end Sys2Proof
end

