-- ==== Sys2Proof/WellFormed.lean ====
section
/-!
DEFINITION. Which instructions are written in the one way the decoder reads them (R111, R119).
-/

namespace Sys2Proof

/-- The byte address of CMD (R38, R81). -/
def cmdAddr : Addr := 0x0008

/-- A reserved opcode is one of 0x04 to 0xFF (R111). A write to CMD is written as the command it carries (R119), so a
BUSWRITE names another address; its meaning at CMD is the command's all the same (log 6). -/
def Instr.wellFormed : Instr → Bool
  | .nop _ => true
  | .init _ => true
  | .step _ => true
  | .abort _ => true
  | .reserved opc _ => decide (4 ≤ opc.toNat)
  | .busRead _ => true
  | .busWrite addr _ => decide (addr ≠ cmdAddr)

end Sys2Proof
end

