-- ==== Sys2Proof/Decode.lean ====
section
/-!
DEFINITION. The decoder: from a command word (R110, R111) or a bus transaction (R80) to the instruction, total; and the
encoder, from an instruction to the transaction the host drives (R119).
-/

namespace Sys2Proof

/-- OPC, bits 31:24 of a command word (R110). -/
def opcOf (c : Word) : BitVec 8 := c.extractLsb' 24 8

/-- ARG, bits 23:0 of a command word (R110). -/
def argOf (c : Word) : BitVec 24 := c.extractLsb' 0 24

/-- The command of a word: OPC selects it and ARG never does (R111, R150). -/
def decodeCommand (c : Word) : Instr :=
  match (opcOf c).toNat with
  | 0 => .nop (argOf c)
  | 1 => .init (argOf c)
  | 2 => .step (argOf c)
  | 3 => .abort (argOf c)
  | _ => .reserved (opcOf c) (argOf c)

/-- The instruction of a bus transaction. Every transaction is one: a bad access is an access the block answers
(R84), so nothing is rejected here. -/
def decode (b : BusCycle) : Instr :=
  if b.write then
    if b.addr = cmdAddr then decodeCommand b.data else .busWrite b.addr b.data
  else .busRead b.addr

/-- A command word from its fields (R110). -/
def commandWord (opc : BitVec 8) (arg : BitVec 24) : Word := opc ++ arg

/-- A word written to CMD (R119). -/
def commandCycle (c : Word) : BusCycle := ⟨true, cmdAddr, c⟩

/-- The transaction that carries an instruction (R111, R119). The data lines of a read are 0. -/
def encode : Instr → BusCycle
  | .nop arg => commandCycle (commandWord 0x00 arg)
  | .init arg => commandCycle (commandWord 0x01 arg)
  | .step count => commandCycle (commandWord 0x02 count)
  | .abort arg => commandCycle (commandWord 0x03 arg)
  | .reserved opc arg => commandCycle (commandWord opc arg)
  | .busRead addr => ⟨false, addr, 0⟩
  | .busWrite addr data => ⟨true, addr, data⟩

/-- Why a run of bits is no word of the opcode table. -/
inductive DecodeRefusal where
  /-- No bits at all. -/
  | noBits
  /-- More bits than the 32 of a command word, which is the only numbered form of the table (R110). -/
  | longerThanACommandWord (nbits : Nat)
deriving DecidableEq, Repr

/-- The command word whose low `nbits` bits are `w`, the bits above them 0, or the reason it is none (log 7). -/
def commandWordOfBits (nbits w : Nat) : Except DecodeRefusal Word :=
  if nbits = 0 then .error .noBits
  else if 32 < nbits then .error (.longerThanACommandWord nbits)
  else .ok (BitVec.ofNat 32 (w % 2 ^ nbits))

/-- The instruction of the opcode table's bits: a command word written to CMD, given to the decoder (log 7). -/
def decodeTableWord (nbits w : Nat) : Option Instr :=
  match commandWordOfBits nbits w with
  | .ok c => some (decode (commandCycle c))
  | .error _ => none

end Sys2Proof
end

