-- ==== Sys2Proof/Config.lean ====
section
/-!
DEFINITION. What this hardware fixes (R10, R11) and the free values, which the spec leaves open (R54, R15).
A free value is an opaque constant: nothing can be proved of it but what holds of every value.
-/

namespace Sys2Proof.Config

/-- ID, hardwired: the ASCII string "NYQ1" (R31). -/
def idWord : Word := 0x4E595131

/-- MF_TAPS (R10). -/
abbrev mfTaps : Nat := 2048

/-- RS_TAPS (R10). -/
abbrev rsTaps : Nat := 9

/-- RS_COEFS, 128 banks of 9 taps (R10, R53). -/
abbrev rsCoefs : Nat := 1152

/-- UPSAMPLE: a decision instant every 256th sample (R10, R201). -/
abbrev upsample : Nat := 256

/-- NOISE_DRAWS: uniform draws per noise value (R10, R220). -/
abbrev noiseDraws : Nat := 10

/-- OUT_FIFO_DEPTH, in words: the value of this hardware (R11, R12; log 10). -/
abbrev outFifoDepth : Nat := 32

/-- The byte address of MF[0] (R81, R82). -/
abbrev mfBase : Nat := 0x2000

/-- The byte address of RS[0] (R81, R82). -/
abbrev rsBase : Nat := 0x4000

/-- The first byte address after RS (R81, conflict C8). -/
abbrev coefEnd : Nat := 0x5200

/-- The writable bits of IRQ_EN (R37). -/
def irqMask : Word := 0x00007F12

/-- NOISE_K = RN(sqrt(RN(1.2))) (R11, R223). -/
def noiseK : Pattern := 0x3FF186F174F88472

/-- EPS64 = RN(1e-12) (R11, R293). -/
def eps64 : Pattern := 0x3D719799812DEA11

/-- FREE VALUE (log 3). The byte that a power-on leaves at a coefficient byte address: `powerOnByte g a` for the
`g`-th power-on. "Unspecified but stays the same until the entry is written" (R54, R61, I2). -/
opaque powerOnByte (generation addr : Nat) : Byte

/-- Where a computed binary64 value becomes a pattern that the host can read (R49, R50). -/
inductive NanSite where
  | carrierPower
  | noisePower
  | snrRatio
deriving DecidableEq, Repr

/-- FREE VALUE (log 4). The sign and the payload of a quiet NaN that an operation produces: R15 takes the IEEE rules
and they fix neither. It may depend on where it is produced and on the two accumulators. -/
opaque nanPayload (site : NanSite) (carrier noise : Pattern) : BitVec 52

end Sys2Proof.Config
end

