-- ==== Sys2Proof/Machine/State.lean ====
section
/-!
DEFINITION. The machine's state: every item of R30 with its reset value (R61), the fields that stand for the block's
ports (log 1, 2, 3, 5), and the reasons a step can stop (none: R330).
-/

namespace Sys2Proof.Machine

/-- The coefficient memories MF and RS (R52, R53) as bytes on the host bus (R87): the bytes written since power-on,
addresses strictly rising. An address that is not listed has no value here: its entry's valid bit is 0 (R54, log 8),
and a read of it gives the free power-on content. -/
abbrev Memory := List Host.Cell

/-- What the environment does next. The list `State.inputs` of them is one interleaving of R91 and R92 (log 1). -/
inductive Event where
  /-- The host issues a bus transaction (R80). -/
  | host (b : BusCycle)
  /-- The engine has a turn: it performs a sample step if one is enabled (R92, R313). -/
  | engine
  /-- The random source presents more draws at its port (R60, R313). -/
  | supply (ds : List Draw)
  /-- The reset input is asserted and released (R370). -/
  | powerOn
deriving DecidableEq, Repr

/-- The state of the block (R30), then the model's own fields for its ports. -/
structure State where
  /-- STATUS bit 1 (R34). -/
  done : Bool
  /-- STATUS bit 8 (R155). -/
  errCmd : Bool
  /-- STATUS bit 9 (R145). -/
  errBusy : Bool
  /-- STATUS bit 10 (R152). -/
  errCoef : Bool
  /-- STATUS bit 11 (R84). -/
  errAddr : Bool
  /-- STATUS bit 12 (R46). -/
  errFifo : Bool
  /-- STATUS bit 13 (R184). -/
  errOvf : Bool
  /-- STATUS bit 14 (R250). -/
  errSat : Bool
  /-- IRQ_EN (R37). -/
  irqEn : Word
  /-- K, the exponent of fgain (R39). -/
  k : BitVec 5
  /-- SNR_SCALE, signed (R40). -/
  snrScale : Word
  /-- DELAY_INDEX, the resampler bank (R41). -/
  delayIndex : BitVec 7
  /-- STEPS_LEFT (R42). -/
  stepsLeft : BitVec 24
  /-- SAMPLE_COUNT (R43). -/
  sampleCount : Word
  /-- DRAW_COUNT (R44). -/
  drawCount : Word
  /-- OUT_LAST_I, signed (R47). -/
  outLastI : Word
  /-- OUT_LAST_Q, signed (R47). -/
  outLastQ : Word
  /-- DC_I (R48). -/
  dcI : Pattern
  /-- DC_Q (R48). -/
  dcQ : Pattern
  /-- GAIN_IMB (R48). -/
  gainImb : Pattern
  /-- COS_PHI (R48). -/
  cosPhi : Pattern
  /-- SIN_PHI (R48). -/
  sinPhi : Pattern
  /-- COS_THETA (R48). -/
  cosTheta : Pattern
  /-- SIN_THETA (R48). -/
  sinTheta : Pattern
  /-- CARRIER_POWER (R49). -/
  carrierPower : Pattern
  /-- NOISE_POWER (R49). -/
  noisePower : Pattern
  /-- SHADOW_CP (R51). -/
  shadowCp : Word
  /-- SHADOW_NP (R51). -/
  shadowNp : Word
  /-- SHADOW_SNR (R51). -/
  shadowSnr : Word
  /-- MF and RS with their valid bits (R52, R53, R54). -/
  mem : Memory
  /-- MFDL_I, position 0 (the newest) first (R55). -/
  mfdlI : List (BitVec 8)
  /-- MFDL_Q (R55). -/
  mfdlQ : List (BitVec 8)
  /-- RSDL_I, position 0 (the newest) first (R56). -/
  rsdlI : List Word
  /-- RSDL_Q (R56). -/
  rsdlQ : List Word
  /-- The output FIFO, the oldest word first (R58). -/
  fifo : List Word
  /-- MODEL: the data of the last BusRead, as the host received it (R140, log 5). -/
  readData : Word
  /-- MODEL: draws presented at the random-draw port and not yet consumed (R60, log 2). -/
  draws : List Draw
  /-- MODEL: what the environment does next (R91, R92, log 1). -/
  inputs : List Event
  /-- MODEL: how many power-on resets there have been, the index of the free coefficient contents (R54, log 3). -/
  powerOns : Nat
deriving DecidableEq, Repr

/-- Reasons to stop with a fault. There is none: "The block never enters a faulted state" (R330, log 13). -/
inductive Fault where
deriving DecidableEq, Repr

/-- Reasons to refuse an instruction. -/
inductive Refusal where
  /-- Raised by `exec` for an instruction with no meaning in the model yet; safe. No arm raises it (log 13). -/
  | notModelled (mnemonic : String)
deriving DecidableEq, Repr

/-- binary64 1.0 (R48, R114). -/
def onePattern : Pattern := 0x3FF0000000000000

/-- The machine right after power-on reset (R61, R370). Nothing has been written to MF or RS, no draw has been
presented and the host has asked for nothing. -/
def State.reset : State where
  done := false
  errCmd := false
  errBusy := false
  errCoef := false
  errAddr := false
  errFifo := false
  errOvf := false
  errSat := false
  irqEn := 0
  k := 12
  snrScale := 0
  delayIndex := 0
  stepsLeft := 0
  sampleCount := 0
  drawCount := 0
  outLastI := 0
  outLastQ := 0
  dcI := 0
  dcQ := 0
  gainImb := 0
  cosPhi := onePattern
  sinPhi := 0
  cosTheta := onePattern
  sinTheta := 0
  carrierPower := 0
  noisePower := 0
  shadowCp := 0
  shadowNp := 0
  shadowSnr := 0
  mem := []
  mfdlI := List.replicate 2048 0
  mfdlQ := List.replicate 2048 0
  rsdlI := List.replicate 9 0
  rsdlQ := List.replicate 9 0
  fifo := []
  readData := 0
  draws := []
  inputs := []
  powerOns := 0

end Sys2Proof.Machine
end

