-- ==== Sys2Proof/Machine/Ops.lean ====
section
/-!
DEFINITION. The operations over the coefficient memories (R52 to R54, R82, R87), the sticky flags (R16, R330) and the
run state (R151 to R154, R370).
-/

namespace Sys2Proof.Machine

/-! ### The coefficient memories, by byte -/

/-- The byte written at an address since power-on, if there is one. -/
def Memory.byte? : Memory → Nat → Option Byte
  | [], _ => none
  | (b, v) :: rest, a => if b = a then some v else if a < b then none else Memory.byte? rest a

/-- Write one byte, in the place that keeps the addresses rising. -/
def Memory.set : Memory → Nat → Byte → Memory
  | [], a, v => [(a, v)]
  | (b, w) :: rest, a, v =>
    if b < a then (b, w) :: Memory.set rest a v
    else if b = a then (a, v) :: rest
    else (a, v) :: (b, w) :: rest

/-- The memory from an address on. -/
def Memory.seek : Memory → Nat → Memory
  | [], _ => []
  | (b, v) :: rest, a => if b < a then Memory.seek rest a else (b, v) :: rest

/-- A word from its bytes, byte 0 at the lowest address (R87). -/
def wordOfBytes (b0 b1 b2 b3 : Byte) : Word := b3 ++ b2 ++ b1 ++ b0

/-- Byte `i` of a word: bits `8i+7 : 8i` (R87). -/
def byteOfWord (w : Word) (i : Nat) : Byte := w.extractLsb' (8 * i) 8

/-- An entry is written: its valid bit is 1 (R54). -/
def Memory.written (m : Memory) (a : Nat) : Bool :=
  (m.byte? a).isSome && (m.byte? (a + 1)).isSome && (m.byte? (a + 2)).isSome && (m.byte? (a + 3)).isSome

/-- Write one entry, which sets its valid bit (R144, R54). -/
def Memory.setWord (m : Memory) (a : Nat) (w : Word) : Memory :=
  (((m.set a (byteOfWord w 0)).set (a + 1) (byteOfWord w 1)).set (a + 2) (byteOfWord w 2)).set (a + 3) (byteOfWord w 3)

/-- The byte that a read finds: the one written, or the free power-on content (R54, log 3). -/
def Memory.readByte (generation : Nat) (m : Memory) (a : Nat) : Byte :=
  (m.byte? a).getD (Config.powerOnByte generation a)

/-- The entry that a read finds (R144). -/
def Memory.readWord (generation : Nat) (m : Memory) (a : Nat) : Word :=
  wordOfBytes (m.readByte generation a) (m.readByte generation (a + 1)) (m.readByte generation (a + 2))
    (m.readByte generation (a + 3))

/-- `n` entries in order, the first at byte address `a` (R82). -/
def Memory.readWords (generation : Nat) : Nat → Nat → Memory → List Word
  | 0, _, _ => []
  | n + 1, a, m =>
    Memory.readWord generation (m.seek a) a :: Memory.readWords generation n (a + 4) (m.seek a)

/-- Every one of `n` entries from byte address `a` is written (R35). -/
def Memory.allWritten : Nat → Nat → Memory → Bool
  | 0, _, _ => true
  | n + 1, a, m => (m.seek a).written a && Memory.allWritten n (a + 4) (m.seek a)

/-- Addresses strictly rising. -/
def Memory.rising : Memory → Bool
  | [] => true
  | [_] => true
  | c :: d :: rest => decide (c.1 < d.1) && Memory.rising (d :: rest)

/-- A byte address of MF or RS (R81). -/
def inCoefficients (a : Nat) : Bool := decide (Config.mfBase ≤ a) && decide (a < Config.coefEnd)

/-- The canonical form (log 8): addresses strictly rising, all in MF or RS, and entries listed whole, since every
transaction writes a whole word (R80). -/
def Memory.wf (m : Memory) : Bool :=
  m.rising && m.all fun c => inCoefficients c.1 && m.written (c.1 - c.1 % 4)

/-! ### What the block derives from its state -/

/-- BUSY (R33). -/
def State.busy (s : State) : Bool := decide (s.stepsLeft ≠ 0)

/-- MF_LOADED (R35). -/
def State.mfLoaded (s : State) : Bool := Memory.allWritten Config.mfTaps Config.mfBase s.mem

/-- RS_LOADED (R35). -/
def State.rsLoaded (s : State) : Bool := Memory.allWritten Config.rsCoefs Config.rsBase s.mem

/-- FIFO_LEVEL (R45). -/
def State.fifoLevel (s : State) : Word := BitVec.ofNat 32 s.fifo.length

/-- The byte of MF or RS at a bus address, as a read finds it (R87, R54). -/
def State.coefByte (s : State) (a : Nat) : Byte := s.mem.readByte s.powerOns a

/-- The entry of MF or RS at a word address (R144). -/
def State.coefWord (s : State) (a : Nat) : Word := s.mem.readWord s.powerOns a

/-! ### Raising a flag: the block's only form of an exception (R16, R330) -/

/-- The seven error flags (R331). -/
inductive ErrFlag where
  | cmd
  | busy
  | coef
  | addr
  | fifo
  | ovf
  | sat
deriving DecidableEq, Repr

/-- `flag ERR_X` (R16): the sticky bit becomes 1. Nothing else changes and no control is transferred (R330). -/
def State.flag (s : State) : ErrFlag → State
  | .cmd => { s with errCmd := true }
  | .busy => { s with errBusy := true }
  | .coef => { s with errCoef := true }
  | .addr => { s with errAddr := true }
  | .fifo => { s with errFifo := true }
  | .ovf => { s with errOvf := true }
  | .sat => { s with errSat := true }

/-! ### The run state -/

/-- INIT's effect when it is accepted (R153): the run state is reset, everything else is kept. -/
def State.initRun (s : State) : State :=
  { s with
    mfdlI := List.replicate Config.mfTaps 0
    mfdlQ := List.replicate Config.mfTaps 0
    rsdlI := List.replicate Config.rsTaps 0
    rsdlQ := List.replicate Config.rsTaps 0
    sampleCount := 0
    drawCount := 0
    carrierPower := 0
    noisePower := 0
    outLastI := 0
    outLastQ := 0
    fifo := [] }

/-- STEP's effect when it is not refused as busy (R151, R152). -/
def State.startStep (s : State) (count : BitVec 24) : State :=
  if s.mfLoaded && s.rsLoaded then
    if count = 0 then s else { s with stepsLeft := count, done := false }
  else s.flag .coef

/-- ABORT's effect (R154). -/
def State.abortRun (s : State) : State :=
  if s.busy then { s with stepsLeft := 0, done := true } else s

/-- A write that R86 refuses while BUSY = 1 only flags ERR_BUSY (R145). -/
def State.unlessBusy (s : State) (t : State) : State := if s.busy then s.flag .busy else t

/-- Power-on reset (R370, R61): every item of the block's state takes its reset value, and the coefficient memories
take new unspecified contents (R371). The ports' environment is not the block's (log 9). -/
def State.powerOn (s : State) : State :=
  { State.reset with
    readData := s.readData
    draws := s.draws
    inputs := s.inputs
    powerOns := s.powerOns + 1 }

end Sys2Proof.Machine
end

