-- ==== Sys2Proof/Machine/Operands.lean ====
section
/-!
DEFINITION. What a bus address names: the address map (R81), the coefficient windows (R82), which locations can be
written (R84) and which are refused while busy (R86); and the binary64 configuration registers by half (R48, R114).
-/

namespace Sys2Proof.Machine

/-- A half of a binary64 register: bits 31:0 or bits 63:32 (R114). -/
inductive Half where
  | lo
  | hi
deriving DecidableEq, Repr

/-- The binary64 configuration registers (R48). -/
inductive CfgReg where
  | dcI
  | dcQ
  | gainImb
  | cosPhi
  | sinPhi
  | cosTheta
  | sinTheta
deriving DecidableEq, Repr

/-- The read-only binary64 registers (R49, R50). -/
inductive PowerReg where
  | carrier
  | noise
  | snrRatio
deriving DecidableEq, Repr

/-- A location of the address map (R81). A coefficient is named by its word address. -/
inductive Loc where
  | id
  | status
  | cmd
  | irqEn
  | k
  | snrScale
  | delayIndex
  | stepsLeft
  | sampleCount
  | drawCount
  | fifoLevel
  | outFifo
  | outLastI
  | outLastQ
  | cfg (r : CfgReg) (h : Half)
  | power (r : PowerReg) (h : Half)
  | coef (addr : Nat)
deriving DecidableEq, Repr

/-- The register block of the address map, row by row (R81). -/
def registerMap : List (Nat × Loc) := [
  (0x0000, .id),
  (0x0004, .status),
  (0x0008, .cmd),
  (0x000C, .irqEn),
  (0x0010, .k),
  (0x0014, .snrScale),
  (0x0018, .delayIndex),
  (0x001C, .stepsLeft),
  (0x0020, .sampleCount),
  (0x0024, .drawCount),
  (0x0028, .fifoLevel),
  (0x002C, .outFifo),
  (0x0030, .outLastI),
  (0x0034, .outLastQ),
  (0x0040, .cfg .dcI .lo), (0x0044, .cfg .dcI .hi),
  (0x0048, .cfg .dcQ .lo), (0x004C, .cfg .dcQ .hi),
  (0x0050, .cfg .gainImb .lo), (0x0054, .cfg .gainImb .hi),
  (0x0058, .cfg .cosPhi .lo), (0x005C, .cfg .cosPhi .hi),
  (0x0060, .cfg .sinPhi .lo), (0x0064, .cfg .sinPhi .hi),
  (0x0068, .cfg .cosTheta .lo), (0x006C, .cfg .cosTheta .hi),
  (0x0070, .cfg .sinTheta .lo), (0x0074, .cfg .sinTheta .hi),
  (0x0080, .power .carrier .lo), (0x0084, .power .carrier .hi),
  (0x0088, .power .noise .lo), (0x008C, .power .noise .hi),
  (0x0090, .power .snrRatio .lo), (0x0094, .power .snrRatio .hi)]

/-- The location a byte address names; none if it is misaligned (R83) or in a reserved range (R84). -/
def locate (addr : Addr) : Option Loc :=
  let a := addr.toNat
  if a % 4 ≠ 0 then none
  else if inCoefficients a then some (.coef a)
  else registerMap.lookup a

/-- Locations marked RO in R81: a write to one is a bad access (R84). STATUS has W1C bits and CMD is write-only, so
both can be written. -/
def Loc.readOnly : Loc → Bool
  | .id => true
  | .status => false
  | .cmd => false
  | .irqEn => false
  | .k => false
  | .snrScale => false
  | .delayIndex => false
  | .stepsLeft => true
  | .sampleCount => true
  | .drawCount => true
  | .fifoLevel => true
  | .outFifo => true
  | .outLastI => true
  | .outLastQ => true
  | .cfg _ _ => false
  | .power _ _ => true
  | .coef _ => false

/-- INIT and STEP are the commands refused while BUSY = 1; NOP, ABORT and the reserved opcodes never are (R86,
conflict C5). -/
def lockedCommand (c : Word) : Bool :=
  decide ((opcOf c).toNat = 1) || decide ((opcOf c).toNat = 2)

/-- The targets of R86: a write of `data` to one is refused while BUSY = 1. -/
def Loc.lockedWhileBusy (l : Loc) (data : Word) : Bool :=
  match l with
  | .cmd => lockedCommand data
  | .k => true
  | .snrScale => true
  | .delayIndex => true
  | .cfg _ _ => true
  | .coef _ => true
  | .id => false
  | .status => false
  | .irqEn => false
  | .stepsLeft => false
  | .sampleCount => false
  | .drawCount => false
  | .fifoLevel => false
  | .outFifo => false
  | .outLastI => false
  | .outLastQ => false
  | .power _ _ => false

/-- A half of a 64-bit pattern (R114). -/
def halfOf (p : Pattern) : Half → Word
  | .lo => p.extractLsb' 0 32
  | .hi => p.extractLsb' 32 32

/-- Replace one half of a 64-bit pattern; the other half is unchanged (R143). -/
def withHalf (p : Pattern) (h : Half) (w : Word) : Pattern :=
  match h with
  | .lo => p.extractLsb' 32 32 ++ w
  | .hi => w ++ p.extractLsb' 0 32

/-- A binary64 configuration register (R48). -/
def State.cfg (s : State) : CfgReg → Pattern
  | .dcI => s.dcI
  | .dcQ => s.dcQ
  | .gainImb => s.gainImb
  | .cosPhi => s.cosPhi
  | .sinPhi => s.sinPhi
  | .cosTheta => s.cosTheta
  | .sinTheta => s.sinTheta

/-- Store a binary64 configuration register: any pattern (R48). -/
def State.setCfg (s : State) (r : CfgReg) (p : Pattern) : State :=
  match r with
  | .dcI => { s with dcI := p }
  | .dcQ => { s with dcQ := p }
  | .gainImb => { s with gainImb := p }
  | .cosPhi => { s with cosPhi := p }
  | .sinPhi => { s with sinPhi := p }
  | .cosTheta => { s with cosTheta := p }
  | .sinTheta => { s with sinTheta := p }

/-- A read shadow (R51). -/
def State.shadow (s : State) : PowerReg → Word
  | .carrier => s.shadowCp
  | .noise => s.shadowNp
  | .snrRatio => s.shadowSnr

/-- Capture a high half in its shadow (R51). -/
def State.setShadow (s : State) (r : PowerReg) (w : Word) : State :=
  match r with
  | .carrier => { s with shadowCp := w }
  | .noise => { s with shadowNp := w }
  | .snrRatio => { s with shadowSnr := w }

end Sys2Proof.Machine
end

