-- ==== Sys2Proof/Machine/Commands.lean ====
section
/-!
DEFINITION. The commands written through CMD (R150 to R156): the meaning of NOP, INIT, STEP, ABORT and the reserved
opcodes, each the write to CMD of its command word (R119).
-/

namespace Sys2Proof.Machine

/-- NOP (R156): accepted at any BUSY, changes nothing. -/
def execNop (_arg : BitVec 24) (s : State) : Host.Outcome State Fault Refusal := .next s

/-- INIT (R153), refused while BUSY = 1 (R145). -/
def execInit (_arg : BitVec 24) (s : State) : Host.Outcome State Fault Refusal := .next (s.unlessBusy s.initRun)

/-- STEP N (R151, R152), refused while BUSY = 1 (R145). -/
def execStep (count : BitVec 24) (s : State) : Host.Outcome State Fault Refusal :=
  .next (s.unlessBusy (s.startStep count))

/-- ABORT (R154), accepted at any BUSY. -/
def execAbort (_arg : BitVec 24) (s : State) : Host.Outcome State Fault Refusal := .next s.abortRun

/-- A reserved opcode (R155): ERR_CMD at any BUSY, nothing else. -/
def execReserved (_opc : BitVec 8) (_arg : BitVec 24) (s : State) : Host.Outcome State Fault Refusal :=
  .next (s.flag .cmd)

/-- `Command(c)`: what an accepted write of `c` to CMD does (R150). -/
def State.command (s : State) (c : Word) : State :=
  match (opcOf c).toNat with
  | 0 => s
  | 1 => s.initRun
  | 2 => s.startStep (argOf c)
  | 3 => s.abortRun
  | _ => s.flag .cmd

end Sys2Proof.Machine
end

