-- ==== Sys2Proof/Machine/Flags.lean ====
section
/-!
DEFINITION. STATUS as the host reads and clears it (R32, R146, R147), and the interrupt output (R340).
-/

namespace Sys2Proof.Machine

/-- A single bit of a word, at its place. -/
def bitAt (i : Nat) (b : Bool) : Word := if b then BitVec.ofNat 32 (2 ^ i) else 0

/-- FIFO_NE (R36). -/
def State.fifoNe (s : State) : Bool := !s.fifo.isEmpty

/-- STATUS as it reads (R147): the derived bits are those of the state at the time of the read. -/
def State.statusWord (s : State) : Word :=
  bitAt 0 s.busy ||| bitAt 1 s.done ||| bitAt 2 s.mfLoaded ||| bitAt 3 s.rsLoaded ||| bitAt 4 s.fifoNe |||
  bitAt 8 s.errCmd ||| bitAt 9 s.errBusy ||| bitAt 10 s.errCoef ||| bitAt 11 s.errAddr ||| bitAt 12 s.errFifo |||
  bitAt 13 s.errOvf ||| bitAt 14 s.errSat

/-- A write to STATUS (R146): a 1 clears the W1C bit in its place; the derived and the reserved bits ignore it. -/
def State.clearFlags (s : State) (data : Word) : State :=
  { s with
    done := s.done && !data.getLsbD 1
    errCmd := s.errCmd && !data.getLsbD 8
    errBusy := s.errBusy && !data.getLsbD 9
    errCoef := s.errCoef && !data.getLsbD 10
    errAddr := s.errAddr && !data.getLsbD 11
    errFifo := s.errFifo && !data.getLsbD 12
    errOvf := s.errOvf && !data.getLsbD 13
    errSat := s.errSat && !data.getLsbD 14 }

/-- The STATUS bits that can interrupt (R37, R341). -/
def interruptSources : List Nat := [1, 4, 8, 9, 10, 11, 12, 13, 14]

/-- The IRQ output (R340): a level, at every moment that of the state. -/
def State.irq (s : State) : Bool :=
  interruptSources.any fun i => s.statusWord.getLsbD i && s.irqEn.getLsbD i

end Sys2Proof.Machine
end

