-- ==== Sys2Proof/Machine/Float64.lean ====
section
/-!
DEFINITION. IEEE 754 binary64 with round to nearest, ties to even, as R15 takes it: exact arithmetic on integers, then
one rounding. There is no fused operation and no exception flag (PRESUMED, log 11).
-/

namespace Sys2Proof.Machine

/-- A binary64 datum (R15): NaN, a signed infinity, or the number (−1)^neg · mant · 2^exp, signed zeros included. -/
inductive F64 where
  | nan
  | inf (neg : Bool)
  | fin (neg : Bool) (mant : Nat) (exp : Int)
deriving DecidableEq, Repr

/-- The least exponent of a finite binary64 number: subnormals and zeros have it. -/
abbrev F64.minExp : Int := -1074

/-- The greatest exponent of a finite binary64 number. -/
abbrev F64.maxExp : Int := 971

/-- The one form in which a finite number is held: 53 significant bits, or fewer at the least exponent. -/
def F64.canonical : F64 → Bool
  | .nan => true
  | .inf _ => true
  | .fin _ m e =>
    decide (m < 2 ^ 53) && decide (F64.minExp ≤ e) && decide (e ≤ F64.maxExp) && (decide (2 ^ 52 ≤ m) || decide (e = F64.minExp))

/-- `m / 2^n` to the nearest integer, a tie to the even one. -/
def roundedShift (m n : Nat) : Nat :=
  let q := m / 2 ^ n
  let twice := 2 * (m % 2 ^ n)
  if 2 ^ n < twice ∨ (twice = 2 ^ n ∧ q % 2 = 1) then q + 1 else q

/-- `m · 2^e` on the grid of `2^g`, to the nearest multiple, a tie to the even one. -/
def onGrid (m : Nat) (e g : Int) : Nat :=
  if g ≤ e then m * 2 ^ (e - g).toNat else roundedShift m (g - e).toNat

/-- The exponent of the grid on which `m · 2^e` is rounded, for `m ≠ 0`: its 53rd significant bit, or the least
exponent. -/
def gridExp (m : Nat) (e : Int) : Int := max (e + (m.log2 : Int) - 52) F64.minExp

/-- RN (R15): the exact number (−1)^neg · m · 2^e to the nearest binary64 value, ties to even. A zero keeps the sign
given, and a value beyond the greatest finite one becomes an infinity. -/
def F64.round (neg : Bool) (m : Nat) (e : Int) : F64 :=
  if m = 0 then .fin neg 0 F64.minExp
  else
    let g := gridExp m e
    let q := onGrid m e g
    let carry : Bool := decide (q = 2 ^ 53)
    let q' := if carry then 2 ^ 52 else q
    let g' := if carry then g + 1 else g
    if F64.maxExp < g' then .inf neg else .fin neg q' g'

/-- +0.0 or −0.0. -/
def F64.zero (neg : Bool) : F64 := .fin neg 0 F64.minExp

/-- The datum of a 64-bit pattern: sign P[63], biased exponent P[62:52], fraction P[51:0] (R114). -/
def F64.ofBits (p : Pattern) : F64 :=
  let neg := p.msb
  let biased := (p.extractLsb' 52 11).toNat
  let frac := (p.extractLsb' 0 52).toNat
  if biased = 2047 then (if frac = 0 then .inf neg else .nan)
  else if biased = 0 then .fin neg frac F64.minExp
  else .fin neg (2 ^ 52 + frac) ((biased : Int) - 1075)

/-- `bits64` (R15). The pattern of a NaN that an operation produced is a quiet NaN whose sign and payload are the free
value given (log 4). -/
def F64.toBits (free : BitVec 52) : F64 → Pattern
  | .nan => free.extractLsb' 51 1 ++ 0x7FF#11 ++ 1#1 ++ free.extractLsb' 0 51
  | .inf neg => BitVec.ofBool neg ++ 0x7FF#11 ++ 0#52
  | .fin neg m e =>
    if m < 2 ^ 52 then BitVec.ofBool neg ++ 0#11 ++ BitVec.ofNat 52 m
    else BitVec.ofBool neg ++ BitVec.ofNat 11 (e + 1075).toNat ++ BitVec.ofNat 52 (m - 2 ^ 52)

/-- The integer (−1)^neg · m. -/
def signedInt (neg : Bool) (m : Nat) : Int := if neg then -(m : Int) else (m : Int)

/-- Sign change. -/
def F64.neg : F64 → F64
  | .nan => .nan
  | .inf n => .inf (!n)
  | .fin n m e => .fin (!n) m e

/-- The sum of two finite numbers, exact and then rounded. A zero sum is +0.0 unless both operands are negative (then
both are −0.0). -/
def addFinite (na : Bool) (ma : Nat) (ea : Int) (nb : Bool) (mb : Nat) (eb : Int) : F64 :=
  let e := min ea eb
  let sum := signedInt na (ma * 2 ^ (ea - e).toNat) + signedInt nb (mb * 2 ^ (eb - e).toNat)
  if sum = 0 then .zero (na && nb) else .round (decide (sum < 0)) sum.natAbs e

/-- `fadd(a, b) = RN(a + b)` (R15). -/
def fadd : F64 → F64 → F64
  | .nan, _ => .nan
  | .inf _, .nan => .nan
  | .inf na, .inf nb => if na = nb then .inf na else .nan
  | .inf na, .fin _ _ _ => .inf na
  | .fin _ _ _, .nan => .nan
  | .fin _ _ _, .inf nb => .inf nb
  | .fin na ma ea, .fin nb mb eb => addFinite na ma ea nb mb eb

/-- `fsub(a, b) = RN(a − b)` (R15). -/
def fsub (a b : F64) : F64 := fadd a b.neg

/-- `fmul(a, b) = RN(a · b)` (R15). -/
def fmul : F64 → F64 → F64
  | .nan, _ => .nan
  | .inf _, .nan => .nan
  | .inf na, .inf nb => .inf (na != nb)
  | .inf na, .fin nb mb _ => if mb = 0 then .nan else .inf (na != nb)
  | .fin _ _ _, .nan => .nan
  | .fin na ma _, .inf nb => if ma = 0 then .nan else .inf (na != nb)
  | .fin na ma ea, .fin nb mb eb => .round (na != nb) (ma * mb) (ea + eb)

/-- The quotient of two finite numbers, the divisor not zero. 110 bits below the divisor's last place keep at least 57
significant bits of the quotient, and one more bit says whether any remain: rounding that is rounding the exact
quotient. -/
def divFinite (neg : Bool) (ma : Nat) (ea : Int) (mb : Nat) (eb : Int) : F64 :=
  let wide := ma * 2 ^ 110
  let sticky := if wide % mb = 0 then 0 else 1
  .round neg (2 * (wide / mb) + sticky) (ea - eb - 111)

/-- `fdiv(a, b) = RN(a / b)` (R15). -/
def fdiv : F64 → F64 → F64
  | .nan, _ => .nan
  | .inf _, .nan => .nan
  | .inf _, .inf _ => .nan
  | .inf na, .fin nb _ _ => .inf (na != nb)
  | .fin _ _ _, .nan => .nan
  | .fin na _ _, .inf nb => .zero (na != nb)
  | .fin na ma ea, .fin nb mb eb =>
    if mb = 0 then (if ma = 0 then .nan else .inf (na != nb)) else divFinite (na != nb) ma ea mb eb

/-- `i2f(v)` (R15): exact for every integer of magnitude up to 2^53. -/
def i2f (v : Int) : F64 := .round (decide (v < 0)) v.natAbs 0

/-- The binary64 power of two `2^p`, for `p` in the exponent range. -/
def twoPow (p : Int) : F64 := .round false 1 p

end Sys2Proof.Machine
end

