-- ==== Sys2Proof/Machine/Power.lean ====
section
/-!
DEFINITION. The power accumulators and the SNR ratio (R290 to R296), and the read-only binary64 registers as patterns
(R49, R50).
-/

namespace Sys2Proof.Machine

/-- The pattern of a value that the sample step or a read computes at a site; a NaN takes a free pattern (log 4). -/
def State.patternAt (s : State) (site : Config.NanSite) (v : F64) : Pattern :=
  v.toBits (Config.nanPayload site s.carrierPower s.noisePower)

/-- sI·sI + sQ·sQ, exact (R290). -/
def symbolPower (p : IQ (BitVec 8)) : Int := p.i.toInt * p.i.toInt + p.q.toInt * p.q.toInt

/-- CARRIER_POWER after a decision instant reports a symbol pair (R290). -/
def State.carrierAfter (s : State) (p : IQ (BitVec 8)) : Pattern :=
  s.patternAt .carrierPower (fadd (.ofBits s.carrierPower) (i2f (symbolPower p)))

/-- NOISE_POWER after a sample with scaled noise `n`: the squares are added to each other first (R291, R244). -/
def State.noiseAfter (s : State) (n : IQ F64) : Pattern :=
  s.patternAt .noisePower (fadd (.ofBits s.noisePower) (fadd (fmul n.i n.i) (fmul n.q n.q)))

/-- 64.0, the factor SNR_DUTY (R293, R296). -/
def snrDuty : F64 := F64.ofBits 0x4050000000000000

/-- `SnrRatio(CP, NP)` (R293): multiply, add, divide, each rounded. -/
def snrRatio (cp np : Pattern) : F64 :=
  fdiv (fmul (.ofBits cp) snrDuty) (fadd (.ofBits np) (.ofBits Config.eps64))

/-- A read-only binary64 register as a LO read finds it (R49, R50). -/
def State.powerPattern (s : State) : PowerReg → Pattern
  | .carrier => s.carrierPower
  | .noise => s.noisePower
  | .snrRatio => s.patternAt .snrRatio (snrRatio s.carrierPower s.noisePower)

end Sys2Proof.Machine
end

