-- ==== Sys2Proof/Machine/Bus.lean ====
section
/-!
DEFINITION. The bus transactions: BusRead (R140) and BusWrite (R141 to R146).
-/

namespace Sys2Proof.Machine

/-- The data a read of a mapped location returns (R140). -/
def State.readValue (s : State) : Loc → Word
  | .id => Config.idWord
  | .status => s.statusWord
  | .cmd => 0
  | .irqEn => s.irqEn
  | .k => s.k.setWidth 32
  | .snrScale => s.snrScale
  | .delayIndex => s.delayIndex.setWidth 32
  | .stepsLeft => s.stepsLeft.setWidth 32
  | .sampleCount => s.sampleCount
  | .drawCount => s.drawCount
  | .fifoLevel => s.fifoLevel
  | .outFifo => s.fifo.headD 0
  | .outLastI => s.outLastI
  | .outLastQ => s.outLastQ
  | .cfg r h => halfOf (s.cfg r) h
  | .power r .lo => halfOf (s.powerPattern r) .lo
  | .power r .hi => s.shadow r
  | .coef a => s.coefWord a

/-- A read of OUT_FIFO removes the oldest word, or flags ERR_FIFO when there is none (R46). -/
def State.popFifo (s : State) : State :=
  if s.fifo.isEmpty then s.flag .fifo else { s with fifo := s.fifo.tail }

/-- What a read of a mapped location does besides returning its data: only OUT_FIFO and the three LO words of the
read-only binary64 registers do anything (R88). -/
def State.readEffect (s : State) : Loc → State
  | .outFifo => s.popFifo
  | .power r .lo => s.setShadow r (halfOf (s.powerPattern r) .hi)
  | .power _ .hi => s
  | .id => s
  | .status => s
  | .cmd => s
  | .irqEn => s
  | .k => s
  | .snrScale => s
  | .delayIndex => s
  | .stepsLeft => s
  | .sampleCount => s
  | .drawCount => s
  | .fifoLevel => s
  | .outLastI => s
  | .outLastQ => s
  | .cfg _ _ => s
  | .coef _ => s

/-- The data word that reaches the host at the end of a read (R140, log 5). -/
def State.answer (s : State) (w : Word) : State := { s with readData := w }

/-- `BusRead(addr)` (R140): a bad read returns 0 and flags ERR_ADDR (R84). -/
def State.busRead (s : State) (addr : Addr) : State :=
  match locate addr with
  | none => (s.flag .addr).answer 0
  | some l => (s.readEffect l).answer (s.readValue l)

/-- What an accepted write to a location stores or does (R141 to R146). A write to a location marked RO is never
accepted. -/
def State.writeAccepted (s : State) (data : Word) : Loc → State
  | .status => s.clearFlags data
  | .cmd => s.command data
  | .irqEn => { s with irqEn := data &&& Config.irqMask }
  | .k => { s with k := data.extractLsb' 0 5 }
  | .snrScale => { s with snrScale := data }
  | .delayIndex => { s with delayIndex := data.extractLsb' 0 7 }
  | .cfg r h => s.setCfg r (withHalf (s.cfg r) h data)
  | .coef a => { s with mem := s.mem.setWord a data }
  | .id => s
  | .stepsLeft => s
  | .sampleCount => s
  | .drawCount => s
  | .fifoLevel => s
  | .outFifo => s
  | .outLastI => s
  | .outLastQ => s
  | .power _ _ => s

/-- `BusWrite(addr, data)` (R141): the bad-access check, then the busy check, then the write (R342). -/
def State.busWrite (s : State) (addr : Addr) (data : Word) : State :=
  match locate addr with
  | none => s.flag .addr
  | some l =>
    if l.readOnly then s.flag .addr
    else if s.busy && l.lockedWhileBusy data then s.flag .busy
    else s.writeAccepted data l

/-- BUSREAD (R140). -/
def execBusRead (addr : Addr) (s : State) : Host.Outcome State Fault Refusal := .next (s.busRead addr)

/-- BUSWRITE (R141). -/
def execBusWrite (addr : Addr) (data : Word) (s : State) : Host.Outcome State Fault Refusal :=
  .next (s.busWrite addr data)

end Sys2Proof.Machine
end

