-- ==== Sys2Proof/Machine/Dispatch.lean ====
section
/-!
DEFINITION. One arm per instruction: its meaning.
-/

namespace Sys2Proof.Machine

def exec (i : Instr) (s : State) : Host.Outcome State Fault Refusal :=
  match i with
  | .nop arg => Sys2Proof.Machine.execNop arg s
  | .init arg => Sys2Proof.Machine.execInit arg s
  | .step count => Sys2Proof.Machine.execStep count s
  | .abort arg => Sys2Proof.Machine.execAbort arg s
  | .reserved opc arg => Sys2Proof.Machine.execReserved opc arg s
  | .busRead addr => Sys2Proof.Machine.execBusRead addr s
  | .busWrite addr data => Sys2Proof.Machine.execBusWrite addr data s

end Sys2Proof.Machine
end

