-- ==== Sys2Proof/Machine/Arith.lean ====
section
/-!
DEFINITION. The integer primitives of R14: the signed 32-bit range, wrap32 and division toward zero.
-/

namespace Sys2Proof.Machine

/-- INT32_MIN (R14). -/
abbrev int32Min : Int := -2147483648

/-- INT32_MAX (R14). -/
abbrev int32Max : Int := 2147483647

/-- Outside the signed 32-bit range (R184). -/
def outsideInt32 (s : Int) : Bool := decide (s < int32Min) || decide (int32Max < s)

/-- `wrap32` (R14): an exact integer reduced to 32 bits, two's complement. The word's signed value is the number. -/
def wrap32 (s : Int) : Word := BitVec.ofInt 32 s

/-- `tdiv` (R14): division that truncates toward zero. -/
def truncDiv (a b : Int) : Int := a.sign * b.sign * ((a.natAbs / b.natAbs : Nat) : Int)

end Sys2Proof.Machine
end

