-- ==== Sys2Proof/Machine/Fir.lean ====
section
/-!
DEFINITION. The FIR engine (R180 to R188): one call on one channel, its matched-filter coefficients and its resampler
bank.
-/

namespace Sys2Proof.Machine

/-- What one call gives (R180): the output, the delay line after the insert, and whether the exact sum left the signed
32-bit range. -/
structure FirResult (w : Nat) where
  y : Word
  dl : List (BitVec w)
  ovf : Bool
deriving DecidableEq, Repr

/-- The exact sum of coefficient k times delay-line position k (R180, R181, R183). -/
def firSum {w : Nat} (c : List Word) (dl : List (BitVec w)) : Int :=
  (List.zipWith (fun a d => a.toInt * d.toInt) c dl).sum

/-- The delay line after an insert: the new sample at position 0, the oldest discarded (R180, R182). -/
def insertSample {w : Nat} (x : BitVec w) (dl : List (BitVec w)) : List (BitVec w) := (x :: dl).dropLast

/-- `FIR(L, c, dl, x)` (R180): the output is computed from the delay line as it stood before the insert (R182). The
length L is that of `c` and `dl`. -/
def fir {w : Nat} (c : List Word) (dl : List (BitVec w)) (x : BitVec w) : FirResult w :=
  { y := wrap32 (firSum c dl)
    dl := insertSample x dl
    ovf := outsideInt32 (firSum c dl) }

/-- MF[0..2047] (R52, R188). -/
def State.mfCoefs (s : State) : List Word := Memory.readWords s.powerOns Config.mfTaps Config.mfBase s.mem

/-- The byte address of a bank: 0x4000 + 36·B (R82). -/
def bankAddr (b : BitVec 7) : Nat := Config.rsBase + 36 * b.toNat

/-- `bank(B)`: RS[9·B .. 9·B+8] with B = DELAY_INDEX (R270, R271). -/
def State.rsBank (s : State) : List Word :=
  Memory.readWords s.powerOns Config.rsTaps (bankAddr s.delayIndex) s.mem

end Sys2Proof.Machine
end

