-- ==== Sys2Proof/Machine/Impairment.lean ====
section
/-!
DEFINITION. The impairment model: normalisation, carrier rotation, noise, DC offset, phase imbalance, gain imbalance and
truncation, in that order (R240 to R251). Every stage runs in every sample (R245).
-/

namespace Sys2Proof.Machine

/-- 1.0. -/
def F64.one : F64 := F64.ofBits onePattern

/-- Normalisation by fgain = 2^K (R240). -/
def normalise (k : BitVec 5) (a : Word) : F64 := fmul (i2f a.toInt) (twoPow (-(k.toNat : Int)))

/-- Carrier rotation by the angle with cosine `c` and sine `s` (R241). -/
def rotate (c s : F64) (x : IQ F64) : IQ F64 :=
  ⟨fsub (fmul x.i c) (fmul x.q s), fadd (fmul x.i s) (fmul x.q c)⟩

/-- Noise scaling by SNR_SCALE (R242). -/
def scaleNoise (snrScale : Word) (n : IQ F64) : IQ F64 := n.map (fmul (i2f snrScale.toInt))

/-- Noise addition (R243) and DC offset (R246): a pair added to a pair. -/
def addPair (a b : IQ F64) : IQ F64 := a.zip fadd b

/-- Phase imbalance (R247): not a rotation, both sine terms are added. -/
def phaseImbalance (ct st : F64) (w : IQ F64) : IQ F64 :=
  ⟨fadd (fmul w.i ct) (fmul w.q st), fadd (fmul w.i st) (fmul w.q ct)⟩

/-- Gain imbalance by (1 + g) on I and (1 − g) on Q (R248). -/
def gainImbalance (g : F64) (p : IQ F64) : IQ F64 :=
  ⟨fmul p.i (fadd .one g), fmul p.q (fsub .one g)⟩

/-- The stages after normalisation and before truncation, in the fixed order (R245, R249), on the normalised pair `x`
and the scaled noise `n`. -/
def impair (s : State) (x n : IQ F64) : IQ F64 :=
  let r := rotate (.ofBits s.cosPhi) (.ofBits s.sinPhi) x
  let v := addPair r n
  let w := addPair v ⟨.ofBits s.dcI, .ofBits s.dcQ⟩
  let p := phaseImbalance (.ofBits s.cosTheta) (.ofBits s.sinTheta) w
  gainImbalance (.ofBits s.gainImb) p

/-- The integer part of the magnitude of a finite number (R250). -/
def truncMagnitude (m : Nat) (e : Int) : Nat := if 0 ≤ e then m * 2 ^ e.toNat else m / 2 ^ (-e).toNat

/-- What F2I gives: a signed 32-bit integer, and whether ERR_SAT is flagged (R250). -/
structure Truncated where
  value : Word
  sat : Bool
deriving DecidableEq, Repr

/-- An integer as it is, or the nearer end of the signed 32-bit range with ERR_SAT (R250). -/
def saturate (t : Int) : Truncated :=
  if int32Max < t then ⟨BitVec.ofInt 32 int32Max, true⟩
  else if t < int32Min then ⟨BitVec.ofInt 32 int32Min, true⟩
  else ⟨BitVec.ofInt 32 t, false⟩

/-- `F2I` (R250): round toward zero, saturate, and NaN gives 0. -/
def f2i : F64 → Truncated
  | .nan => ⟨0, true⟩
  | .inf neg => ⟨BitVec.ofInt 32 (if neg then int32Min else int32Max), true⟩
  | .fin neg m e => saturate (signedInt neg (truncMagnitude m e))

end Sys2Proof.Machine
end

