-- ==== Sys2Proof/Machine/Noise.lean ====
section
/-!
DEFINITION. The Gaussian noise generator: a sum of ten centred uniform draws (R220 to R225, conflict C1).
-/

namespace Sys2Proof.Machine

/-- The uniform value of a draw, d · 2^−31 (R221). -/
def uniformOf (d : Draw) : F64 := fmul (i2f d.toNat) (F64.ofBits 0x3E00000000000000)

/-- 0.5, with which a uniform value is centred (R220). -/
def oneHalf : F64 := F64.ofBits 0x3FE0000000000000

/-- The sum of the centred draws, in the order they are taken (R220). -/
def centredSum (ds : List Draw) : F64 :=
  ds.foldl (fun acc d => fadd acc (fsub (uniformOf d) oneHalf)) (.zero false)

/-- `Noise()` on the ten draws it takes (R220, R223). -/
def noise (ds : List Draw) : F64 := fmul (centredSum ds) (F64.ofBits Config.noiseK)

/-- The two noise values of a sample from the draws at the port after the symbol draws (R224, R312): ten for I, then
ten for Q. -/
def noisePair (ds : List Draw) : IQ F64 :=
  ⟨noise (ds.take Config.noiseDraws), noise ((ds.drop Config.noiseDraws).take Config.noiseDraws)⟩

end Sys2Proof.Machine
end

