-- ==== Sys2Proof/Machine/Symbol.lean ====
section
/-!
DEFINITION. The symbol source with its 256-fold zero-stuffing (R200 to R205).
-/

namespace Sys2Proof.Machine

/-- A decision instant: n mod 256 = 0, with n the sample counter before the step (R201). -/
def decisionInstant (n : Word) : Bool := decide (n.toNat % Config.upsample = 0)

/-- `Sym(d)` (R202): +64 below half of the range, −64 otherwise. -/
def sym (d : Draw) : BitVec 8 := if d.toNat < 2 ^ 30 then 64 else -64

/-- The symbol pair of a sample from the draws at the port (R200): the first draw is I, the second Q (R204); (0, 0)
between decisions (R203). -/
def symbolPair (n : Word) (ds : List Draw) : IQ (BitVec 8) :=
  if decisionInstant n then ⟨sym (ds.getD 0 0), sym (ds.getD 1 0)⟩ else ⟨0, 0⟩

/-- How many draws the symbol source takes at a sample (R200). -/
def symbolDraws (n : Word) : Nat := if decisionInstant n then 2 else 0

end Sys2Proof.Machine
end

