-- ==== Sys2Proof/Machine/Sample.lean ====
section
/-!
DEFINITION. The resampler's quantiser (R277, R279) and the whole sample step (R310 to R318).
-/

namespace Sys2Proof.Machine

/-- Quantisation: division by RS_SCALE = 2048, toward zero (R276, R277). -/
def quantise (b : Word) : Word := BitVec.ofInt 32 (truncDiv b.toInt 2048)

/-- `OW(y) = (16·y) mod 2^32` (R117, R279). -/
def outputWord (y : Word) : Word := BitVec.ofInt 32 (16 * y.toInt)

/-- How many draws the sample step of a state takes: 22 at a decision instant and 20 otherwise (R312). -/
def State.drawsNeeded (s : State) : Nat := symbolDraws s.sampleCount + 2 * Config.noiseDraws

/-- A sample step is enabled (R313): a command is in progress, two FIFO entries are free, and the port can supply the
draws. -/
def State.sampleEnabled (s : State) : Bool :=
  s.busy && decide (s.fifo.length + 2 ≤ Config.outFifoDepth) && decide (s.drawsNeeded ≤ s.draws.length)

/-- The values of one sample (R314), each from the state before the step (R316). -/
structure SampleValues where
  /-- The symbol pair (R200). -/
  sym : IQ (BitVec 8)
  /-- The matched-filter calls (R188). -/
  matched : IQ (FirResult 8)
  /-- The scaled noise (R242). -/
  noise : IQ F64
  /-- The impaired pair (R249). -/
  impaired : IQ F64
  /-- The truncated pair (R250). -/
  truncated : IQ Truncated
  /-- The resampler calls (R272). -/
  resampled : IQ (FirResult 32)
  /-- The quantised pair (R277). -/
  y : IQ Word

/-- The symbol pair of the state's next sample (R200). -/
def State.nextSymbol (s : State) : IQ (BitVec 8) := symbolPair s.sampleCount s.draws

/-- The matched-filter calls of a symbol pair (R188): the channels are independent (R185). -/
def State.matchedFilter (s : State) (sy : IQ (BitVec 8)) : IQ (FirResult 8) :=
  ⟨fir s.mfCoefs s.mfdlI sy.i, fir s.mfCoefs s.mfdlQ sy.q⟩

/-- The scaled noise of the state's next sample: its draws follow the symbol draws (R242, R312). -/
def State.nextNoise (s : State) : IQ F64 :=
  scaleNoise s.snrScale (noisePair (s.draws.drop (symbolDraws s.sampleCount)))

/-- The resampler calls of a truncated pair (R272). -/
def State.resample (s : State) (t : IQ Truncated) : IQ (FirResult 32) :=
  ⟨fir s.rsBank s.rsdlI t.i.value, fir s.rsBank s.rsdlQ t.q.value⟩

/-- Steps 1 to 11 of R314: every value of the state's next sample. -/
def State.sampleValues (s : State) : SampleValues :=
  let sy := s.nextSymbol
  let a := s.matchedFilter sy
  let x := a.map fun r => normalise s.k r.y
  let n := s.nextNoise
  let g := impair s x n
  let t := g.map f2i
  let b := s.resample t
  { sym := sy, matched := a, noise := n, impaired := g, truncated := t, resampled := b, y := b.map fun r => quantise r.y }

/-- A FIR call of the sample overflowed (R184, R274). -/
def SampleValues.ovf (v : SampleValues) : Bool :=
  v.matched.i.ovf || v.matched.q.ovf || v.resampled.i.ovf || v.resampled.q.ovf

/-- A channel of the sample saturated or met NaN (R250). -/
def SampleValues.sat (v : SampleValues) : Bool := v.truncated.i.sat || v.truncated.q.sat

/-- The state after a sample whose values are `v` (R314): one atomic transition (R315). -/
def State.commitSample (s : State) (v : SampleValues) : State :=
  { s with
    carrierPower := if decisionInstant s.sampleCount then s.carrierAfter v.sym else s.carrierPower
    noisePower := s.noiseAfter v.noise
    mfdlI := v.matched.i.dl
    mfdlQ := v.matched.q.dl
    rsdlI := v.resampled.i.dl
    rsdlQ := v.resampled.q.dl
    outLastI := v.y.i
    outLastQ := v.y.q
    fifo := s.fifo ++ [outputWord v.y.i, outputWord v.y.q]
    errOvf := s.errOvf || v.ovf
    errSat := s.errSat || v.sat
    draws := s.draws.drop s.drawsNeeded
    drawCount := s.drawCount + BitVec.ofNat 32 s.drawsNeeded
    sampleCount := s.sampleCount + 1
    stepsLeft := s.stepsLeft - 1
    done := s.done || decide (s.stepsLeft = 1) }

/-- `SampleStep()` (R314). The engine performs it only where it is enabled (R313). -/
def State.sampleStep (s : State) : State := s.commitSample s.sampleValues

/-- The engine's turn (R313): a sample step if one is enabled, else it holds and changes nothing. -/
def State.engineTurn (s : State) : State := if s.sampleEnabled then s.sampleStep else s

end Sys2Proof.Machine
end

