-- ==== Sys2Proof/Machine/Turn.lean ====
section
/-!
DEFINITION. What the environment's events other than a bus transaction do (R60, R92, R370), and the transaction that a
word of the opcode table stands for (log 7).
-/

namespace Sys2Proof.Machine

/-- The random source presents more draws (R60, R313): they queue behind those already at the port. -/
def State.supplyDraws (s : State) (ds : List Draw) : State := { s with draws := s.draws ++ ds }

/-- The next state when the host has no transaction at this point (R91, R92, log 1). -/
def State.withoutHost (s : State) : Option Event → State
  | none => s.engineTurn
  | some .engine => s.engineTurn
  | some (.supply ds) => s.supplyDraws ds
  | some .powerOn => s.powerOn
  | some (.host _) => s

/-- Put a bus transaction in front of the inputs: it is what the next step runs. -/
def State.withNextCycle (s : State) (b : BusCycle) : State := { s with inputs := .host b :: s.inputs }

/-- The transaction of a word of the opcode table: the command word written to CMD (log 7). -/
def cycleOfTableWord (nbits w : Nat) : Option BusCycle :=
  match commandWordOfBits nbits w with
  | .ok c => some (commandCycle c)
  | .error _ => none

end Sys2Proof.Machine
end

