-- ==== Sys2Proof/Machine/Step.lean ====
section
/-!
DEFINITION. One step of the machine: the next event of the interleaving (R91, R92, log 1). A bus transaction is decoded
and executed; any other event is the environment's or the engine's.
-/

namespace Sys2Proof.Machine

/-- One atomic transition (R90, R315). With no input pending it is the engine's turn, so a sample step that stays
enabled is performed (R388). -/
def step (s : State) : Host.Outcome State Fault Refusal :=
  match s.inputs with
  | [] => .next (s.withoutHost none)
  | .host b :: rest => exec (decode b) { s with inputs := rest }
  | .engine :: rest => .next ({ s with inputs := rest }.withoutHost (some .engine))
  | .supply ds :: rest => .next ({ s with inputs := rest }.withoutHost (some (.supply ds)))
  | .powerOn :: rest => .next ({ s with inputs := rest }.withoutHost (some .powerOn))

/-- The state with a word of the opcode table as the host's next transaction, so that the very next step runs it (log
7). Bits that are no command word leave the state as it is. -/
def State.withFetchWord (s : State) (nbits w : Nat) : State :=
  match cycleOfTableWord nbits w with
  | some b => s.withNextCycle b
  | none => s

end Sys2Proof.Machine
end

