-- ==== Sys2Proof/Laws/Decode.lean ====
section
/-!
SUPPORT. The fields of a command word, and what decoding gives.
-/

namespace Sys2Proof

@[simp] theorem opcOf_commandWord (opc : BitVec 8) (arg : BitVec 24) : opcOf (commandWord opc arg) = opc := by
  apply BitVec.eq_of_getLsbD_eq
  intro i hi
  have h : ¬ 24 + i < 24 := by omega
  simp only [opcOf, commandWord, BitVec.getLsbD_append, BitVec.getLsbD_extractLsb', h]
  simp [hi]

@[simp] theorem argOf_commandWord (opc : BitVec 8) (arg : BitVec 24) : argOf (commandWord opc arg) = arg := by
  apply BitVec.eq_of_getLsbD_eq
  intro i hi
  simp only [argOf, commandWord, BitVec.getLsbD_append, BitVec.getLsbD_extractLsb']
  simp [hi]

@[simp] theorem commandWord_opcOf_argOf (c : Word) : commandWord (opcOf c) (argOf c) = c := by
  apply BitVec.eq_of_getLsbD_eq
  intro i hi
  simp only [opcOf, argOf, commandWord, BitVec.getLsbD_append, BitVec.getLsbD_extractLsb']
  by_cases h : i < 24
  · simp [h]
  · have h2 : i - 24 < 8 := by omega
    simp [h, h2, show 24 + (i - 24) = i by omega]

/-- What the command decoder answers, by OPC (R111). -/
theorem decodeCommand_cases (c : Word) :
    (opcOf c = 0 ∧ decodeCommand c = .nop (argOf c)) ∨ (opcOf c = 1 ∧ decodeCommand c = .init (argOf c)) ∨
    (opcOf c = 2 ∧ decodeCommand c = .step (argOf c)) ∨ (opcOf c = 3 ∧ decodeCommand c = .abort (argOf c)) ∨
    (4 ≤ (opcOf c).toNat ∧ decodeCommand c = .reserved (opcOf c) (argOf c)) := by
  rw [decodeCommand]
  generalize opcOf c = o
  have ho : ∀ n : Nat, n < 256 → o.toNat = n → o = BitVec.ofNat 8 n := fun n hn h =>
    BitVec.eq_of_toNat_eq (by simp [h, Nat.mod_eq_of_lt hn])
  split
  · rename_i h; exact .inl ⟨ho 0 (by omega) h, rfl⟩
  · rename_i h; exact .inr (.inl ⟨ho 1 (by omega) h, rfl⟩)
  · rename_i h; exact .inr (.inr (.inl ⟨ho 2 (by omega) h, rfl⟩))
  · rename_i h; exact .inr (.inr (.inr (.inl ⟨ho 3 (by omega) h, rfl⟩)))
  · rename_i h0 h1 h2 h3
    have : 4 ≤ o.toNat := by
      rcases Nat.lt_or_ge o.toNat 4 with h | h
      · interval_cases hv : o.toNat
        · exact absurd rfl h0
        · exact absurd rfl h1
        · exact absurd rfl h2
        · exact absurd rfl h3
      · exact h
    exact .inr (.inr (.inr (.inr ⟨this, rfl⟩)))

theorem decode_read (a : Addr) (d : Word) : decode ⟨false, a, d⟩ = .busRead a := rfl

theorem decode_command (c : Word) : decode (commandCycle c) = decodeCommand c := rfl

theorem decode_write (a : Addr) (d : Word) (h : a ≠ cmdAddr) : decode ⟨true, a, d⟩ = .busWrite a d := by
  simp [decode, h]

end Sys2Proof
end

