-- ==== Sys2Proof/Laws/PerInstr.lean ====
section
/-!
SUPPORT. Statements made instruction by instruction: the decoder reads back what the encoder writes (R111, R119).
-/

namespace Sys2Proof.Laws.RoundTrip

/-- Decoding the encoding of a well-formed instruction gives it back. -/
def Statement (i : Instr) : Prop := i.wellFormed = true → decode (encode i) = i

theorem nop (arg : BitVec 24) : Statement (.nop arg) := fun _ => by
  simp [encode, decode_command, decodeCommand]

theorem init (arg : BitVec 24) : Statement (.init arg) := fun _ => by
  simp [encode, decode_command, decodeCommand]

theorem step (count : BitVec 24) : Statement (.step count) := fun _ => by
  simp [encode, decode_command, decodeCommand]

theorem abort (arg : BitVec 24) : Statement (.abort arg) := fun _ => by
  simp [encode, decode_command, decodeCommand]

theorem reserved (opc : BitVec 8) (arg : BitVec 24) : Statement (.reserved opc arg) := fun h => by
  have h4 : 4 ≤ opc.toNat := of_decide_eq_true h
  have hc := decodeCommand_cases (commandWord opc arg)
  simp only [opcOf_commandWord, argOf_commandWord] at hc
  rw [encode, decode_command]
  rcases hc with ⟨rfl, -⟩ | ⟨rfl, -⟩ | ⟨rfl, -⟩ | ⟨rfl, -⟩ | ⟨-, hc⟩
  · simp at h4
  · simp at h4
  · simp at h4
  · simp at h4
  · exact hc

theorem busRead (addr : Addr) : Statement (.busRead addr) := fun _ => rfl

theorem busWrite (addr : Addr) (data : Word) : Statement (.busWrite addr data) := fun h =>
  decode_write addr data (of_decide_eq_true h)

end Sys2Proof.Laws.RoundTrip
end

