-- ==== Sys2Proof/Machine/HostNotation.lean ====
section
/-!
DEFINITION. The host's program notation and pseudo-instructions as the transactions they expand to (R119, R120). The
loop of WAITIDLE is the host's control flow; only its transaction is here.
-/

namespace Sys2Proof.Machine

/-- `WR <addr>, <data>` (R119). -/
def hostWr (addr : Addr) (data : Word) : BusCycle := ⟨true, addr, data⟩

/-- `RD <addr>` (R119). -/
def hostRd (addr : Addr) : BusCycle := ⟨false, addr, 0⟩

/-- `NOP` (R119). -/
def hostNop : BusCycle := encode (.nop 0)

/-- `INIT` (R119). -/
def hostInit : BusCycle := encode (.init 0)

/-- `STEP <N>` (R119). -/
def hostStep (n : BitVec 24) : BusCycle := encode (.step n)

/-- `ABORT` (R119). -/
def hostAbort : BusCycle := encode (.abort 0)

/-- `WR64 <X>, <f64 value>`: the low word, then the high word (R120). -/
def hostWr64 (lo : Addr) (p : Pattern) : List BusCycle :=
  [hostWr lo (p.extractLsb' 0 32), hostWr (lo + 4) (p.extractLsb' 32 32)]

/-- `RD64 <X>`: the low word, then the high word (R120, R382). -/
def hostRd64 (lo : Addr) : List BusCycle := [hostRd lo, hostRd (lo + 4)]

/-- Writes of consecutive entries from a byte address. -/
def hostLoad (base : Nat) : List Word → List BusCycle
  | [] => []
  | c :: rest => hostWr (BitVec.ofNat 16 base) c :: hostLoad (base + 4) rest

/-- `LOADMF c0, …, c2047` (R120). -/
def hostLoadMf (c : List Word) : List BusCycle := hostLoad Config.mfBase c

/-- `LOADRS c0, …, c1151` (R120). -/
def hostLoadRs (c : List Word) : List BusCycle := hostLoad Config.rsBase c

/-- The transaction that `WAITIDLE` repeats while STATUS bit 0 is 1 (R120). -/
def hostWaitIdleRead : BusCycle := hostRd 0x0004

/-- `DRAIN n` (R120). -/
def hostDrain (n : Nat) : List BusCycle := List.replicate n (hostRd 0x002C)

end Sys2Proof.Machine
end

