-- ==== Sys2Proof/Machine/RingDelayLine.lean ====
section
/-!
DEFINITION. The other design of a delay line that the spec allows (R57, R181): a circular buffer with a front pointer.
It is no state of the machine; claims compare it with the delay line of State. And a FIR fed one sample a call.
-/

namespace Sys2Proof.Machine

/-- A circular buffer and its front pointer (R181). -/
structure RingDelayLine (w : Nat) where
  buf : List (BitVec w)
  front : Nat
deriving DecidableEq, Repr

/-- The logical view: position k is `buf[(f + k) mod L]` (R57, R181). -/
def RingDelayLine.view {w : Nat} (r : RingDelayLine w) : List (BitVec w) :=
  (List.range r.buf.length).map fun k => r.buf.getD ((r.front + k) % r.buf.length) 0

/-- Insert a sample: the front pointer moves back by one place, over the oldest sample. -/
def RingDelayLine.insert {w : Nat} (r : RingDelayLine w) (x : BitVec w) : RingDelayLine w :=
  let front := (r.front + r.buf.length - 1) % r.buf.length
  { buf := r.buf.set front x, front := front }

/-- `sum c[k] * buf[(f + k) mod L]` (R181). -/
def RingDelayLine.sum {w : Nat} (c : List Word) (r : RingDelayLine w) : Int :=
  ((List.range r.buf.length).map fun k =>
    (c.getD k 0).toInt * (r.buf.getD ((r.front + k) % r.buf.length) 0).toInt).sum

/-- The outputs of successive FIR calls on one channel (R182), one per input. -/
def firOutputs {w : Nat} (c : List Word) (dl : List (BitVec w)) : List (BitVec w) → List Word
  | [] => []
  | x :: xs => (fir c dl x).y :: firOutputs c (fir c dl x).dl xs

end Sys2Proof.Machine
end

