-- ==== Sys2Proof/Safety.lean ====
section
/-!
DEFINITION. What claims are stated in: when a step goes on, the invariants of a run, when a run is over, the rational
value of a binary64 number and what rounding it correctly means.
-/

namespace Sys2Proof.Machine

/-- The machine goes on: a next state, no fault and no refusal (R330). -/
def AnswersNext (o : Host.Outcome State Fault Refusal) : Prop := ∃ t, o = .next t

/-- What every reachable state has: the memory is in canonical form (log 8), the sizes are the fixed ones (R55, R56,
R58), the matched-filter delay lines hold symbols only (R203), the reserved bits of IRQ_EN are 0 (R85), and a command
in progress has its coefficients loaded (R152). -/
structure Inv (s : State) : Prop where
  memory : s.mem.wf = true
  irqReserved : s.irqEn &&& ~~~Config.irqMask = 0
  mfdlILength : s.mfdlI.length = Config.mfTaps
  mfdlQLength : s.mfdlQ.length = Config.mfTaps
  rsdlILength : s.rsdlI.length = Config.rsTaps
  rsdlQLength : s.rsdlQ.length = Config.rsTaps
  mfdlISymbols : ∀ d ∈ s.mfdlI, d = 0 ∨ d = 64 ∨ d = -64
  mfdlQSymbols : ∀ d ∈ s.mfdlQ, d = 0 ∨ d = 64 ∨ d = -64
  fifoCapacity : s.fifo.length ≤ Config.outFifoDepth
  busyLoaded : s.busy = true → s.mfLoaded = true ∧ s.rsLoaded = true

/-- A symbol at position k of a matched-filter delay line was inserted by a decision instant, k + 1 samples ago (R201,
R203). -/
def CadenceOf (n : Word) (dl : List (BitVec 8)) : Prop :=
  ∀ k, k < dl.length → dl.getD k 0 ≠ 0 → (n.toNat + 2 ^ 32 - 1 - k) % Config.upsample = 0

/-- The 256-sample cadence of the symbols in both matched-filter delay lines (R188, R201). -/
structure SymbolCadence (s : State) : Prop where
  mfdlILength : s.mfdlI.length = Config.mfTaps
  mfdlQLength : s.mfdlQ.length = Config.mfTaps
  cadenceI : CadenceOf s.sampleCount s.mfdlI
  cadenceQ : CadenceOf s.sampleCount s.mfdlQ

/-- The pattern of a value ≥ +0.0, +infinity included (R292). Patterns of such values are ordered as the values are. -/
def NonNegativePattern (p : Pattern) : Prop := p.toNat ≤ 0x7FF0000000000000

/-- Neither accumulator is negative or NaN (R292). -/
structure AccumulatorsNonNegative (s : State) : Prop where
  carrier : NonNegativePattern s.carrierPower
  noise : NonNegativePattern s.noisePower

/-- The block's part of "a run is over" (R373): no sample left to process and no word left to read. -/
def RunOver (s : State) : Prop := s.stepsLeft = 0 ∧ s.fifo = []

/-- `n` sample steps, each taken whether or not it is enabled. -/
def sampleSteps : Nat → State → State
  | 0, s => s
  | n + 1, s => sampleSteps n s.sampleStep

/-- Every entry of both coefficient memories is written: MF_LOADED = RS_LOADED = 1 (R35). -/
structure Loaded (s : State) : Prop where
  mf : ∀ k < 2048, s.mem.written (0x2000 + 4 * k) = true
  rs : ∀ j < 1152, s.mem.written (0x4000 + 4 * j) = true

/-- The rational number that a finite datum is; 0 for the others. -/
def F64.value : F64 → ℚ
  | .nan => 0
  | .inf _ => 0
  | .fin neg m e => (if neg then -1 else 1) * (m : ℚ) * (2 : ℚ) ^ e

/-- A datum is a finite number. -/
def F64.isFinite : F64 → Bool
  | .nan => false
  | .inf _ => false
  | .fin _ _ _ => true

/-- The significand's last bit is 0. -/
def F64.evenSignificand : F64 → Bool
  | .nan => false
  | .inf _ => false
  | .fin _ m _ => decide (m % 2 = 0)

/-- Half a unit beyond the greatest finite number: at and above it, rounding to nearest gives an infinity. -/
def overflowThreshold : ℚ := (2 ^ 54 - 1) * 2 ^ 970

/-- `r` is RN(x) for a nonzero exact x (R15): an infinity of x's sign from the threshold on, else a finite binary64
number of x's sign with no other nearer, and of two equally near the one with the even significand. -/
def IsRN (x : ℚ) (r : F64) : Prop :=
  if overflowThreshold ≤ |x| then r = .inf (decide (x < 0))
  else ∃ m e, r = .fin (decide (x < 0)) m e ∧ r.canonical = true ∧
    ∀ r' : F64, r'.isFinite = true → r'.canonical = true →
      |r.value - x| ≤ |r'.value - x| ∧
      (r'.value ≠ r.value → |r'.value - x| = |r.value - x| → r.evenSignificand = true)

end Sys2Proof.Machine
end

