-- ==== Sys2Proof/Certificates/Slice0/Obligations.lean ====
section
/-!
DEFINITION. The statements about the model, from the numbered rules of spec/: the commands, the bus, the status bits and
the interrupt, the engine and its datapath, binary64, the invariants, reset, the encoding. OBLIGATIONS.json lists them.
-/

open Sys2Proof Sys2Proof.Machine

namespace Sys2Proof.Claims

/-- The reserved ranges of the address map, by byte address (R81). -/
def Reserved (a : Nat) : Prop :=
  (0x0038 ≤ a ∧ a < 0x0040) ∨ (0x0078 ≤ a ∧ a < 0x0080) ∨ (0x0098 ≤ a ∧ a < 0x2000) ∨ 0x5200 ≤ a

/-- A misaligned or reserved byte address (R83, R84). -/
def BadAddress (addr : Addr) : Prop := addr.toNat % 4 ≠ 0 ∨ Reserved addr.toNat

/-- The locations marked RO in the address map (R81). -/
def ReadOnly (addr : Addr) : Prop :=
  addr.toNat ∈ [0x0000, 0x001C, 0x0020, 0x0024, 0x0028, 0x002C, 0x0030, 0x0034,
    0x0080, 0x0084, 0x0088, 0x008C, 0x0090, 0x0094]

/-- The targets that R86 refuses while BUSY = 1, for a write of `data`. -/
def BusyTarget (addr : Addr) (data : Word) : Prop :=
  addr.toNat % 4 = 0 ∧
  ((0x2000 ≤ addr.toNat ∧ addr.toNat < 0x5200) ∨ addr.toNat ∈ [0x0010, 0x0014, 0x0018] ∨
   (0x0040 ≤ addr.toNat ∧ addr.toNat < 0x0078) ∨
   (addr.toNat = 0x0008 ∧ (data.extractLsb' 24 8 = 1 ∨ data.extractLsb' 24 8 = 2)))

/-- A coefficient's word address (R82). -/
def CoefficientAddress (addr : Addr) : Prop := addr.toNat % 4 = 0 ∧ 0x2000 ≤ addr.toNat ∧ addr.toNat < 0x5200

/-- An error flag of STATUS (R331). -/
def errBit (s : State) : ErrFlag → Bool
  | .cmd => s.errCmd
  | .busy => s.errBusy
  | .coef => s.errCoef
  | .addr => s.errAddr
  | .fifo => s.errFifo
  | .ovf => s.errOvf
  | .sat => s.errSat

/-- The number of an error flag's STATUS bit (R331). -/
def errBitNumber : ErrFlag → Nat
  | .cmd => 8
  | .busy => 9
  | .coef => 10
  | .addr => 11
  | .fifo => 12
  | .ovf => 13
  | .sat => 14

/-- A write of `data` to a word of the bus stands at the head of the inputs. -/
def NextWrite (s : State) (addr : Addr) (data : Word) : Prop := ∃ rest, s.inputs = .host ⟨true, addr, data⟩ :: rest

/-- The reset input stands at the head of the inputs. -/
def NextPowerOn (s : State) : Prop := ∃ rest, s.inputs = .powerOn :: rest

/-- It is the engine's turn: no input is pending, or the head of the inputs says so. -/
def NextEngine (s : State) : Prop := s.inputs = [] ∨ ∃ rest, s.inputs = .engine :: rest

/-- The neutral parameters of R251. -/
structure Neutral (s : State) : Prop where
  dcI : s.dcI = 0
  dcQ : s.dcQ = 0
  gainImb : s.gainImb = 0
  sinPhi : s.sinPhi = 0
  sinTheta : s.sinTheta = 0
  cosPhi : s.cosPhi = 0x3FF0000000000000
  cosTheta : s.cosTheta = 0x3FF0000000000000
  snrScale : s.snrScale = 0

end Sys2Proof.Claims

open Sys2Proof.Claims

/-! ### The commands -/

/-- NOP changes nothing, whatever ARG and BUSY are (R156). -/
def Obligations.NopChangesNothing : Prop :=
  ∀ (s : State) (arg : BitVec 24) (c : Word),
    exec (.nop arg) s = .next s ∧
    (c.extractLsb' 24 8 = 0x00 → exec (decode ⟨true, 0x0008, c⟩) s = .next s)

/-- ABORT ends a running command and sets DONE; while idle it changes nothing (R154). -/
def Obligations.AbortEndsTheRunningCommand : Prop :=
  ∀ (s : State) (arg : BitVec 24) (c : Word),
    exec (.abort arg) s = .next (if s.stepsLeft ≠ 0 then { s with stepsLeft := 0, done := true } else s) ∧
    (c.extractLsb' 24 8 = 0x03 → exec (decode ⟨true, 0x0008, c⟩) s = exec (.abort arg) s)

/-- A reserved opcode flags ERR_CMD and changes nothing else, at any BUSY (R155). -/
def Obligations.ReservedOpcodeOnlyFlags : Prop :=
  ∀ (s : State) (opc : BitVec 8) (arg : BitVec 24) (c : Word),
    exec (.reserved opc arg) s = .next { s with errCmd := true } ∧
    (4 ≤ (c.extractLsb' 24 8).toNat → exec (decode ⟨true, 0x0008, c⟩) s = .next { s with errCmd := true })

/-- INIT resets the run state and nothing else; while busy it is refused with ERR_BUSY (R153). -/
def Obligations.InitResetsTheRunState : Prop :=
  ∀ (s : State) (arg : BitVec 24) (c : Word),
    (s.stepsLeft ≠ 0 → exec (.init arg) s = .next { s with errBusy := true }) ∧
    (s.stepsLeft = 0 → exec (.init arg) s = .next
      { s with
        mfdlI := List.replicate 2048 0, mfdlQ := List.replicate 2048 0
        rsdlI := List.replicate 9 0, rsdlQ := List.replicate 9 0
        sampleCount := 0, drawCount := 0, carrierPower := 0, noisePower := 0
        outLastI := 0, outLastQ := 0, fifo := [] }) ∧
    (c.extractLsb' 24 8 = 0x01 → exec (decode ⟨true, 0x0008, c⟩) s = exec (.init arg) s)

/-- An idle, loaded block accepts STEP N: N = 0 changes nothing, otherwise STEPS_LEFT is N and DONE is cleared. -/
def Obligations.StepStartsWhenLoaded : Prop :=
  ∀ (s : State) (n : BitVec 24), s.stepsLeft = 0 → Loaded s →
    exec (.step n) s = .next (if n = 0 then s else { s with stepsLeft := n, done := false })

/-- STEP reaching an idle block that is not fully loaded flags ERR_COEF and changes nothing else, N = 0 included
(R152). -/
def Obligations.StepRefusedUnloaded : Prop :=
  ∀ (s : State) (n : BitVec 24), s.stepsLeft = 0 → ¬ Loaded s →
    exec (.step n) s = .next { s with errCoef := true }

/-- Two commands STEP a and STEP b, each run to its end, leave what STEP a+b leaves. The sample steps are taken whether
or not they are enabled, so on too few draws this speaks of the model's values for missing ones (log 2). -/
def Obligations.StepCommandsCompose : Prop :=
  ∀ (s : State) (a b : BitVec 24), s.stepsLeft = 0 → Loaded s → a ≠ 0 → b ≠ 0 → a.toNat + b.toNat < 2 ^ 24 →
    ∃ s₁ s₂ s₃, exec (.step a) s = .next s₁ ∧ exec (.step b) (sampleSteps a.toNat s₁) = .next s₂ ∧
      exec (.step (a + b)) s = .next s₃ ∧ sampleSteps b.toNat s₂ = sampleSteps (a.toNat + b.toNat) s₃

/-- A write to CMD executes the command that OPC selects, refused as busy where that command is (R150). -/
def Obligations.WriteToCmdRunsTheCommand : Prop :=
  ∀ (s : State) (c : Word),
    let opc := c.extractLsb' 24 8
    let arg := c.extractLsb' 0 24
    (opc = 0x00 → exec (.busWrite 0x0008 c) s = exec (.nop arg) s) ∧
    (opc = 0x01 → exec (.busWrite 0x0008 c) s = exec (.init arg) s) ∧
    (opc = 0x02 → exec (.busWrite 0x0008 c) s = exec (.step arg) s) ∧
    (opc = 0x03 → exec (.busWrite 0x0008 c) s = exec (.abort arg) s) ∧
    (4 ≤ opc.toNat → exec (.busWrite 0x0008 c) s = exec (.reserved opc arg) s)

/-- STEP's count is the low 24 bits of its word, a count of 0 has no effect, and the other commands ignore ARG
(R112). -/
def Obligations.CommandOperands : Prop :=
  ∀ (s : State) (c : Word) (a b : BitVec 24),
    (c.extractLsb' 24 8 = 0x02 → decode ⟨true, 0x0008, c⟩ = .step (c.extractLsb' 0 24)) ∧
    (c.extractLsb' 0 24).toNat = c.toNat % 2 ^ 24 ∧
    (s.stepsLeft = 0 → Loaded s → exec (.step 0) s = .next s) ∧
    exec (.nop a) s = exec (.nop b) s ∧ exec (.init a) s = exec (.init b) s ∧ exec (.abort a) s = exec (.abort b) s

/-! ### The bus -/

/-- A bad read returns 0 and flags ERR_ADDR, a bad write flags ERR_ADDR, and neither changes anything else; a read of
CMD and a write to STATUS are no bad accesses (R84). -/
def Obligations.BadAccessOnlyFlags : Prop :=
  ∀ (s : State) (addr : Addr) (data : Word),
    (BadAddress addr → exec (.busRead addr) s = .next { s with errAddr := true, readData := 0 }) ∧
    (BadAddress addr ∨ ReadOnly addr → exec (.busWrite addr data) s = .next { s with errAddr := true }) ∧
    exec (.busRead 0x0008) s = .next { s with readData := 0 } ∧
    ∃ t, exec (.busWrite 0x0004 data) s = .next t ∧ t.errAddr = (s.errAddr && !data.getLsbD 11)

/-- A read of a register without a side effect returns its fields and changes nothing. -/
def Obligations.RegisterReads : Prop :=
  ∀ s : State,
    exec (.busRead 0x0000) s = .next { s with readData := 0x4E595131 } ∧
    exec (.busRead 0x000C) s = .next { s with readData := s.irqEn } ∧
    exec (.busRead 0x0010) s = .next { s with readData := s.k.setWidth 32 } ∧
    exec (.busRead 0x0014) s = .next { s with readData := s.snrScale } ∧
    exec (.busRead 0x0018) s = .next { s with readData := s.delayIndex.setWidth 32 } ∧
    exec (.busRead 0x001C) s = .next { s with readData := s.stepsLeft.setWidth 32 } ∧
    exec (.busRead 0x0020) s = .next { s with readData := s.sampleCount } ∧
    exec (.busRead 0x0024) s = .next { s with readData := s.drawCount } ∧
    exec (.busRead 0x0028) s = .next { s with readData := BitVec.ofNat 32 s.fifo.length } ∧
    exec (.busRead 0x0030) s = .next { s with readData := s.outLastI } ∧
    exec (.busRead 0x0034) s = .next { s with readData := s.outLastQ } ∧
    exec (.busRead 0x0040) s = .next { s with readData := s.dcI.extractLsb' 0 32 } ∧
    exec (.busRead 0x0044) s = .next { s with readData := s.dcI.extractLsb' 32 32 } ∧
    exec (.busRead 0x0048) s = .next { s with readData := s.dcQ.extractLsb' 0 32 } ∧
    exec (.busRead 0x004C) s = .next { s with readData := s.dcQ.extractLsb' 32 32 } ∧
    exec (.busRead 0x0050) s = .next { s with readData := s.gainImb.extractLsb' 0 32 } ∧
    exec (.busRead 0x0054) s = .next { s with readData := s.gainImb.extractLsb' 32 32 } ∧
    exec (.busRead 0x0058) s = .next { s with readData := s.cosPhi.extractLsb' 0 32 } ∧
    exec (.busRead 0x005C) s = .next { s with readData := s.cosPhi.extractLsb' 32 32 } ∧
    exec (.busRead 0x0060) s = .next { s with readData := s.sinPhi.extractLsb' 0 32 } ∧
    exec (.busRead 0x0064) s = .next { s with readData := s.sinPhi.extractLsb' 32 32 } ∧
    exec (.busRead 0x0068) s = .next { s with readData := s.cosTheta.extractLsb' 0 32 } ∧
    exec (.busRead 0x006C) s = .next { s with readData := s.cosTheta.extractLsb' 32 32 } ∧
    exec (.busRead 0x0070) s = .next { s with readData := s.sinTheta.extractLsb' 0 32 } ∧
    exec (.busRead 0x0074) s = .next { s with readData := s.sinTheta.extractLsb' 32 32 }

/-- STATUS reads as its stored flags and the bits derived from the state at the time of the read (R147, R33, R35,
R36). -/
def Obligations.StatusReadsItsBits : Prop :=
  ∀ s : State, ∃ w : Word, exec (.busRead 0x0004) s = .next { s with readData := w } ∧
    (w.getLsbD 0 = true ↔ s.stepsLeft ≠ 0) ∧
    w.getLsbD 1 = s.done ∧
    (w.getLsbD 2 = true ↔ ∀ k < 2048, s.mem.written (0x2000 + 4 * k) = true) ∧
    (w.getLsbD 3 = true ↔ ∀ j < 1152, s.mem.written (0x4000 + 4 * j) = true) ∧
    (w.getLsbD 4 = true ↔ s.fifo.length ≠ 0) ∧
    w.getLsbD 5 = false ∧ w.getLsbD 6 = false ∧ w.getLsbD 7 = false ∧
    (∀ e : ErrFlag, w.getLsbD (errBitNumber e) = errBit s e) ∧
    ∀ i, 15 ≤ i → w.getLsbD i = false

/-- A read of OUT_FIFO removes and returns the oldest word, or returns 0 and flags ERR_FIFO (R46). -/
def Obligations.OutFifoReadPopsOrFlags : Prop :=
  ∀ (s : State) (w : Word) (rest : List Word),
    (s.fifo = [] → exec (.busRead 0x002C) s = .next { s with errFifo := true, readData := 0 }) ∧
    (s.fifo = w :: rest → exec (.busRead 0x002C) s = .next { s with fifo := rest, readData := w })

/-- A LO read of a read-only binary64 register returns the low half and captures the high half in its shadow, which the
HI read returns, even if a sample step comes between; INIT keeps the shadows and reset clears them (R51). -/
def Obligations.LoReadsCaptureTheHighHalf : Prop :=
  State.reset.shadowCp = 0 ∧ State.reset.shadowNp = 0 ∧ State.reset.shadowSnr = 0 ∧
  ∀ s : State,
    let cp := s.carrierPower
    let np := s.noisePower
    let snr := s.powerPattern .snrRatio
    exec (.busRead 0x0080) s = .next { s with shadowCp := cp.extractLsb' 32 32, readData := cp.extractLsb' 0 32 } ∧
    exec (.busRead 0x0088) s = .next { s with shadowNp := np.extractLsb' 32 32, readData := np.extractLsb' 0 32 } ∧
    exec (.busRead 0x0090) s = .next { s with shadowSnr := snr.extractLsb' 32 32, readData := snr.extractLsb' 0 32 } ∧
    exec (.busRead 0x0084) s = .next { s with readData := s.shadowCp } ∧
    exec (.busRead 0x008C) s = .next { s with readData := s.shadowNp } ∧
    exec (.busRead 0x0094) s = .next { s with readData := s.shadowSnr } ∧
    (∀ (arg : BitVec 24) (t : State), exec (.init arg) s = .next t →
      t.shadowCp = s.shadowCp ∧ t.shadowNp = s.shadowNp ∧ t.shadowSnr = s.shadowSnr) ∧
    (∀ t u, exec (.busRead 0x0080) s = .next t → exec (.busRead 0x0084) t.sampleStep = .next u →
      u.readData ++ t.readData = cp) ∧
    (∀ t u, exec (.busRead 0x0088) s = .next t → exec (.busRead 0x008C) t.sampleStep = .next u →
      u.readData ++ t.readData = np) ∧
    ∀ t u, exec (.busRead 0x0090) s = .next t → exec (.busRead 0x0094) t.sampleStep = .next u →
      u.readData ++ t.readData = snr

/-- SNR_RATIO is fdiv(fmul(CP, 64), fadd(NP, EPS64)) of the accumulators at the LO read. Where neither accumulator is
negative or NaN the denominator is not zero, and the ratio is finite for CP up to 2^53. The pattern read is compared as a
datum, so that the free pattern of a NaN (log 4) is left out of the claim. -/
def Obligations.SnrRatioIsComputedOnRead : Prop :=
  ∀ s : State,
    let r := fdiv (fmul (.ofBits s.carrierPower) (.ofBits 0x4050000000000000))
      (fadd (.ofBits s.noisePower) (.ofBits 0x3D719799812DEA11))
    (∃ t, exec (.busRead 0x0090) s = .next t ∧ F64.ofBits (t.shadowSnr ++ t.readData) = r) ∧
    (AccumulatorsNonNegative s → fadd (.ofBits s.noisePower) (.ofBits 0x3D719799812DEA11) ≠ .zero false ∧
      (s.carrierPower.toNat ≤ 0x4340000000000000 → r.isFinite = true))

/-- Every read but OUT_FIFO, the three LO words and the bad reads changes nothing and answers the same when repeated
(R88). -/
def Obligations.OtherReadsHaveNoSideEffect : Prop :=
  ∀ (s : State) (addr : Addr), ¬ BadAddress addr → addr.toNat ∉ [0x002C, 0x0080, 0x0088, 0x0090] →
    ∃ w, exec (.busRead addr) s = .next { s with readData := w } ∧
      exec (.busRead addr) { s with readData := w } = .next { s with readData := w }

/-- An idle block stores a coefficient word little-endian and makes its entry valid, changes no other byte and no other
valid bit, and a read of the entry returns the word; a busy block refuses the write. A byte never written reads as its
power-on content. -/
def Obligations.CoefficientWriteThenRead : Prop :=
  ∀ (s : State) (addr : Addr) (d : Word), CoefficientAddress addr →
    (s.stepsLeft ≠ 0 → exec (.busWrite addr d) s = .next { s with errBusy := true }) ∧
    exec (.busRead addr) s = .next { s with readData := s.coefWord addr.toNat } ∧
    (∀ a, s.mem.byte? a = none → s.coefByte a = Config.powerOnByte s.powerOns a) ∧
    (s.stepsLeft = 0 → ∃ t, exec (.busWrite addr d) s = .next t ∧ t = { s with mem := t.mem } ∧
      t.mem.written addr.toNat = true ∧
      (∀ i < 4, t.coefByte (addr.toNat + i) = d.extractLsb' (8 * i) 8) ∧
      (∀ a, a < addr.toNat ∨ addr.toNat + 4 ≤ a → t.coefByte a = s.coefByte a) ∧
      (∀ a, a % 4 = 0 → a ≠ addr.toNat → t.mem.written a = s.mem.written a) ∧
      exec (.busRead addr) t = .next { t with readData := d })

/-- Only an accepted coefficient write sets a valid bit or changes an entry, and only power-on reset clears valid bits:
over every step of the machine. -/
def Obligations.OnlyCoefficientWritesChangeEntries : Prop :=
  ∀ s t : State, step s = .next t →
    (NextPowerOn s → ∀ a, t.mem.written a = false) ∧
    (¬ NextPowerOn s → ∀ addr : Addr, CoefficientAddress addr →
      ((∃ d, NextWrite s addr d ∧ s.stepsLeft = 0) → t.mem.written addr.toNat = true) ∧
      ((¬ ∃ d, NextWrite s addr d ∧ s.stepsLeft = 0) →
        t.mem.written addr.toNat = s.mem.written addr.toNat ∧
        ∀ i < 4, t.coefByte (addr.toNat + i) = s.coefByte (addr.toNat + i)))

/-- K, SNR_SCALE and DELAY_INDEX take the field bits of the word when the block is idle and are refused when it is
busy. -/
def Obligations.IntegerConfigurationWrites : Prop :=
  ∀ (s : State) (d : Word),
    (s.stepsLeft = 0 →
      exec (.busWrite 0x0010 d) s = .next { s with k := d.extractLsb' 0 5 } ∧
      exec (.busWrite 0x0014 d) s = .next { s with snrScale := d } ∧
      exec (.busWrite 0x0018 d) s = .next { s with delayIndex := d.extractLsb' 0 7 }) ∧
    (s.stepsLeft ≠ 0 →
      exec (.busWrite 0x0010 d) s = .next { s with errBusy := true } ∧
      exec (.busWrite 0x0014 d) s = .next { s with errBusy := true } ∧
      exec (.busWrite 0x0018 d) s = .next { s with errBusy := true })

/-- A write to a word of a binary64 configuration register replaces that half of its pattern, whatever the bits, and
nothing else, when the block is idle. -/
def Obligations.PatternWritesReplaceOneHalf : Prop :=
  ∀ (s : State) (d : Word), s.stepsLeft = 0 →
    exec (.busWrite 0x0040 d) s = .next { s with dcI := s.dcI.extractLsb' 32 32 ++ d } ∧
    exec (.busWrite 0x0044 d) s = .next { s with dcI := d ++ s.dcI.extractLsb' 0 32 } ∧
    exec (.busWrite 0x0048 d) s = .next { s with dcQ := s.dcQ.extractLsb' 32 32 ++ d } ∧
    exec (.busWrite 0x004C d) s = .next { s with dcQ := d ++ s.dcQ.extractLsb' 0 32 } ∧
    exec (.busWrite 0x0050 d) s = .next { s with gainImb := s.gainImb.extractLsb' 32 32 ++ d } ∧
    exec (.busWrite 0x0054 d) s = .next { s with gainImb := d ++ s.gainImb.extractLsb' 0 32 } ∧
    exec (.busWrite 0x0058 d) s = .next { s with cosPhi := s.cosPhi.extractLsb' 32 32 ++ d } ∧
    exec (.busWrite 0x005C d) s = .next { s with cosPhi := d ++ s.cosPhi.extractLsb' 0 32 } ∧
    exec (.busWrite 0x0060 d) s = .next { s with sinPhi := s.sinPhi.extractLsb' 32 32 ++ d } ∧
    exec (.busWrite 0x0064 d) s = .next { s with sinPhi := d ++ s.sinPhi.extractLsb' 0 32 } ∧
    exec (.busWrite 0x0068 d) s = .next { s with cosTheta := s.cosTheta.extractLsb' 32 32 ++ d } ∧
    exec (.busWrite 0x006C d) s = .next { s with cosTheta := d ++ s.cosTheta.extractLsb' 0 32 } ∧
    exec (.busWrite 0x0070 d) s = .next { s with sinTheta := s.sinTheta.extractLsb' 32 32 ++ d } ∧
    exec (.busWrite 0x0074 d) s = .next { s with sinTheta := d ++ s.sinTheta.extractLsb' 0 32 }

/-- A write to STATUS clears exactly the W1C bits written 1, at any BUSY (R146). -/
def Obligations.StatusWriteClearsFlags : Prop :=
  ∀ (s : State) (d : Word), exec (.busWrite 0x0004 d) s = .next
    { s with
      done := if d.getLsbD 1 then false else s.done
      errCmd := if d.getLsbD 8 then false else s.errCmd
      errBusy := if d.getLsbD 9 then false else s.errBusy
      errCoef := if d.getLsbD 10 then false else s.errCoef
      errAddr := if d.getLsbD 11 then false else s.errAddr
      errFifo := if d.getLsbD 12 then false else s.errFifo
      errOvf := if d.getLsbD 13 then false else s.errOvf
      errSat := if d.getLsbD 14 then false else s.errSat }

/-- IRQ_EN keeps its nine bits, is written at any BUSY and is 0 after reset; IRQ is the OR of the enabled sources and is
deasserted after reset (R37, R340). -/
def Obligations.InterruptOutputAndEnable : Prop :=
  State.reset.irqEn = 0 ∧ State.reset.irq = false ∧
  ∀ (s : State) (d : Word),
    exec (.busWrite 0x000C d) s = .next { s with irqEn := d &&& 0x00007F12 } ∧
    exec (.busRead 0x000C) s = .next { s with readData := s.irqEn } ∧
    (s.irq = true ↔
      (s.done = true ∧ s.irqEn.getLsbD 1 = true) ∨ (s.fifo ≠ [] ∧ s.irqEn.getLsbD 4 = true) ∨
      ∃ e : ErrFlag, errBit s e = true ∧ s.irqEn.getLsbD (errBitNumber e) = true)

/-- While BUSY = 1 a write to a coefficient, a configuration register, or of INIT or STEP only flags ERR_BUSY; no other
write is ever refused as busy (R145, R86). -/
def Obligations.BusyRefusesExactlyTheLockedWrites : Prop :=
  ∀ (s : State) (addr : Addr) (data : Word) (arg : BitVec 24),
    (s.stepsLeft ≠ 0 → BusyTarget addr data → exec (.busWrite addr data) s = .next { s with errBusy := true }) ∧
    (s.stepsLeft ≠ 0 → exec (.init arg) s = .next { s with errBusy := true } ∧
      exec (.step arg) s = .next { s with errBusy := true }) ∧
    (s.errBusy = false → ¬ (s.stepsLeft ≠ 0 ∧ BusyTarget addr data) →
      ∃ t, exec (.busWrite addr data) s = .next t ∧ t.errBusy = false)

/-- One transaction or command raises at most one error flag. -/
def Obligations.AtMostOneFlagPerTransaction : Prop :=
  ∀ (i : Instr) (s : State), ∃ t, exec i s = .next t ∧
    ∃ e : ErrFlag, ∀ e', e' ≠ e → errBit t e' = true → errBit s e' = true

/-- An error flag that is set stays set over every step, but for a STATUS write of 1 to its bit and power-on reset. -/
def Obligations.ErrorFlagsAreSticky : Prop :=
  ∀ (s t : State) (e : ErrFlag), step s = .next t → errBit s e = true →
    errBit t e = true ∨ (∃ d, NextWrite s 0x0004 d ∧ d.getLsbD (errBitNumber e) = true) ∨ NextPowerOn s

/-- Over every step of the machine, DONE is set exactly by the last sample of a command and by an ABORT of a running
one, and cleared exactly by an accepted STEP with a nonzero count, a STATUS write of 1 to bit 1, and power-on reset
(R34). -/
def Obligations.DoneChangesOnlyAsStated : Prop :=
  ∀ s t : State, step s = .next t →
    (s.done = false → (t.done = true ↔
      (NextEngine s ∧ s.sampleEnabled = true ∧ s.stepsLeft = 1) ∨
      (∃ c, NextWrite s 0x0008 c ∧ c.extractLsb' 24 8 = 0x03 ∧ s.stepsLeft ≠ 0))) ∧
    (s.done = true → (t.done = false ↔
      (∃ c, NextWrite s 0x0008 c ∧ c.extractLsb' 24 8 = 0x02 ∧ s.stepsLeft = 0 ∧ Loaded s ∧
        c.extractLsb' 0 24 ≠ 0) ∨
      (∃ d, NextWrite s 0x0004 d ∧ d.getLsbD 1 = true) ∨ NextPowerOn s))

/-- While a command is in progress no step but power-on reset changes a coefficient or a configuration register. -/
def Obligations.ConfigurationIsFixedWhileBusy : Prop :=
  ∀ s t : State, step s = .next t → s.stepsLeft ≠ 0 → ¬ NextPowerOn s →
    t.mem = s.mem ∧ t.powerOns = s.powerOns ∧ t.k = s.k ∧ t.snrScale = s.snrScale ∧ t.delayIndex = s.delayIndex ∧
    t.dcI = s.dcI ∧ t.dcQ = s.dcQ ∧ t.gainImb = s.gainImb ∧ t.cosPhi = s.cosPhi ∧ t.sinPhi = s.sinPhi ∧
    t.cosTheta = s.cosTheta ∧ t.sinTheta = s.sinTheta

/-- The delay lines cannot be read over the bus: two states that differ in them alone answer every read alike and
differ in them alone afterwards. -/
def Obligations.DelayLinesAreNotReadable : Prop :=
  ∀ (s : State) (addr : Addr) (mi mq : List (BitVec 8)) (ri rq : List Word), ∃ t,
    exec (.busRead addr) s = .next t ∧
    exec (.busRead addr) { s with mfdlI := mi, mfdlQ := mq, rsdlI := ri, rsdlQ := rq } =
      .next { t with mfdlI := mi, mfdlQ := mq, rsdlI := ri, rsdlQ := rq }

/-! ### The engine -/

/-- At its turn the engine performs one sample step if a command is in progress, two FIFO entries are free and the
draws are there; otherwise it holds and changes nothing. Draws that the random source supplies queue behind those already
at the port, in their order, and nothing else changes. The inputs list and an idle machine's turn are the model's (log 1),
and so is the list of presented draws (log 2). -/
def Obligations.EngineTurnPerformsOrHolds : Prop :=
  ∀ (s : State) (rest : List Event),
    let enabled := s.stepsLeft ≠ 0 ∧ s.fifo.length + 2 ≤ 32 ∧
      (if s.sampleCount.toNat % 256 = 0 then 22 else 20) ≤ s.draws.length
    (s.inputs = .engine :: rest → enabled → step s = .next { s with inputs := rest }.sampleStep) ∧
    (s.inputs = .engine :: rest → ¬ enabled → step s = .next { s with inputs := rest }) ∧
    (s.inputs = [] → enabled → step s = .next s.sampleStep) ∧
    (s.inputs = [] → ¬ enabled → step s = .next s) ∧
    ∀ ds : List Draw, s.inputs = .supply ds :: rest → step s = .next { s with inputs := rest, draws := s.draws ++ ds }

/-- With the FIFO nearly full and a host that does nothing, the engine holds for ever. -/
def Obligations.FullFifoHoldsTheEngine : Prop :=
  ∀ (s : State) (n : Nat), s.inputs = [] → 31 ≤ s.fifo.length →
    Host.Core.run Sys2Proof.core n s = .next s

/-- An accepted STEP N with room for its output and its draws at the port runs to its end in N steps, with nothing else
pending: N samples, 2·N words, STEPS_LEFT 0 and DONE. -/
def Obligations.StepCommandRunsToItsEnd : Prop :=
  ∀ (s : State) (n : BitVec 24), s.stepsLeft = 0 → Loaded s → n ≠ 0 → s.inputs = [] →
    s.fifo.length + 2 * n.toNat ≤ 32 → 22 * n.toNat ≤ s.draws.length →
    ∃ s₁ t : State, exec (.step n) s = .next s₁ ∧ Host.Core.run Sys2Proof.core n.toNat s₁ = .next t ∧
      t = sampleSteps n.toNat s₁ ∧ t.stepsLeft = 0 ∧ t.done = true ∧
      t.sampleCount = s.sampleCount + BitVec.ofNat 32 n.toNat ∧ t.fifo.length = s.fifo.length + 2 * n.toNat

/-- The sample step in full: the sequence of R314, and nothing else changes. Two things in it are the model's choice: a
NaN in an accumulator takes the free pattern of log 4, and on too few draws, where R313 enables no sample step, the
missing draws are as log 2 says. -/
def Obligations.SampleStepFollowsTheSequence : Prop :=
  ∀ s : State,
    let n := s.sampleCount
    let taken := if n.toNat % 256 = 0 then 2 else 0
    let sI := if n.toNat % 256 = 0 then sym (s.draws.getD 0 0) else 0
    let sQ := if n.toNat % 256 = 0 then sym (s.draws.getD 1 0) else 0
    let cp := if n.toNat % 256 = 0
      then s.patternAt .carrierPower (fadd (.ofBits s.carrierPower) (i2f (sI.toInt * sI.toInt + sQ.toInt * sQ.toInt)))
      else s.carrierPower
    let mI := fir s.mfCoefs s.mfdlI sI
    let mQ := fir s.mfCoefs s.mfdlQ sQ
    let xI := fmul (i2f mI.y.toInt) (twoPow (-(s.k.toNat : Int)))
    let xQ := fmul (i2f mQ.y.toInt) (twoPow (-(s.k.toNat : Int)))
    let rI := fsub (fmul xI (.ofBits s.cosPhi)) (fmul xQ (.ofBits s.sinPhi))
    let rQ := fadd (fmul xI (.ofBits s.sinPhi)) (fmul xQ (.ofBits s.cosPhi))
    let nI := fmul (i2f s.snrScale.toInt) (noise ((s.draws.drop taken).take 10))
    let nQ := fmul (i2f s.snrScale.toInt) (noise ((s.draws.drop (taken + 10)).take 10))
    let vI := fadd rI nI
    let vQ := fadd rQ nQ
    let np := s.patternAt .noisePower (fadd (.ofBits s.noisePower) (fadd (fmul nI nI) (fmul nQ nQ)))
    let wI := fadd vI (.ofBits s.dcI)
    let wQ := fadd vQ (.ofBits s.dcQ)
    let pI := fadd (fmul wI (.ofBits s.cosTheta)) (fmul wQ (.ofBits s.sinTheta))
    let pQ := fadd (fmul wI (.ofBits s.sinTheta)) (fmul wQ (.ofBits s.cosTheta))
    let gI := fmul pI (fadd (.ofBits 0x3FF0000000000000) (.ofBits s.gainImb))
    let gQ := fmul pQ (fsub (.ofBits 0x3FF0000000000000) (.ofBits s.gainImb))
    let tI := f2i gI
    let tQ := f2i gQ
    let bI := fir s.rsBank s.rsdlI tI.value
    let bQ := fir s.rsBank s.rsdlQ tQ.value
    let yI := BitVec.ofInt 32 (truncDiv bI.y.toInt 2048)
    let yQ := BitVec.ofInt 32 (truncDiv bQ.y.toInt 2048)
    s.sampleStep =
      { s with
        carrierPower := cp, noisePower := np
        mfdlI := mI.dl, mfdlQ := mQ.dl, rsdlI := bI.dl, rsdlQ := bQ.dl
        outLastI := yI, outLastQ := yQ
        fifo := s.fifo ++ [BitVec.ofInt 32 (16 * yI.toInt), BitVec.ofInt 32 (16 * yQ.toInt)]
        errSat := s.errSat || (tI.sat || tQ.sat)
        errOvf := s.errOvf || (mI.ovf || mQ.ovf || bI.ovf || bQ.ovf)
        draws := s.draws.drop (taken + 20), drawCount := s.drawCount + BitVec.ofNat 32 (taken + 20)
        sampleCount := BitVec.ofNat 32 (n.toNat + 1)
        stepsLeft := s.stepsLeft - 1
        done := if s.stepsLeft - 1 = 0 then true else s.done }

/-- Every sample step counts STEPS_LEFT down by one; at 0 it sets DONE, BUSY reads 0 and no further sample step is
enabled until the next accepted STEP command, over every step of the machine (R311). -/
def Obligations.SampleStepCountsDown : Prop :=
  ∀ s : State,
    s.sampleStep.stepsLeft = s.stepsLeft - 1 ∧
    (s.stepsLeft - 1 = 0 → s.sampleStep.done = true ∧ s.sampleStep.statusWord.getLsbD 0 = false ∧
      s.sampleStep.sampleEnabled = false) ∧
    (s.stepsLeft - 1 ≠ 0 → s.sampleStep.done = s.done) ∧
    ∀ t : State, step s = .next t → s.stepsLeft = 0 → s.sampleEnabled = false ∧
      (t.stepsLeft ≠ 0 → ∃ c, NextWrite s 0x0008 c ∧ c.extractLsb' 24 8 = 0x02 ∧ Loaded s ∧
        t.stepsLeft = c.extractLsb' 0 24)

/-- A sample step takes 22 draws at a decision instant and 20 otherwise, in the order symbol I, symbol Q, ten for noise
I, ten for noise Q; after m samples from INIT, DRAW_COUNT is 20·m + 2·⌈m/256⌉ modulo 2^32 (R312). That the count grows
the same on a sample whose draws are missing, which the machine never takes, is the model's choice (log 2). -/
def Obligations.DrawsPerSample : Prop :=
  ∀ s : State,
    (s.sampleCount.toNat % 256 = 0 → ∀ (dI dQ : Draw) (nI nQ later : List Draw), nI.length = 10 → nQ.length = 10 →
      s.draws = dI :: dQ :: (nI ++ nQ ++ later) →
      s.sampleValues.sym = ⟨sym dI, sym dQ⟩ ∧
      s.sampleValues.noise = ⟨fmul (i2f s.snrScale.toInt) (noise nI), fmul (i2f s.snrScale.toInt) (noise nQ)⟩ ∧
      s.sampleStep.draws = later ∧ s.sampleStep.drawCount = s.drawCount + 22) ∧
    (s.sampleCount.toNat % 256 ≠ 0 → ∀ (nI nQ later : List Draw), nI.length = 10 → nQ.length = 10 →
      s.draws = nI ++ nQ ++ later →
      s.sampleValues.sym = ⟨0, 0⟩ ∧
      s.sampleValues.noise = ⟨fmul (i2f s.snrScale.toInt) (noise nI), fmul (i2f s.snrScale.toInt) (noise nQ)⟩ ∧
      s.sampleStep.draws = later ∧ s.sampleStep.drawCount = s.drawCount + 20) ∧
    ∀ (t : State) (arg : BitVec 24) (m : Nat), s.stepsLeft = 0 → exec (.init arg) s = .next t →
      (sampleSteps m t).drawCount = BitVec.ofNat 32 (20 * m + 2 * ((m + 255) / 256))

/-- A draw below half of the range is the symbol +64, any other −64 (R202). -/
def Obligations.SymbolThreshold : Prop :=
  ∀ d : Draw, (d.toNat < 2 ^ 30 → (sym d).toInt = 64) ∧ (2 ^ 30 ≤ d.toNat → (sym d).toInt = -64)

/-! ### The filters -/

/-- One FIR call: the output is the exact sum of coefficient k times position k wrapped to 32 bits, the overflow
indication is that of the exact sum, and the input is inserted at position 0 after the output is computed (R180,
R183). -/
def Obligations.FirOutputIsTheWrappedSum : Prop :=
  ∀ (w : Nat) (c : List Word) (dl : List (BitVec w)) (x : BitVec w), c.length = dl.length →
    let exact : Int := ∑ k ∈ Finset.range c.length, (c.getD k 0).toInt * (dl.getD k 0).toInt
    (fir c dl x).y.toInt = Int.bmod exact (2 ^ 32) ∧
    ((fir c dl x).ovf = true ↔ exact < -2 ^ 31 ∨ 2 ^ 31 - 1 < exact) ∧
    (fir c dl x).dl.length = dl.length ∧
    (0 < dl.length → (fir c dl x).dl.getD 0 0 = x) ∧
    ∀ k, 0 < k → k < dl.length → (fir c dl x).dl.getD k 0 = dl.getD (k - 1) 0

/-- From an empty history, the output of call m is the wrapped sum of coefficient k times the input of call m − 1 − k:
it depends on earlier inputs only, and a coefficient 1 at position p alone gives the input p + 1 calls later (R182). -/
def Obligations.FirDependsOnEarlierInputsOnly : Prop :=
  (∀ (w : Nat) (c : List Word) (xs : List (BitVec w)) (m : Nat), m < xs.length →
    (firOutputs c (List.replicate c.length 0) xs).getD m 0 =
      wrap32 (∑ k ∈ Finset.range c.length, if k < m then (c.getD k 0).toInt * (xs.getD (m - 1 - k) 0).toInt else 0)) ∧
  ∀ (taps p m : Nat) (xs : List Word), p < taps → m < xs.length →
    (firOutputs ((List.range taps).map fun k => if k = p then 1 else 0) (List.replicate taps 0) xs).getD m 0 =
      if p < m then xs.getD (m - p - 1) 0 else 0

/-- A circular buffer with a front pointer gives the same sum and the same delay line as the shifted one, in every case
(R181). -/
def Obligations.RingBufferComputesTheSame : Prop :=
  ∀ (w : Nat) (c : List Word) (r : RingDelayLine w) (x : BitVec w), c.length = r.buf.length → r.front < r.buf.length →
    (∀ k < r.buf.length, r.view.getD k 0 = r.buf.getD ((r.front + k) % r.buf.length) 0) ∧
    firSum c r.view = ∑ k ∈ Finset.range c.length, (c.getD k 0).toInt * (r.view.getD k 0).toInt ∧
    r.sum c = firSum c r.view ∧
    (r.insert x).view = (fir c r.view x).dl ∧
    (r.insert x).front < (r.insert x).buf.length ∧ (r.insert x).buf.length = r.buf.length

/-- At most 8 entries of a matched-filter delay line are nonzero, and its sum is at most 2^40 in magnitude, for
coefficients of any value. -/
def Obligations.MatchedSumIsBounded : Prop :=
  ∀ s : State, Inv s → SymbolCadence s →
    (s.mfdlI.filter (· ≠ 0)).length ≤ 8 ∧ (s.mfdlQ.filter (· ≠ 0)).length ≤ 8 ∧
    |firSum s.mfCoefs s.mfdlI| ≤ 2 ^ 40 ∧ |firSum s.mfCoefs s.mfdlQ| ≤ 2 ^ 40

/-- The matched filter's coefficients are the 2048 entries of MF, and the resampler's are RS[9·B .. 9·B+8] for B =
DELAY_INDEX, which never leave RS (R270). -/
def Obligations.FilterCoefficients : Prop :=
  ∀ s : State,
    s.mfCoefs.length = 2048 ∧ (∀ k < 2048, s.mfCoefs.getD k 0 = s.coefWord (0x2000 + 4 * k)) ∧
    s.rsBank.length = 9 ∧
    (∀ t < 9, s.rsBank.getD t 0 = s.coefWord (0x4000 + 4 * (9 * s.delayIndex.toNat + t))) ∧
    9 * s.delayIndex.toNat + 8 ≤ 1151

/-- Quantisation divides by 2048 toward zero, as a binary64 division and truncation would, and the sample step stores the quotients in OUT_LAST and pushes 16 times
each, I first (R277, R278). -/
def Obligations.QuantisedOutput : Prop :=
  (∀ b : Word, (quantise b).toInt = Int.tdiv b.toInt 2048 ∧ -2 ^ 20 ≤ (quantise b).toInt ∧
    (quantise b).toInt ≤ 2 ^ 20 - 1 ∧ (f2i (fdiv (i2f b.toInt) (i2f 2048))).value = quantise b ∧
    (outputWord (quantise b)).toInt = 16 * (quantise b).toInt) ∧
  ∀ s : State,
    let b := s.sampleValues.resampled
    s.sampleStep.outLastI = quantise b.i.y ∧ s.sampleStep.outLastQ = quantise b.q.y ∧
    s.sampleStep.fifo = s.fifo ++ [outputWord (quantise b.i.y), outputWord (quantise b.q.y)]

/-! ### Binary64 and the datapath -/

/-- Rounding gives the nearest binary64 value, ties to even, of every nonzero (−1)^neg · m · 2^e. That a value beyond
the greatest finite number becomes an infinity is log 11 (PRESUMED). -/
def Obligations.RoundIsNearestTiesToEven : Prop :=
  ∀ (neg : Bool) (m : Nat) (e : Int), m ≠ 0 →
    IsRN ((if neg then -1 else 1) * (m : ℚ) * (2 : ℚ) ^ e) (F64.round neg m e)

/-- The sum, difference, product and quotient of finite numbers are the exact results rounded once, and a zero result has
its IEEE sign: −0.0 for a sum of two negative operands, for a difference of a negative and a non-negative one, and for a
product or quotient of operands of opposite sign. Division by zero, infinities and NaN follow the IEEE rules. The signs
of zeros, the overflow to an infinity and the non-finite results are those of log 11 (PRESUMED). -/
def Obligations.ArithmeticRoundsTheExactResult : Prop :=
  (∀ (na nb : Bool) (ma mb : Nat) (ea eb : Int),
    let a := F64.fin na ma ea
    let b := F64.fin nb mb eb
    a.canonical = true → b.canonical = true →
      (if a.value + b.value = 0 then fadd a b = .zero (na && nb) else IsRN (a.value + b.value) (fadd a b)) ∧
      (if a.value - b.value = 0 then fsub a b = .zero (na && !nb) else IsRN (a.value - b.value) (fsub a b)) ∧
      (if a.value * b.value = 0 then fmul a b = .zero (na != nb) else IsRN (a.value * b.value) (fmul a b)) ∧
      (if b.value = 0 then fdiv a b = (if a.value = 0 then .nan else .inf (na != nb))
        else if a.value = 0 then fdiv a b = .zero (na != nb) else IsRN (a.value / b.value) (fdiv a b))) ∧
  (∀ (n : Bool) (nb : Bool) (mb : Nat) (eb : Int),
    let b := F64.fin nb mb eb
    fadd (.inf n) b = .inf n ∧ fadd b (.inf n) = .inf n ∧ fsub (.inf n) b = .inf n ∧ fsub b (.inf n) = .inf (!n) ∧
    fmul (.inf n) b = (if b.value = 0 then .nan else .inf (n != nb)) ∧
    fmul b (.inf n) = (if b.value = 0 then .nan else .inf (nb != n)) ∧
    fdiv (.inf n) b = .inf (n != nb) ∧ fdiv b (.inf n) = .zero (nb != n)) ∧
  (∀ n n' : Bool,
    fadd (.inf n) (.inf n') = (if n = n' then .inf n else .nan) ∧
    fsub (.inf n) (.inf n') = (if n = n' then .nan else .inf n) ∧
    fmul (.inf n) (.inf n') = .inf (n != n') ∧ fdiv (.inf n) (.inf n') = .nan) ∧
  ∀ v : F64,
    fadd .nan v = .nan ∧ fadd v .nan = .nan ∧ fsub .nan v = .nan ∧ fsub v .nan = .nan ∧
    fmul .nan v = .nan ∧ fmul v .nan = .nan ∧ fdiv .nan v = .nan ∧ fdiv v .nan = .nan

/-- A pattern that is no NaN is the pattern of its datum, and a canonical datum is the datum of its pattern, whatever
the free value (log 4). -/
def Obligations.PatternsRoundTrip : Prop :=
  (∀ (p : Pattern) (free : BitVec 52), F64.ofBits p ≠ .nan → (F64.ofBits p).toBits free = p) ∧
  ∀ (v : F64) (free : BitVec 52), v.canonical = true → F64.ofBits (v.toBits free) = v

/-- The sum of up to ten centred draws is exact, whatever their order, and the noise value is that sum times NOISE_K,
rounded once; a zero sum is +0.0 (R222). -/
def Obligations.NoiseSumIsExact : Prop :=
  ∀ ds : List Draw, ds.length ≤ 10 →
    let d : Int := (ds.map fun x => (x.toNat : Int)).sum - ds.length * 2 ^ 30
    centredSum ds = F64.round (decide (d < 0)) d.natAbs (-31) ∧
    (centredSum ds).value = (d : ℚ) / 2 ^ 31 ∧ -5 ≤ (centredSum ds).value ∧
    (ds.length = 10 → (centredSum ds).value ≤ 5 - 10 / 2 ^ 31 ∧
      noise ds = fmul (F64.round (decide (d < 0)) d.natAbs (-31)) (.ofBits 0x3FF186F174F88472) ∧
      (d = 0 → noise ds = .zero false))

/-- Normalisation is exact: aI / 2^K, the same as the binary64 division, and +0.0 for 0 (R240). -/
def Obligations.NormalisationIsExact : Prop :=
  ∀ (k : BitVec 5) (a : Word),
    (normalise k a).isFinite = true ∧ (normalise k a).value = (a.toInt : ℚ) / 2 ^ k.toNat ∧
    normalise k a = fmul (i2f a.toInt) (twoPow (-(k.toNat : Int))) ∧
    normalise k a = fdiv (i2f a.toInt) (i2f (2 ^ k.toNat)) ∧
    (a = 0 → normalise k a = .zero false)

/-- With neutral parameters the impairment model is the identity, bit for bit, on every matched-filter pair and whatever
the draws, which are consumed all the same (R251). That DRAW_COUNT grows the same on a state whose draws are missing,
where the machine takes no sample, is the model's choice (log 2). -/
def Obligations.NeutralParametersGiveTheIdentity : Prop :=
  ∀ s : State, Neutral s →
    (∀ a : IQ Word, impair s (a.map (normalise s.k)) s.nextNoise = a.map (normalise s.k)) ∧
    s.sampleValues.truncated = s.sampleValues.matched.map (fun r => f2i (normalise s.k r.y)) ∧
    s.sampleStep.drawCount = s.drawCount + (if s.sampleCount.toNat % 256 = 0 then 22 else 20)

/-- F2I truncates toward zero, saturates outside the signed 32-bit range and gives 0 for NaN; ERR_SAT is flagged exactly
when a channel saturates or is NaN (R250). -/
def Obligations.TruncationSaturates : Prop :=
  f2i .nan = ⟨0, true⟩ ∧ f2i (.inf false) = ⟨0x7FFFFFFF, true⟩ ∧ f2i (.inf true) = ⟨0x80000000, true⟩ ∧
  (∀ (neg : Bool) (m : Nat) (e : Int),
    let v := (F64.fin neg m e).value
    let t : Int := if 0 ≤ v then ⌊v⌋ else ⌈v⌉
    (2147483647 < t → f2i (.fin neg m e) = ⟨0x7FFFFFFF, true⟩) ∧
    (t < -2147483648 → f2i (.fin neg m e) = ⟨0x80000000, true⟩) ∧
    (-2147483648 ≤ t → t ≤ 2147483647 →
      (f2i (.fin neg m e)).sat = false ∧ (f2i (.fin neg m e)).value.toInt = t)) ∧
  ∀ s : State,
    let g := s.sampleValues.impaired
    s.sampleValues.truncated = ⟨f2i g.i, f2i g.q⟩ ∧
    s.sampleStep.errSat = (s.errSat || (f2i g.i).sat || (f2i g.q).sat)

/-- CARRIER_POWER grows by 8192 at a decision instant and is untouched at any other sample; after m samples from INIT
it is exactly 8192 times the number of decision instants, while that number is below 2^40 (R290). The register is
compared as a datum, so that the free pattern of a NaN (log 4) is left out of the claim. -/
def Obligations.CarrierPowerCountsDecisions : Prop :=
  ∀ s : State,
    let p := s.sampleValues.sym
    (s.sampleCount.toNat % 256 = 0 → p.i.toInt * p.i.toInt + p.q.toInt * p.q.toInt = 8192 ∧
      F64.ofBits s.sampleStep.carrierPower =
        fadd (.ofBits s.carrierPower) (i2f (p.i.toInt * p.i.toInt + p.q.toInt * p.q.toInt))) ∧
    (s.sampleCount.toNat % 256 ≠ 0 → s.sampleStep.carrierPower = s.carrierPower) ∧
    ∀ (t : State) (arg : BitVec 24) (m : Nat), s.stepsLeft = 0 → exec (.init arg) s = .next t →
      (m + 255) / 256 < 2 ^ 40 →
      (F64.ofBits (sampleSteps m t).carrierPower).isFinite = true ∧
      (F64.ofBits (sampleSteps m t).carrierPower).value = 8192 * (((m + 255) / 256 : Nat) : ℚ)

/-- Every sample adds nI·nI + nQ·nQ, summed first, to NOISE_POWER. The unscaled noise is finite, and with SNR_SCALE = 0
the scaled noise is a zero of its sign and NOISE_POWER stays +0.0 (R291). The register is compared as a datum, so that
the free pattern of a NaN (log 4) is left out of the claim. -/
def Obligations.NoisePowerUpdate : Prop :=
  ∀ s : State,
    let u := noisePair (s.draws.drop (if s.sampleCount.toNat % 256 = 0 then 2 else 0))
    let n := s.sampleValues.noise
    let sum := fadd (.ofBits s.noisePower) (fadd (fmul n.i n.i) (fmul n.q n.q))
    F64.ofBits s.sampleStep.noisePower = sum ∧
    u.i.isFinite = true ∧ u.q.isFinite = true ∧
    (s.snrScale = 0 → ∀ (neg : Bool) (m : Nat) (e : Int),
      (u.i = .fin neg m e → n.i = .zero neg) ∧ (u.q = .fin neg m e → n.q = .zero neg)) ∧
    (s.snrScale = 0 → s.noisePower = 0 → ∀ m, (sampleSteps m s).noisePower = 0)

/-- Neither accumulator is ever negative or NaN, over every step of the machine, and no sample step decreases one. -/
def Obligations.AccumulatorsNeverDecrease : Prop :=
  (∀ s t : State, step s = .next t → AccumulatorsNonNegative s → AccumulatorsNonNegative t) ∧
  ∀ s : State, AccumulatorsNonNegative s →
    s.carrierPower.toNat ≤ s.sampleStep.carrierPower.toNat ∧ s.noisePower.toNat ≤ s.sampleStep.noisePower.toNat

/-! ### Invariants, reset, the step and the encoding -/

/-- Every step keeps the memory canonical, the sizes, the symbols, the reserved bits and the coefficients of a running
command loaded. -/
def Obligations.StepKeepsTheInvariant : Prop := ∀ s t : State, step s = .next t → Inv s → Inv t

/-- Every step keeps the 256-sample cadence of the symbols in the delay lines, across the wrap of SAMPLE_COUNT too. -/
def Obligations.StepKeepsTheSymbolCadence : Prop :=
  ∀ s t : State, step s = .next t → SymbolCadence s → SymbolCadence t

/-- The state after reset has every invariant. -/
def Obligations.ResetMeetsTheInvariants : Prop :=
  Inv State.reset ∧ SymbolCadence State.reset ∧ AccumulatorsNonNegative State.reset

/-- Power-on reset leaves every item of state at the value of R61, from any state; the coefficients have no value of the
block's choosing and no valid bit. -/
def Obligations.PowerOnResetValues : Prop :=
  ∀ (s t : State), (t = State.reset ∨ ∃ rest, s.inputs = .powerOn :: rest ∧ step s = .next t) →
    exec (.busRead 0x0000) t = .next { t with readData := 0x4E595131 } ∧
    t.done = false ∧ (∀ e, errBit t e = false) ∧ t.irqEn = 0 ∧ t.k = 12 ∧ t.snrScale = 0 ∧ t.delayIndex = 0 ∧
    t.stepsLeft = 0 ∧ t.sampleCount = 0 ∧ t.drawCount = 0 ∧ t.outLastI = 0 ∧ t.outLastQ = 0 ∧
    t.dcI = 0 ∧ t.dcQ = 0 ∧ t.gainImb = 0 ∧ t.sinPhi = 0 ∧ t.sinTheta = 0 ∧
    t.cosPhi = 0x3FF0000000000000 ∧ t.cosTheta = 0x3FF0000000000000 ∧
    t.carrierPower = 0 ∧ t.noisePower = 0 ∧ t.shadowCp = 0 ∧ t.shadowNp = 0 ∧ t.shadowSnr = 0 ∧
    (∀ a, t.mem.byte? a = none ∧ t.mem.written a = false) ∧
    t.mfdlI = List.replicate 2048 0 ∧ t.mfdlQ = List.replicate 2048 0 ∧
    t.rsdlI = List.replicate 9 0 ∧ t.rsdlQ = List.replicate 9 0 ∧ t.fifo = [] ∧ t.irq = false

/-- Every step of the machine has a next state, and so has every instruction: no error stops it. -/
def Obligations.NothingStopsTheMachine : Prop :=
  (∀ s : State, AnswersNext (step s)) ∧ ∀ (i : Instr) (s : State), AnswersNext (exec i s)

/-- A step runs the instruction that the transaction at the head of the inputs decodes to, on the state without that
transaction; and a command word that the host places is the one the next step runs. The inputs list is the model's (log
1). -/
def Obligations.StepRunsTheDecodedInstruction : Prop :=
  (∀ (s : State) (b : BusCycle) (rest : List Event), s.inputs = .host b :: rest →
    step s = exec (decode b) { s with inputs := rest }) ∧
  ∀ (s : State) (c : Word), step (s.withFetchWord 32 c.toNat) = exec (decode ⟨true, 0x0008, c⟩) s

/-- Decoding the encoding of a well-formed instruction gives it back, with every operand. -/
def Obligations.DecodeInvertsEncode : Prop := ∀ i : Instr, i.wellFormed = true → decode (encode i) = i

/-- Encoding what a transaction decodes to gives the transaction back, and it is well-formed; the data lines of a read,
which carry nothing, are taken as 0. -/
def Obligations.EncodeInvertsDecode : Prop :=
  ∀ b : BusCycle, (decode b).wellFormed = true ∧
    encode (decode b) = if b.write then b else { b with data := 0 }

/-- Words written out from the command map decode to their commands. -/
def Obligations.CommandWordsDecode : Prop :=
  decodeTableWord 32 0x00ABCDEF = some (.nop 0xABCDEF) ∧
  decodeTableWord 32 0x01000000 = some (.init 0) ∧
  decodeTableWord 32 0x02000104 = some (.step 260) ∧
  decodeTableWord 32 0x02FFFFFF = some (.step 16777215) ∧
  decodeTableWord 32 0x03000000 = some (.abort 0) ∧
  decodeTableWord 32 0x04000000 = some (.reserved 0x04 0) ∧
  decodeTableWord 32 0xFF000000 = some (.reserved 0xFF 0) ∧
  decode ⟨false, 0x0010, 0⟩ = .busRead 0x0010 ∧
  decode ⟨true, 0x0010, 0xFFFFFFEA⟩ = .busWrite 0x0010 0xFFFFFFEA
end

