-- ==== Sys2Proof/Laws/Float64.lean ====
section
/-!
SUPPORT. The small laws of binary64: rounding always gives the canonical form, a canonical number rounds to itself, and
what the operations do with NaN.
-/

namespace Sys2Proof.Machine

theorem roundedShift_ge (m n : Nat) : m / 2 ^ n ≤ roundedShift m n := by
  unfold roundedShift; dsimp only; split <;> omega

theorem roundedShift_le (m n : Nat) : roundedShift m n ≤ m / 2 ^ n + 1 := by
  unfold roundedShift; dsimp only; split <;> omega

theorem F64.canonical_fin_iff (n : Bool) (m : Nat) (e : Int) :
    (F64.fin n m e).canonical = true ↔
      m < 2 ^ 53 ∧ F64.minExp ≤ e ∧ e ≤ F64.maxExp ∧ (2 ^ 52 ≤ m ∨ e = F64.minExp) := by
  simp [F64.canonical, and_assoc]

@[simp] theorem F64.round_zero (n : Bool) (e : Int) : F64.round n 0 e = .fin n 0 F64.minExp := by simp [F64.round]

/-- The significand on the grid has 53 bits, or carries to 2^53, or is shorter at the least exponent. -/
theorem onGrid_bounds (m : Nat) (e : Int) (hm : m ≠ 0) :
    onGrid m e (gridExp m e) ≤ 2 ^ 53 ∧
    (2 ^ 52 ≤ onGrid m e (gridExp m e) ∨
      (gridExp m e = F64.minExp ∧ onGrid m e (gridExp m e) < 2 ^ 52)) := by
  have hlo : 2 ^ m.log2 ≤ m := Nat.log2_self_le hm
  have hhi : m < 2 ^ (m.log2 + 1) := Nat.lt_log2_self
  generalize hL : m.log2 = L at hlo hhi
  by_cases hsub : F64.minExp ≤ e + (L : Int) - 52
  · have hg : gridExp m e = e + (L : Int) - 52 := by simp [gridExp, hL, hsub]
    rw [hg, onGrid]
    by_cases hs : e + (L : Int) - 52 ≤ e
    · have hk : (e - (e + (L : Int) - 52)).toNat = 52 - L := by omega
      have hL52 : L ≤ 52 := by omega
      rw [if_pos hs, hk]
      have h1 : 2 ^ L * 2 ^ (52 - L) = 2 ^ 52 := by rw [← pow_add]; congr 1; omega
      have h2 : 2 ^ (L + 1) * 2 ^ (52 - L) = 2 ^ 53 := by rw [← pow_add]; congr 1; omega
      have h3 : 2 ^ L * 2 ^ (52 - L) ≤ m * 2 ^ (52 - L) := Nat.mul_le_mul_right _ hlo
      have h4 : m * 2 ^ (52 - L) ≤ 2 ^ (L + 1) * 2 ^ (52 - L) := Nat.mul_le_mul_right _ hhi.le
      exact ⟨by omega, .inl (by omega)⟩
    · have hk : (e + (L : Int) - 52 - e).toNat = L - 52 := by omega
      rw [if_neg hs, hk]
      have h1 : 2 ^ 52 ≤ m / 2 ^ (L - 52) := by
        rw [Nat.le_div_iff_mul_le (by positivity), ← pow_add, show 52 + (L - 52) = L by omega]
        exact hlo
      have h2 : m / 2 ^ (L - 52) < 2 ^ 53 := by
        rw [Nat.div_lt_iff_lt_mul (by positivity), ← pow_add, show 53 + (L - 52) = L + 1 by omega]
        exact hhi
      have h3 := roundedShift_ge m (L - 52)
      have h4 := roundedShift_le m (L - 52)
      exact ⟨by omega, .inl (by omega)⟩
  · have hg : gridExp m e = F64.minExp := by rw [gridExp, hL]; omega
    have hmin : F64.minExp = -1074 := rfl
    rw [hg, onGrid]
    by_cases hs : F64.minExp ≤ e
    · rw [if_pos hs]
      have h1 : m * 2 ^ (e - F64.minExp).toNat < 2 ^ (L + 1) * 2 ^ (e - F64.minExp).toNat :=
        Nat.mul_lt_mul_of_pos_right hhi (by positivity)
      have h2 : 2 ^ (L + 1) * 2 ^ (e - F64.minExp).toNat ≤ 2 ^ 52 := by
        rw [← pow_add]
        exact Nat.pow_le_pow_right (by norm_num) (by omega)
      exact ⟨by omega, .inr ⟨rfl, by omega⟩⟩
    · rw [if_neg hs]
      have h1 : m / 2 ^ (F64.minExp - e).toNat < 2 ^ 52 := by
        rw [Nat.div_lt_iff_lt_mul (by positivity), ← pow_add]
        exact lt_of_lt_of_le hhi (Nat.pow_le_pow_right (by norm_num) (by omega))
      have h2 := roundedShift_le m (F64.minExp - e).toNat
      exact ⟨by omega, by omega⟩

/-- Rounding gives the canonical form (R15). -/
theorem F64.round_canonical (n : Bool) (m : Nat) (e : Int) : (F64.round n m e).canonical = true := by
  by_cases hm : m = 0
  · subst hm; rw [F64.round_zero]; rfl
  · obtain ⟨h53, h52⟩ := onGrid_bounds m e hm
    have hge : F64.minExp ≤ gridExp m e := by simp [gridExp]
    unfold F64.round
    rw [if_neg hm]
    dsimp only
    by_cases hc : onGrid m e (gridExp m e) = 2 ^ 53
    · simp only [hc, decide_true, if_true]
      split
      · rfl
      · rw [F64.canonical_fin_iff]
        exact ⟨by norm_num, by omega, by omega, .inl le_rfl⟩
    · simp only [hc, decide_false, Bool.false_eq_true, if_false]
      split
      · rfl
      · rw [F64.canonical_fin_iff]
        refine ⟨by omega, hge, by omega, ?_⟩
        rcases h52 with h | h
        · exact .inl h
        · exact .inr h.1

/-- A number in canonical form rounds to itself (R15: rounding changes no binary64 value). -/
theorem F64.round_of_canonical (n : Bool) (m : Nat) (e : Int) (h : (F64.fin n m e).canonical = true) :
    F64.round n m e = .fin n m e := by
  rw [F64.canonical_fin_iff] at h
  obtain ⟨h53, hlo, hhi, h52⟩ := h
  by_cases hm : m = 0
  · subst hm
    rcases h52 with h | h
    · norm_num at h
    · rw [F64.round_zero, h]
  · have hL : 2 ^ m.log2 ≤ m := Nat.log2_self_le hm
    have hU : m < 2 ^ (m.log2 + 1) := Nat.lt_log2_self
    have hle : m.log2 ≤ 52 := by
      by_contra hc
      have : 2 ^ 53 ≤ 2 ^ m.log2 := Nat.pow_le_pow_right (by norm_num) (by omega)
      omega
    have hg : gridExp m e = e := by
      rcases h52 with h | h
      · have : m.log2 = 52 := by
          by_contra hc
          have : 2 ^ (m.log2 + 1) ≤ 2 ^ 52 := Nat.pow_le_pow_right (by norm_num) (by omega)
          omega
        simp only [gridExp, this]
        simp only [F64.minExp] at hlo ⊢
        omega
      · simp only [gridExp, h]
        simp only [F64.minExp]
        omega
    have hq : onGrid m e e = m := by simp [onGrid]
    unfold F64.round
    rw [if_neg hm]
    dsimp only
    rw [hg, hq]
    have hne : m ≠ 2 ^ 53 := by omega
    simp only [hne, decide_false, Bool.false_eq_true, if_false]
    rw [if_neg (by omega)]

theorem F64.ofBits_canonical (p : Pattern) : (F64.ofBits p).canonical = true := by
  have hf : (p.extractLsb' 0 52).toNat < 2 ^ 52 := (p.extractLsb' 0 52).isLt
  have hb : (p.extractLsb' 52 11).toNat < 2 ^ 11 := (p.extractLsb' 52 11).isLt
  unfold F64.ofBits
  dsimp only
  split
  · split <;> rfl
  · split
    · rw [F64.canonical_fin_iff]
      exact ⟨by omega, le_rfl, by decide, .inr rfl⟩
    · rw [F64.canonical_fin_iff]
      simp only [F64.minExp, F64.maxExp]
      exact ⟨by omega, by omega, by omega, .inl (by omega)⟩

theorem F64.zero_canonical (n : Bool) : (F64.zero n).canonical = true := by cases n <;> rfl

theorem addFinite_canonical (na : Bool) (ma : Nat) (ea : Int) (nb : Bool) (mb : Nat) (eb : Int) :
    (addFinite na ma ea nb mb eb).canonical = true := by
  unfold addFinite
  dsimp only
  split
  · exact F64.zero_canonical _
  · exact F64.round_canonical _ _ _

/-- Every sum is in canonical form. -/
theorem fadd_canonical (a b : F64) : (fadd a b).canonical = true := by
  cases a <;> cases b <;> simp only [fadd] <;> first | rfl | exact addFinite_canonical _ _ _ _ _ _ | (split <;> rfl)

theorem fsub_canonical (a b : F64) : (fsub a b).canonical = true := fadd_canonical a b.neg

/-- Every product is in canonical form. -/
theorem fmul_canonical (a b : F64) : (fmul a b).canonical = true := by
  cases a <;> cases b <;> simp only [fmul] <;> first | rfl | exact F64.round_canonical _ _ _ | (split <;> rfl)

/-- Every quotient is in canonical form. -/
theorem fdiv_canonical (a b : F64) : (fdiv a b).canonical = true := by
  cases a <;> cases b <;> simp only [fdiv] <;> first | rfl | exact F64.zero_canonical _ | skip
  split
  · split <;> rfl
  · exact F64.round_canonical _ _ _

theorem i2f_canonical (v : Int) : (i2f v).canonical = true := F64.round_canonical _ _ _

@[simp] theorem fadd_nan_left (b : F64) : fadd .nan b = .nan := by cases b <;> rfl

@[simp] theorem fadd_nan_right (a : F64) : fadd a .nan = .nan := by cases a <;> rfl

@[simp] theorem fmul_nan_left (b : F64) : fmul .nan b = .nan := by cases b <;> rfl

@[simp] theorem fmul_nan_right (a : F64) : fmul a .nan = .nan := by cases a <;> rfl

@[simp] theorem fdiv_nan_left (b : F64) : fdiv .nan b = .nan := by cases b <;> rfl

@[simp] theorem fdiv_nan_right (a : F64) : fdiv a .nan = .nan := by cases a <;> rfl

@[simp] theorem f2i_nan : f2i .nan = ⟨0, true⟩ := rfl

end Sys2Proof.Machine
end

