-- ==== Sys2Proof/Laws/Memory.lean ====
section
/-!
SUPPORT. The laws of the coefficient memories: read after write, the rest unchanged, the canonical form kept, and the
lists of entries that the filters and the loaded bits are made of.
-/

namespace Sys2Proof.Machine

/-! ### One byte -/

theorem Memory.byte?_set (m : Memory) (a : Nat) (v : Byte) (b : Nat) :
    (m.set a v).byte? b = if b = a then some v else m.byte? b := by
  induction m with
  | nil => simp [Memory.set, Memory.byte?, eq_comm]
  | cons c rest ih =>
    obtain ⟨c, w⟩ := c
    simp only [Memory.set]
    split
    · simp only [Memory.byte?, ih]
      split_ifs <;> first | rfl | omega
    · split
      · simp only [Memory.byte?]
        split_ifs <;> first | rfl | omega
      · simp only [Memory.byte?]
        split_ifs <;> first | rfl | omega

theorem Memory.byte?_set_self (m : Memory) (a : Nat) (v : Byte) : (m.set a v).byte? a = some v := by
  simp [Memory.byte?_set]

theorem Memory.byte?_set_other (m : Memory) (a : Nat) (v : Byte) (b : Nat) (h : b ≠ a) :
    (m.set a v).byte? b = m.byte? b := by
  simp [Memory.byte?_set, h]

theorem Memory.byte?_seek (m : Memory) (a b : Nat) (h : a ≤ b) : (m.seek a).byte? b = m.byte? b := by
  induction m with
  | nil => rfl
  | cons c rest ih =>
    obtain ⟨c, w⟩ := c
    simp only [Memory.seek]
    split
    · simp only [Memory.byte?, ih]
      split_ifs <;> first | rfl | omega
    · rfl

/-! ### One entry -/

theorem wordOfBytes_byteOfWord (w : Word) :
    wordOfBytes (byteOfWord w 0) (byteOfWord w 1) (byteOfWord w 2) (byteOfWord w 3) = w := by
  apply BitVec.eq_of_getLsbD_eq
  intro i hi
  simp only [wordOfBytes, byteOfWord, BitVec.getLsbD_append, BitVec.getLsbD_extractLsb']
  split_ifs with h0 h1 h2
  · simp [h0]
  · have : i - 8 < 8 := by omega
    simp [this, show 8 + (i - 8) = i by omega]
  · have : i - 8 - 8 < 8 := by omega
    simp [this, show 16 + (i - 8 - 8) = i by omega]
  · have : i - 8 - 8 - 8 < 8 := by omega
    simp [this, show 24 + (i - 8 - 8 - 8) = i by omega]

theorem Memory.byte?_setWord (m : Memory) (a : Nat) (w : Word) (b : Nat) :
    (m.setWord a w).byte? b = if a ≤ b ∧ b < a + 4 then some (byteOfWord w (b - a)) else m.byte? b := by
  simp only [Memory.setWord, Memory.byte?_set]
  by_cases h3 : b = a + 3
  · subst h3; simp
  by_cases h2 : b = a + 2
  · subst h2; simp
  by_cases h1 : b = a + 1
  · subst h1; simp
  by_cases h0 : b = a
  · subst h0; simp
  have : ¬ (a ≤ b ∧ b < a + 4) := by omega
  simp [h0, h1, h2, h3, this]

theorem Memory.readByte_setWord_other (g : Nat) (m : Memory) (a : Nat) (w : Word) (b : Nat)
    (h : b < a ∨ a + 4 ≤ b) : (m.setWord a w).readByte g b = m.readByte g b := by
  have : ¬ (a ≤ b ∧ b < a + 4) := by omega
  simp [Memory.readByte, Memory.byte?_setWord, this]

theorem Memory.readWord_setWord_self (g : Nat) (m : Memory) (a : Nat) (w : Word) :
    (m.setWord a w).readWord g a = w := by
  simp [Memory.readWord, Memory.readByte, Memory.byte?_setWord, wordOfBytes_byteOfWord]

theorem Memory.readWord_setWord_other (g : Nat) (m : Memory) (a : Nat) (w : Word) (b : Nat)
    (h : b + 4 ≤ a ∨ a + 4 ≤ b) : (m.setWord a w).readWord g b = m.readWord g b := by
  simp only [Memory.readWord]
  rw [Memory.readByte_setWord_other, Memory.readByte_setWord_other, Memory.readByte_setWord_other,
    Memory.readByte_setWord_other] <;> omega

theorem Memory.written_iff (m : Memory) (a : Nat) :
    m.written a = true ↔ ∀ i < 4, (m.byte? (a + i)).isSome = true := by
  simp only [Memory.written, Bool.and_eq_true]
  constructor
  · rintro ⟨⟨⟨h0, h1⟩, h2⟩, h3⟩ i hi
    interval_cases i <;> assumption
  · intro h
    exact ⟨⟨⟨h 0 (by omega), h 1 (by omega)⟩, h 2 (by omega)⟩, h 3 (by omega)⟩

theorem Memory.written_setWord_self (m : Memory) (a : Nat) (w : Word) : (m.setWord a w).written a = true := by
  simp [Memory.written, Memory.byte?_setWord]

theorem Memory.written_setWord_of_written (m : Memory) (a : Nat) (w : Word) (b : Nat)
    (h : m.written b = true) : (m.setWord a w).written b = true := by
  rw [Memory.written_iff] at h ⊢
  intro i hi
  rw [Memory.byte?_setWord]
  split_ifs
  · rfl
  · exact h i hi

theorem Memory.written_setWord_other (m : Memory) (a : Nat) (w : Word) (b : Nat)
    (h : b + 4 ≤ a ∨ a + 4 ≤ b) : (m.setWord a w).written b = m.written b := by
  have hb : ∀ i < 4, (m.setWord a w).byte? (b + i) = m.byte? (b + i) := by
    intro i hi
    rw [Memory.byte?_setWord, if_neg (by omega)]
  have h0 := hb 0 (by omega)
  rw [Nat.add_zero] at h0
  simp only [Memory.written, h0, hb 1 (by omega), hb 2 (by omega), hb 3 (by omega)]

theorem Memory.readWord_seek (g : Nat) (m : Memory) (a b : Nat) (h : a ≤ b) :
    (m.seek a).readWord g b = m.readWord g b := by
  simp only [Memory.readWord, Memory.readByte]
  rw [Memory.byte?_seek, Memory.byte?_seek, Memory.byte?_seek, Memory.byte?_seek] <;> omega

theorem Memory.written_seek (m : Memory) (a b : Nat) (h : a ≤ b) : (m.seek a).written b = m.written b := by
  simp only [Memory.written]
  rw [Memory.byte?_seek, Memory.byte?_seek, Memory.byte?_seek, Memory.byte?_seek] <;> omega

/-! ### Entries in order -/

theorem Memory.readWords_seek (g n : Nat) (m : Memory) (a b : Nat) (h : a ≤ b) :
    Memory.readWords g n b (m.seek a) = Memory.readWords g n b m := by
  induction n generalizing a b m with
  | zero => rfl
  | succ n ih =>
    simp only [Memory.readWords]
    rw [ih (m.seek a) b (b + 4) (by omega), ih m a (b + 4) (by omega), ih m b (b + 4) (by omega),
      Memory.readWord_seek g (m.seek a) b b le_rfl, Memory.readWord_seek g m a b h, Memory.readWord_seek g m b b le_rfl]

theorem Memory.readWords_succ (g n a : Nat) (m : Memory) :
    Memory.readWords g (n + 1) a m = m.readWord g a :: Memory.readWords g n (a + 4) m := by
  rw [Memory.readWords, Memory.readWord_seek g m a a le_rfl, Memory.readWords_seek g n m a (a + 4) (by omega)]

@[simp] theorem Memory.readWords_length (g n a : Nat) (m : Memory) : (Memory.readWords g n a m).length = n := by
  induction n generalizing a with
  | zero => rfl
  | succ n ih => rw [Memory.readWords_succ, List.length_cons, ih]

theorem Memory.readWords_getElem (g n a : Nat) (m : Memory) (k : Nat) (h : k < (Memory.readWords g n a m).length) :
    (Memory.readWords g n a m)[k] = m.readWord g (a + 4 * k) := by
  induction n generalizing a k with
  | zero => simp [Memory.readWords] at h
  | succ n ih =>
    simp only [Memory.readWords_succ]
    cases k with
    | zero => simp
    | succ k =>
      have hk : k < (Memory.readWords g n (a + 4) m).length := by simpa using h
      rw [List.getElem_cons_succ, ih (a + 4) k hk]
      congr 1
      omega

theorem Memory.allWritten_seek (n : Nat) (m : Memory) (a b : Nat) (h : a ≤ b) :
    Memory.allWritten n b (m.seek a) = Memory.allWritten n b m := by
  induction n generalizing a b m with
  | zero => rfl
  | succ n ih =>
    simp only [Memory.allWritten]
    rw [ih (m.seek a) b (b + 4) (by omega), ih m a (b + 4) (by omega), ih m b (b + 4) (by omega),
      Memory.written_seek (m.seek a) b b le_rfl, Memory.written_seek m a b h, Memory.written_seek m b b le_rfl]

theorem Memory.allWritten_succ (n a : Nat) (m : Memory) :
    Memory.allWritten (n + 1) a m = (m.written a && Memory.allWritten n (a + 4) m) := by
  rw [Memory.allWritten, Memory.written_seek m a a le_rfl, Memory.allWritten_seek n m a (a + 4) (by omega)]

/-- The loaded bits are those of the entries (R35). -/
theorem Memory.allWritten_iff (n a : Nat) (m : Memory) :
    Memory.allWritten n a m = true ↔ ∀ k < n, m.written (a + 4 * k) = true := by
  induction n generalizing a with
  | zero => simp [Memory.allWritten]
  | succ n ih =>
    rw [Memory.allWritten_succ, Bool.and_eq_true, ih]
    constructor
    · rintro ⟨h0, h⟩ k hk
      cases k with
      | zero => simpa using h0
      | succ k => simpa [Nat.mul_add, Nat.add_assoc, Nat.add_comm, Nat.add_left_comm] using h k (by omega)
    · intro h
      refine ⟨by simpa using h 0 (by omega), fun k hk => ?_⟩
      simpa [Nat.mul_add, Nat.add_assoc, Nat.add_comm, Nat.add_left_comm] using h (k + 1) (by omega)

/-! ### The canonical form -/

theorem Memory.rising_cons (c : Host.Cell) (m : Memory) :
    Memory.rising (c :: m) = true ↔ (∀ d ∈ m, c.1 < d.1) ∧ Memory.rising m = true := by
  induction m generalizing c with
  | nil => simp [Memory.rising]
  | cons d rest ih =>
    simp only [Memory.rising, Bool.and_eq_true, decide_eq_true_eq]
    constructor
    · rintro ⟨hcd, h⟩
      refine ⟨fun e he => ?_, h⟩
      rcases List.mem_cons.1 he with rfl | he
      · exact hcd
      · exact hcd.trans (((ih d).1 h).1 e he)
    · rintro ⟨h, hr⟩
      exact ⟨h d (by simp), hr⟩

theorem Memory.mem_set (m : Memory) (a : Nat) (v : Byte) (c : Host.Cell) (h : c ∈ m.set a v) :
    c = (a, v) ∨ c ∈ m := by
  induction m with
  | nil => simpa [Memory.set] using h
  | cons d rest ih =>
    obtain ⟨d, w⟩ := d
    simp only [Memory.set] at h
    split at h
    · rcases List.mem_cons.1 h with h | h
      · exact .inr (by simp [h])
      · exact (ih h).imp id fun h => by simp [h]
    · split at h <;> rcases List.mem_cons.1 h with h | h <;> simp [h]

theorem Memory.rising_set (m : Memory) (a : Nat) (v : Byte) (h : m.rising = true) : (m.set a v).rising = true := by
  induction m with
  | nil => rfl
  | cons d rest ih =>
    obtain ⟨d, w⟩ := d
    have hd := (Memory.rising_cons _ _).1 h
    simp only [Memory.set]
    split
    · rename_i hlt
      refine (Memory.rising_cons _ _).2 ⟨fun c hc => ?_, ih hd.2⟩
      rcases Memory.mem_set _ _ _ _ hc with rfl | hc
      · exact hlt
      · exact hd.1 c hc
    · split
      · rename_i heq
        subst heq
        exact (Memory.rising_cons _ _).2 ⟨hd.1, hd.2⟩
      · refine (Memory.rising_cons _ _).2 ⟨fun c hc => ?_, h⟩
        rcases List.mem_cons.1 hc with rfl | hc
        · show a < d
          omega
        · have hc' : d < c.1 := hd.1 c hc
          show a < c.1
          omega

theorem Memory.mem_setWord (m : Memory) (a : Nat) (w : Word) (c : Host.Cell) (h : c ∈ m.setWord a w) :
    (a ≤ c.1 ∧ c.1 < a + 4) ∨ c ∈ m := by
  simp only [Memory.setWord] at h
  rcases Memory.mem_set _ _ _ _ h with rfl | h
  · exact .inl (by simp)
  rcases Memory.mem_set _ _ _ _ h with rfl | h
  · exact .inl (by simp)
  rcases Memory.mem_set _ _ _ _ h with rfl | h
  · exact .inl (by simp)
  rcases Memory.mem_set _ _ _ _ h with rfl | h
  · exact .inl (by simp)
  exact .inr h

/-- A write of an entry of MF or RS keeps the canonical form (log 8). -/
theorem Memory.wf_setWord (m : Memory) (a : Nat) (w : Word) (h : m.wf = true) (ha : a % 4 = 0)
    (hc : inCoefficients a = true) : (m.setWord a w).wf = true := by
  simp only [Memory.wf, Bool.and_eq_true, List.all_eq_true] at h ⊢
  refine ⟨?_, fun c hcm => ?_⟩
  · simp only [Memory.setWord]
    exact Memory.rising_set _ _ _ (Memory.rising_set _ _ _ (Memory.rising_set _ _ _ (Memory.rising_set _ _ _ h.1)))
  · rcases Memory.mem_setWord m a w c hcm with hr | hm
    · have hbase : c.1 - c.1 % 4 = a := by omega
      refine ⟨?_, by rw [hbase]; exact Memory.written_setWord_self m a w⟩
      simp only [inCoefficients, Config.mfBase, Config.coefEnd, Bool.and_eq_true, decide_eq_true_eq] at hc ⊢
      omega
    · exact ⟨(h.2 c hm).1, Memory.written_setWord_of_written m a w _ (h.2 c hm).2⟩

/-- The memory right after reset has the canonical form. -/
theorem Memory.wf_reset : State.reset.mem.wf = true := rfl

end Sys2Proof.Machine
end

