-- ==== Sys2Proof/Laws/State.lean ====
section
/-!
SUPPORT. What each update of the state does to each field: one lemma per field per update, so that no proof unfolds a
record update.
-/

namespace Sys2Proof.Machine

/-! `flag`: one error flag becomes 1 -/

@[simp] theorem State.flag_done (s : State) (e : ErrFlag) : (s.flag e).done = s.done := by cases e <;> rfl
@[simp] theorem State.flag_irqEn (s : State) (e : ErrFlag) : (s.flag e).irqEn = s.irqEn := by cases e <;> rfl
@[simp] theorem State.flag_k (s : State) (e : ErrFlag) : (s.flag e).k = s.k := by cases e <;> rfl
@[simp] theorem State.flag_snrScale (s : State) (e : ErrFlag) : (s.flag e).snrScale = s.snrScale := by cases e <;> rfl
@[simp] theorem State.flag_delayIndex (s : State) (e : ErrFlag) : (s.flag e).delayIndex = s.delayIndex := by cases e <;> rfl
@[simp] theorem State.flag_stepsLeft (s : State) (e : ErrFlag) : (s.flag e).stepsLeft = s.stepsLeft := by cases e <;> rfl
@[simp] theorem State.flag_sampleCount (s : State) (e : ErrFlag) : (s.flag e).sampleCount = s.sampleCount := by cases e <;> rfl
@[simp] theorem State.flag_drawCount (s : State) (e : ErrFlag) : (s.flag e).drawCount = s.drawCount := by cases e <;> rfl
@[simp] theorem State.flag_outLastI (s : State) (e : ErrFlag) : (s.flag e).outLastI = s.outLastI := by cases e <;> rfl
@[simp] theorem State.flag_outLastQ (s : State) (e : ErrFlag) : (s.flag e).outLastQ = s.outLastQ := by cases e <;> rfl
@[simp] theorem State.flag_dcI (s : State) (e : ErrFlag) : (s.flag e).dcI = s.dcI := by cases e <;> rfl
@[simp] theorem State.flag_dcQ (s : State) (e : ErrFlag) : (s.flag e).dcQ = s.dcQ := by cases e <;> rfl
@[simp] theorem State.flag_gainImb (s : State) (e : ErrFlag) : (s.flag e).gainImb = s.gainImb := by cases e <;> rfl
@[simp] theorem State.flag_cosPhi (s : State) (e : ErrFlag) : (s.flag e).cosPhi = s.cosPhi := by cases e <;> rfl
@[simp] theorem State.flag_sinPhi (s : State) (e : ErrFlag) : (s.flag e).sinPhi = s.sinPhi := by cases e <;> rfl
@[simp] theorem State.flag_cosTheta (s : State) (e : ErrFlag) : (s.flag e).cosTheta = s.cosTheta := by cases e <;> rfl
@[simp] theorem State.flag_sinTheta (s : State) (e : ErrFlag) : (s.flag e).sinTheta = s.sinTheta := by cases e <;> rfl
@[simp] theorem State.flag_carrierPower (s : State) (e : ErrFlag) : (s.flag e).carrierPower = s.carrierPower := by cases e <;> rfl
@[simp] theorem State.flag_noisePower (s : State) (e : ErrFlag) : (s.flag e).noisePower = s.noisePower := by cases e <;> rfl
@[simp] theorem State.flag_shadowCp (s : State) (e : ErrFlag) : (s.flag e).shadowCp = s.shadowCp := by cases e <;> rfl
@[simp] theorem State.flag_shadowNp (s : State) (e : ErrFlag) : (s.flag e).shadowNp = s.shadowNp := by cases e <;> rfl
@[simp] theorem State.flag_shadowSnr (s : State) (e : ErrFlag) : (s.flag e).shadowSnr = s.shadowSnr := by cases e <;> rfl
@[simp] theorem State.flag_mem (s : State) (e : ErrFlag) : (s.flag e).mem = s.mem := by cases e <;> rfl
@[simp] theorem State.flag_mfdlI (s : State) (e : ErrFlag) : (s.flag e).mfdlI = s.mfdlI := by cases e <;> rfl
@[simp] theorem State.flag_mfdlQ (s : State) (e : ErrFlag) : (s.flag e).mfdlQ = s.mfdlQ := by cases e <;> rfl
@[simp] theorem State.flag_rsdlI (s : State) (e : ErrFlag) : (s.flag e).rsdlI = s.rsdlI := by cases e <;> rfl
@[simp] theorem State.flag_rsdlQ (s : State) (e : ErrFlag) : (s.flag e).rsdlQ = s.rsdlQ := by cases e <;> rfl
@[simp] theorem State.flag_fifo (s : State) (e : ErrFlag) : (s.flag e).fifo = s.fifo := by cases e <;> rfl
@[simp] theorem State.flag_readData (s : State) (e : ErrFlag) : (s.flag e).readData = s.readData := by cases e <;> rfl
@[simp] theorem State.flag_draws (s : State) (e : ErrFlag) : (s.flag e).draws = s.draws := by cases e <;> rfl
@[simp] theorem State.flag_inputs (s : State) (e : ErrFlag) : (s.flag e).inputs = s.inputs := by cases e <;> rfl
@[simp] theorem State.flag_powerOns (s : State) (e : ErrFlag) : (s.flag e).powerOns = s.powerOns := by cases e <;> rfl
@[simp] theorem State.flag_cmd_errCmd (s : State) : (s.flag .cmd).errCmd = true := rfl
@[simp] theorem State.flag_cmd_errBusy (s : State) : (s.flag .cmd).errBusy = s.errBusy := rfl
@[simp] theorem State.flag_cmd_errCoef (s : State) : (s.flag .cmd).errCoef = s.errCoef := rfl
@[simp] theorem State.flag_cmd_errAddr (s : State) : (s.flag .cmd).errAddr = s.errAddr := rfl
@[simp] theorem State.flag_cmd_errFifo (s : State) : (s.flag .cmd).errFifo = s.errFifo := rfl
@[simp] theorem State.flag_cmd_errOvf (s : State) : (s.flag .cmd).errOvf = s.errOvf := rfl
@[simp] theorem State.flag_cmd_errSat (s : State) : (s.flag .cmd).errSat = s.errSat := rfl
@[simp] theorem State.flag_busy_errBusy (s : State) : (s.flag .busy).errBusy = true := rfl
@[simp] theorem State.flag_busy_errCmd (s : State) : (s.flag .busy).errCmd = s.errCmd := rfl
@[simp] theorem State.flag_busy_errCoef (s : State) : (s.flag .busy).errCoef = s.errCoef := rfl
@[simp] theorem State.flag_busy_errAddr (s : State) : (s.flag .busy).errAddr = s.errAddr := rfl
@[simp] theorem State.flag_busy_errFifo (s : State) : (s.flag .busy).errFifo = s.errFifo := rfl
@[simp] theorem State.flag_busy_errOvf (s : State) : (s.flag .busy).errOvf = s.errOvf := rfl
@[simp] theorem State.flag_busy_errSat (s : State) : (s.flag .busy).errSat = s.errSat := rfl
@[simp] theorem State.flag_coef_errCoef (s : State) : (s.flag .coef).errCoef = true := rfl
@[simp] theorem State.flag_coef_errCmd (s : State) : (s.flag .coef).errCmd = s.errCmd := rfl
@[simp] theorem State.flag_coef_errBusy (s : State) : (s.flag .coef).errBusy = s.errBusy := rfl
@[simp] theorem State.flag_coef_errAddr (s : State) : (s.flag .coef).errAddr = s.errAddr := rfl
@[simp] theorem State.flag_coef_errFifo (s : State) : (s.flag .coef).errFifo = s.errFifo := rfl
@[simp] theorem State.flag_coef_errOvf (s : State) : (s.flag .coef).errOvf = s.errOvf := rfl
@[simp] theorem State.flag_coef_errSat (s : State) : (s.flag .coef).errSat = s.errSat := rfl
@[simp] theorem State.flag_addr_errAddr (s : State) : (s.flag .addr).errAddr = true := rfl
@[simp] theorem State.flag_addr_errCmd (s : State) : (s.flag .addr).errCmd = s.errCmd := rfl
@[simp] theorem State.flag_addr_errBusy (s : State) : (s.flag .addr).errBusy = s.errBusy := rfl
@[simp] theorem State.flag_addr_errCoef (s : State) : (s.flag .addr).errCoef = s.errCoef := rfl
@[simp] theorem State.flag_addr_errFifo (s : State) : (s.flag .addr).errFifo = s.errFifo := rfl
@[simp] theorem State.flag_addr_errOvf (s : State) : (s.flag .addr).errOvf = s.errOvf := rfl
@[simp] theorem State.flag_addr_errSat (s : State) : (s.flag .addr).errSat = s.errSat := rfl
@[simp] theorem State.flag_fifo_errFifo (s : State) : (s.flag .fifo).errFifo = true := rfl
@[simp] theorem State.flag_fifo_errCmd (s : State) : (s.flag .fifo).errCmd = s.errCmd := rfl
@[simp] theorem State.flag_fifo_errBusy (s : State) : (s.flag .fifo).errBusy = s.errBusy := rfl
@[simp] theorem State.flag_fifo_errCoef (s : State) : (s.flag .fifo).errCoef = s.errCoef := rfl
@[simp] theorem State.flag_fifo_errAddr (s : State) : (s.flag .fifo).errAddr = s.errAddr := rfl
@[simp] theorem State.flag_fifo_errOvf (s : State) : (s.flag .fifo).errOvf = s.errOvf := rfl
@[simp] theorem State.flag_fifo_errSat (s : State) : (s.flag .fifo).errSat = s.errSat := rfl
@[simp] theorem State.flag_ovf_errOvf (s : State) : (s.flag .ovf).errOvf = true := rfl
@[simp] theorem State.flag_ovf_errCmd (s : State) : (s.flag .ovf).errCmd = s.errCmd := rfl
@[simp] theorem State.flag_ovf_errBusy (s : State) : (s.flag .ovf).errBusy = s.errBusy := rfl
@[simp] theorem State.flag_ovf_errCoef (s : State) : (s.flag .ovf).errCoef = s.errCoef := rfl
@[simp] theorem State.flag_ovf_errAddr (s : State) : (s.flag .ovf).errAddr = s.errAddr := rfl
@[simp] theorem State.flag_ovf_errFifo (s : State) : (s.flag .ovf).errFifo = s.errFifo := rfl
@[simp] theorem State.flag_ovf_errSat (s : State) : (s.flag .ovf).errSat = s.errSat := rfl
@[simp] theorem State.flag_sat_errSat (s : State) : (s.flag .sat).errSat = true := rfl
@[simp] theorem State.flag_sat_errCmd (s : State) : (s.flag .sat).errCmd = s.errCmd := rfl
@[simp] theorem State.flag_sat_errBusy (s : State) : (s.flag .sat).errBusy = s.errBusy := rfl
@[simp] theorem State.flag_sat_errCoef (s : State) : (s.flag .sat).errCoef = s.errCoef := rfl
@[simp] theorem State.flag_sat_errAddr (s : State) : (s.flag .sat).errAddr = s.errAddr := rfl
@[simp] theorem State.flag_sat_errFifo (s : State) : (s.flag .sat).errFifo = s.errFifo := rfl
@[simp] theorem State.flag_sat_errOvf (s : State) : (s.flag .sat).errOvf = s.errOvf := rfl

/-! `initRun`: the run state is reset -/

@[simp] theorem State.initRun_done (s : State) : (s.initRun).done = s.done := rfl
@[simp] theorem State.initRun_errCmd (s : State) : (s.initRun).errCmd = s.errCmd := rfl
@[simp] theorem State.initRun_errBusy (s : State) : (s.initRun).errBusy = s.errBusy := rfl
@[simp] theorem State.initRun_errCoef (s : State) : (s.initRun).errCoef = s.errCoef := rfl
@[simp] theorem State.initRun_errAddr (s : State) : (s.initRun).errAddr = s.errAddr := rfl
@[simp] theorem State.initRun_errFifo (s : State) : (s.initRun).errFifo = s.errFifo := rfl
@[simp] theorem State.initRun_errOvf (s : State) : (s.initRun).errOvf = s.errOvf := rfl
@[simp] theorem State.initRun_errSat (s : State) : (s.initRun).errSat = s.errSat := rfl
@[simp] theorem State.initRun_irqEn (s : State) : (s.initRun).irqEn = s.irqEn := rfl
@[simp] theorem State.initRun_k (s : State) : (s.initRun).k = s.k := rfl
@[simp] theorem State.initRun_snrScale (s : State) : (s.initRun).snrScale = s.snrScale := rfl
@[simp] theorem State.initRun_delayIndex (s : State) : (s.initRun).delayIndex = s.delayIndex := rfl
@[simp] theorem State.initRun_stepsLeft (s : State) : (s.initRun).stepsLeft = s.stepsLeft := rfl
@[simp] theorem State.initRun_sampleCount (s : State) : (s.initRun).sampleCount = 0 := rfl
@[simp] theorem State.initRun_drawCount (s : State) : (s.initRun).drawCount = 0 := rfl
@[simp] theorem State.initRun_outLastI (s : State) : (s.initRun).outLastI = 0 := rfl
@[simp] theorem State.initRun_outLastQ (s : State) : (s.initRun).outLastQ = 0 := rfl
@[simp] theorem State.initRun_dcI (s : State) : (s.initRun).dcI = s.dcI := rfl
@[simp] theorem State.initRun_dcQ (s : State) : (s.initRun).dcQ = s.dcQ := rfl
@[simp] theorem State.initRun_gainImb (s : State) : (s.initRun).gainImb = s.gainImb := rfl
@[simp] theorem State.initRun_cosPhi (s : State) : (s.initRun).cosPhi = s.cosPhi := rfl
@[simp] theorem State.initRun_sinPhi (s : State) : (s.initRun).sinPhi = s.sinPhi := rfl
@[simp] theorem State.initRun_cosTheta (s : State) : (s.initRun).cosTheta = s.cosTheta := rfl
@[simp] theorem State.initRun_sinTheta (s : State) : (s.initRun).sinTheta = s.sinTheta := rfl
@[simp] theorem State.initRun_carrierPower (s : State) : (s.initRun).carrierPower = 0 := rfl
@[simp] theorem State.initRun_noisePower (s : State) : (s.initRun).noisePower = 0 := rfl
@[simp] theorem State.initRun_shadowCp (s : State) : (s.initRun).shadowCp = s.shadowCp := rfl
@[simp] theorem State.initRun_shadowNp (s : State) : (s.initRun).shadowNp = s.shadowNp := rfl
@[simp] theorem State.initRun_shadowSnr (s : State) : (s.initRun).shadowSnr = s.shadowSnr := rfl
@[simp] theorem State.initRun_mem (s : State) : (s.initRun).mem = s.mem := rfl
@[simp] theorem State.initRun_mfdlI (s : State) : (s.initRun).mfdlI = List.replicate Config.mfTaps 0 := rfl
@[simp] theorem State.initRun_mfdlQ (s : State) : (s.initRun).mfdlQ = List.replicate Config.mfTaps 0 := rfl
@[simp] theorem State.initRun_rsdlI (s : State) : (s.initRun).rsdlI = List.replicate Config.rsTaps 0 := rfl
@[simp] theorem State.initRun_rsdlQ (s : State) : (s.initRun).rsdlQ = List.replicate Config.rsTaps 0 := rfl
@[simp] theorem State.initRun_fifo (s : State) : (s.initRun).fifo = [] := rfl
@[simp] theorem State.initRun_readData (s : State) : (s.initRun).readData = s.readData := rfl
@[simp] theorem State.initRun_draws (s : State) : (s.initRun).draws = s.draws := rfl
@[simp] theorem State.initRun_inputs (s : State) : (s.initRun).inputs = s.inputs := rfl
@[simp] theorem State.initRun_powerOns (s : State) : (s.initRun).powerOns = s.powerOns := rfl

/-! `clearFlags`: the W1C bits -/

@[simp] theorem State.clearFlags_done (s : State) (d : Word) : (s.clearFlags d).done = (s.done && !d.getLsbD 1) := rfl
@[simp] theorem State.clearFlags_errCmd (s : State) (d : Word) : (s.clearFlags d).errCmd = (s.errCmd && !d.getLsbD 8) := rfl
@[simp] theorem State.clearFlags_errBusy (s : State) (d : Word) : (s.clearFlags d).errBusy = (s.errBusy && !d.getLsbD 9) := rfl
@[simp] theorem State.clearFlags_errCoef (s : State) (d : Word) : (s.clearFlags d).errCoef = (s.errCoef && !d.getLsbD 10) := rfl
@[simp] theorem State.clearFlags_errAddr (s : State) (d : Word) : (s.clearFlags d).errAddr = (s.errAddr && !d.getLsbD 11) := rfl
@[simp] theorem State.clearFlags_errFifo (s : State) (d : Word) : (s.clearFlags d).errFifo = (s.errFifo && !d.getLsbD 12) := rfl
@[simp] theorem State.clearFlags_errOvf (s : State) (d : Word) : (s.clearFlags d).errOvf = (s.errOvf && !d.getLsbD 13) := rfl
@[simp] theorem State.clearFlags_errSat (s : State) (d : Word) : (s.clearFlags d).errSat = (s.errSat && !d.getLsbD 14) := rfl
@[simp] theorem State.clearFlags_irqEn (s : State) (d : Word) : (s.clearFlags d).irqEn = s.irqEn := rfl
@[simp] theorem State.clearFlags_k (s : State) (d : Word) : (s.clearFlags d).k = s.k := rfl
@[simp] theorem State.clearFlags_snrScale (s : State) (d : Word) : (s.clearFlags d).snrScale = s.snrScale := rfl
@[simp] theorem State.clearFlags_delayIndex (s : State) (d : Word) : (s.clearFlags d).delayIndex = s.delayIndex := rfl
@[simp] theorem State.clearFlags_stepsLeft (s : State) (d : Word) : (s.clearFlags d).stepsLeft = s.stepsLeft := rfl
@[simp] theorem State.clearFlags_sampleCount (s : State) (d : Word) : (s.clearFlags d).sampleCount = s.sampleCount := rfl
@[simp] theorem State.clearFlags_drawCount (s : State) (d : Word) : (s.clearFlags d).drawCount = s.drawCount := rfl
@[simp] theorem State.clearFlags_outLastI (s : State) (d : Word) : (s.clearFlags d).outLastI = s.outLastI := rfl
@[simp] theorem State.clearFlags_outLastQ (s : State) (d : Word) : (s.clearFlags d).outLastQ = s.outLastQ := rfl
@[simp] theorem State.clearFlags_dcI (s : State) (d : Word) : (s.clearFlags d).dcI = s.dcI := rfl
@[simp] theorem State.clearFlags_dcQ (s : State) (d : Word) : (s.clearFlags d).dcQ = s.dcQ := rfl
@[simp] theorem State.clearFlags_gainImb (s : State) (d : Word) : (s.clearFlags d).gainImb = s.gainImb := rfl
@[simp] theorem State.clearFlags_cosPhi (s : State) (d : Word) : (s.clearFlags d).cosPhi = s.cosPhi := rfl
@[simp] theorem State.clearFlags_sinPhi (s : State) (d : Word) : (s.clearFlags d).sinPhi = s.sinPhi := rfl
@[simp] theorem State.clearFlags_cosTheta (s : State) (d : Word) : (s.clearFlags d).cosTheta = s.cosTheta := rfl
@[simp] theorem State.clearFlags_sinTheta (s : State) (d : Word) : (s.clearFlags d).sinTheta = s.sinTheta := rfl
@[simp] theorem State.clearFlags_carrierPower (s : State) (d : Word) : (s.clearFlags d).carrierPower = s.carrierPower := rfl
@[simp] theorem State.clearFlags_noisePower (s : State) (d : Word) : (s.clearFlags d).noisePower = s.noisePower := rfl
@[simp] theorem State.clearFlags_shadowCp (s : State) (d : Word) : (s.clearFlags d).shadowCp = s.shadowCp := rfl
@[simp] theorem State.clearFlags_shadowNp (s : State) (d : Word) : (s.clearFlags d).shadowNp = s.shadowNp := rfl
@[simp] theorem State.clearFlags_shadowSnr (s : State) (d : Word) : (s.clearFlags d).shadowSnr = s.shadowSnr := rfl
@[simp] theorem State.clearFlags_mem (s : State) (d : Word) : (s.clearFlags d).mem = s.mem := rfl
@[simp] theorem State.clearFlags_mfdlI (s : State) (d : Word) : (s.clearFlags d).mfdlI = s.mfdlI := rfl
@[simp] theorem State.clearFlags_mfdlQ (s : State) (d : Word) : (s.clearFlags d).mfdlQ = s.mfdlQ := rfl
@[simp] theorem State.clearFlags_rsdlI (s : State) (d : Word) : (s.clearFlags d).rsdlI = s.rsdlI := rfl
@[simp] theorem State.clearFlags_rsdlQ (s : State) (d : Word) : (s.clearFlags d).rsdlQ = s.rsdlQ := rfl
@[simp] theorem State.clearFlags_fifo (s : State) (d : Word) : (s.clearFlags d).fifo = s.fifo := rfl
@[simp] theorem State.clearFlags_readData (s : State) (d : Word) : (s.clearFlags d).readData = s.readData := rfl
@[simp] theorem State.clearFlags_draws (s : State) (d : Word) : (s.clearFlags d).draws = s.draws := rfl
@[simp] theorem State.clearFlags_inputs (s : State) (d : Word) : (s.clearFlags d).inputs = s.inputs := rfl
@[simp] theorem State.clearFlags_powerOns (s : State) (d : Word) : (s.clearFlags d).powerOns = s.powerOns := rfl

/-! `answer`: the data returned to the host -/

@[simp] theorem State.answer_done (s : State) (w : Word) : (s.answer w).done = s.done := rfl
@[simp] theorem State.answer_errCmd (s : State) (w : Word) : (s.answer w).errCmd = s.errCmd := rfl
@[simp] theorem State.answer_errBusy (s : State) (w : Word) : (s.answer w).errBusy = s.errBusy := rfl
@[simp] theorem State.answer_errCoef (s : State) (w : Word) : (s.answer w).errCoef = s.errCoef := rfl
@[simp] theorem State.answer_errAddr (s : State) (w : Word) : (s.answer w).errAddr = s.errAddr := rfl
@[simp] theorem State.answer_errFifo (s : State) (w : Word) : (s.answer w).errFifo = s.errFifo := rfl
@[simp] theorem State.answer_errOvf (s : State) (w : Word) : (s.answer w).errOvf = s.errOvf := rfl
@[simp] theorem State.answer_errSat (s : State) (w : Word) : (s.answer w).errSat = s.errSat := rfl
@[simp] theorem State.answer_irqEn (s : State) (w : Word) : (s.answer w).irqEn = s.irqEn := rfl
@[simp] theorem State.answer_k (s : State) (w : Word) : (s.answer w).k = s.k := rfl
@[simp] theorem State.answer_snrScale (s : State) (w : Word) : (s.answer w).snrScale = s.snrScale := rfl
@[simp] theorem State.answer_delayIndex (s : State) (w : Word) : (s.answer w).delayIndex = s.delayIndex := rfl
@[simp] theorem State.answer_stepsLeft (s : State) (w : Word) : (s.answer w).stepsLeft = s.stepsLeft := rfl
@[simp] theorem State.answer_sampleCount (s : State) (w : Word) : (s.answer w).sampleCount = s.sampleCount := rfl
@[simp] theorem State.answer_drawCount (s : State) (w : Word) : (s.answer w).drawCount = s.drawCount := rfl
@[simp] theorem State.answer_outLastI (s : State) (w : Word) : (s.answer w).outLastI = s.outLastI := rfl
@[simp] theorem State.answer_outLastQ (s : State) (w : Word) : (s.answer w).outLastQ = s.outLastQ := rfl
@[simp] theorem State.answer_dcI (s : State) (w : Word) : (s.answer w).dcI = s.dcI := rfl
@[simp] theorem State.answer_dcQ (s : State) (w : Word) : (s.answer w).dcQ = s.dcQ := rfl
@[simp] theorem State.answer_gainImb (s : State) (w : Word) : (s.answer w).gainImb = s.gainImb := rfl
@[simp] theorem State.answer_cosPhi (s : State) (w : Word) : (s.answer w).cosPhi = s.cosPhi := rfl
@[simp] theorem State.answer_sinPhi (s : State) (w : Word) : (s.answer w).sinPhi = s.sinPhi := rfl
@[simp] theorem State.answer_cosTheta (s : State) (w : Word) : (s.answer w).cosTheta = s.cosTheta := rfl
@[simp] theorem State.answer_sinTheta (s : State) (w : Word) : (s.answer w).sinTheta = s.sinTheta := rfl
@[simp] theorem State.answer_carrierPower (s : State) (w : Word) : (s.answer w).carrierPower = s.carrierPower := rfl
@[simp] theorem State.answer_noisePower (s : State) (w : Word) : (s.answer w).noisePower = s.noisePower := rfl
@[simp] theorem State.answer_shadowCp (s : State) (w : Word) : (s.answer w).shadowCp = s.shadowCp := rfl
@[simp] theorem State.answer_shadowNp (s : State) (w : Word) : (s.answer w).shadowNp = s.shadowNp := rfl
@[simp] theorem State.answer_shadowSnr (s : State) (w : Word) : (s.answer w).shadowSnr = s.shadowSnr := rfl
@[simp] theorem State.answer_mem (s : State) (w : Word) : (s.answer w).mem = s.mem := rfl
@[simp] theorem State.answer_mfdlI (s : State) (w : Word) : (s.answer w).mfdlI = s.mfdlI := rfl
@[simp] theorem State.answer_mfdlQ (s : State) (w : Word) : (s.answer w).mfdlQ = s.mfdlQ := rfl
@[simp] theorem State.answer_rsdlI (s : State) (w : Word) : (s.answer w).rsdlI = s.rsdlI := rfl
@[simp] theorem State.answer_rsdlQ (s : State) (w : Word) : (s.answer w).rsdlQ = s.rsdlQ := rfl
@[simp] theorem State.answer_fifo (s : State) (w : Word) : (s.answer w).fifo = s.fifo := rfl
@[simp] theorem State.answer_readData (s : State) (w : Word) : (s.answer w).readData = w := rfl
@[simp] theorem State.answer_draws (s : State) (w : Word) : (s.answer w).draws = s.draws := rfl
@[simp] theorem State.answer_inputs (s : State) (w : Word) : (s.answer w).inputs = s.inputs := rfl
@[simp] theorem State.answer_powerOns (s : State) (w : Word) : (s.answer w).powerOns = s.powerOns := rfl

/-! `setCfg`: one binary64 configuration register -/

@[simp] theorem State.setCfg_done (s : State) (r : CfgReg) (p : Pattern) : (s.setCfg r p).done = s.done := by cases r <;> rfl
@[simp] theorem State.setCfg_errCmd (s : State) (r : CfgReg) (p : Pattern) : (s.setCfg r p).errCmd = s.errCmd := by cases r <;> rfl
@[simp] theorem State.setCfg_errBusy (s : State) (r : CfgReg) (p : Pattern) : (s.setCfg r p).errBusy = s.errBusy := by cases r <;> rfl
@[simp] theorem State.setCfg_errCoef (s : State) (r : CfgReg) (p : Pattern) : (s.setCfg r p).errCoef = s.errCoef := by cases r <;> rfl
@[simp] theorem State.setCfg_errAddr (s : State) (r : CfgReg) (p : Pattern) : (s.setCfg r p).errAddr = s.errAddr := by cases r <;> rfl
@[simp] theorem State.setCfg_errFifo (s : State) (r : CfgReg) (p : Pattern) : (s.setCfg r p).errFifo = s.errFifo := by cases r <;> rfl
@[simp] theorem State.setCfg_errOvf (s : State) (r : CfgReg) (p : Pattern) : (s.setCfg r p).errOvf = s.errOvf := by cases r <;> rfl
@[simp] theorem State.setCfg_errSat (s : State) (r : CfgReg) (p : Pattern) : (s.setCfg r p).errSat = s.errSat := by cases r <;> rfl
@[simp] theorem State.setCfg_irqEn (s : State) (r : CfgReg) (p : Pattern) : (s.setCfg r p).irqEn = s.irqEn := by cases r <;> rfl
@[simp] theorem State.setCfg_k (s : State) (r : CfgReg) (p : Pattern) : (s.setCfg r p).k = s.k := by cases r <;> rfl
@[simp] theorem State.setCfg_snrScale (s : State) (r : CfgReg) (p : Pattern) : (s.setCfg r p).snrScale = s.snrScale := by cases r <;> rfl
@[simp] theorem State.setCfg_delayIndex (s : State) (r : CfgReg) (p : Pattern) : (s.setCfg r p).delayIndex = s.delayIndex := by cases r <;> rfl
@[simp] theorem State.setCfg_stepsLeft (s : State) (r : CfgReg) (p : Pattern) : (s.setCfg r p).stepsLeft = s.stepsLeft := by cases r <;> rfl
@[simp] theorem State.setCfg_sampleCount (s : State) (r : CfgReg) (p : Pattern) : (s.setCfg r p).sampleCount = s.sampleCount := by cases r <;> rfl
@[simp] theorem State.setCfg_drawCount (s : State) (r : CfgReg) (p : Pattern) : (s.setCfg r p).drawCount = s.drawCount := by cases r <;> rfl
@[simp] theorem State.setCfg_outLastI (s : State) (r : CfgReg) (p : Pattern) : (s.setCfg r p).outLastI = s.outLastI := by cases r <;> rfl
@[simp] theorem State.setCfg_outLastQ (s : State) (r : CfgReg) (p : Pattern) : (s.setCfg r p).outLastQ = s.outLastQ := by cases r <;> rfl
@[simp] theorem State.setCfg_carrierPower (s : State) (r : CfgReg) (p : Pattern) : (s.setCfg r p).carrierPower = s.carrierPower := by cases r <;> rfl
@[simp] theorem State.setCfg_noisePower (s : State) (r : CfgReg) (p : Pattern) : (s.setCfg r p).noisePower = s.noisePower := by cases r <;> rfl
@[simp] theorem State.setCfg_shadowCp (s : State) (r : CfgReg) (p : Pattern) : (s.setCfg r p).shadowCp = s.shadowCp := by cases r <;> rfl
@[simp] theorem State.setCfg_shadowNp (s : State) (r : CfgReg) (p : Pattern) : (s.setCfg r p).shadowNp = s.shadowNp := by cases r <;> rfl
@[simp] theorem State.setCfg_shadowSnr (s : State) (r : CfgReg) (p : Pattern) : (s.setCfg r p).shadowSnr = s.shadowSnr := by cases r <;> rfl
@[simp] theorem State.setCfg_mem (s : State) (r : CfgReg) (p : Pattern) : (s.setCfg r p).mem = s.mem := by cases r <;> rfl
@[simp] theorem State.setCfg_mfdlI (s : State) (r : CfgReg) (p : Pattern) : (s.setCfg r p).mfdlI = s.mfdlI := by cases r <;> rfl
@[simp] theorem State.setCfg_mfdlQ (s : State) (r : CfgReg) (p : Pattern) : (s.setCfg r p).mfdlQ = s.mfdlQ := by cases r <;> rfl
@[simp] theorem State.setCfg_rsdlI (s : State) (r : CfgReg) (p : Pattern) : (s.setCfg r p).rsdlI = s.rsdlI := by cases r <;> rfl
@[simp] theorem State.setCfg_rsdlQ (s : State) (r : CfgReg) (p : Pattern) : (s.setCfg r p).rsdlQ = s.rsdlQ := by cases r <;> rfl
@[simp] theorem State.setCfg_fifo (s : State) (r : CfgReg) (p : Pattern) : (s.setCfg r p).fifo = s.fifo := by cases r <;> rfl
@[simp] theorem State.setCfg_readData (s : State) (r : CfgReg) (p : Pattern) : (s.setCfg r p).readData = s.readData := by cases r <;> rfl
@[simp] theorem State.setCfg_draws (s : State) (r : CfgReg) (p : Pattern) : (s.setCfg r p).draws = s.draws := by cases r <;> rfl
@[simp] theorem State.setCfg_inputs (s : State) (r : CfgReg) (p : Pattern) : (s.setCfg r p).inputs = s.inputs := by cases r <;> rfl
@[simp] theorem State.setCfg_powerOns (s : State) (r : CfgReg) (p : Pattern) : (s.setCfg r p).powerOns = s.powerOns := by cases r <;> rfl
@[simp] theorem State.cfg_setCfg_self (s : State) (r : CfgReg) (p : Pattern) : (s.setCfg r p).cfg r = p := by cases r <;> rfl
theorem State.cfg_setCfg_other (s : State) (r r' : CfgReg) (p : Pattern) (h : r' ≠ r) : (s.setCfg r p).cfg r' = s.cfg r' := by
  cases r <;> cases r' <;> first | rfl | exact absurd rfl h

/-! `setShadow`: one read shadow -/

@[simp] theorem State.setShadow_done (s : State) (r : PowerReg) (w : Word) : (s.setShadow r w).done = s.done := by cases r <;> rfl
@[simp] theorem State.setShadow_errCmd (s : State) (r : PowerReg) (w : Word) : (s.setShadow r w).errCmd = s.errCmd := by cases r <;> rfl
@[simp] theorem State.setShadow_errBusy (s : State) (r : PowerReg) (w : Word) : (s.setShadow r w).errBusy = s.errBusy := by cases r <;> rfl
@[simp] theorem State.setShadow_errCoef (s : State) (r : PowerReg) (w : Word) : (s.setShadow r w).errCoef = s.errCoef := by cases r <;> rfl
@[simp] theorem State.setShadow_errAddr (s : State) (r : PowerReg) (w : Word) : (s.setShadow r w).errAddr = s.errAddr := by cases r <;> rfl
@[simp] theorem State.setShadow_errFifo (s : State) (r : PowerReg) (w : Word) : (s.setShadow r w).errFifo = s.errFifo := by cases r <;> rfl
@[simp] theorem State.setShadow_errOvf (s : State) (r : PowerReg) (w : Word) : (s.setShadow r w).errOvf = s.errOvf := by cases r <;> rfl
@[simp] theorem State.setShadow_errSat (s : State) (r : PowerReg) (w : Word) : (s.setShadow r w).errSat = s.errSat := by cases r <;> rfl
@[simp] theorem State.setShadow_irqEn (s : State) (r : PowerReg) (w : Word) : (s.setShadow r w).irqEn = s.irqEn := by cases r <;> rfl
@[simp] theorem State.setShadow_k (s : State) (r : PowerReg) (w : Word) : (s.setShadow r w).k = s.k := by cases r <;> rfl
@[simp] theorem State.setShadow_snrScale (s : State) (r : PowerReg) (w : Word) : (s.setShadow r w).snrScale = s.snrScale := by cases r <;> rfl
@[simp] theorem State.setShadow_delayIndex (s : State) (r : PowerReg) (w : Word) : (s.setShadow r w).delayIndex = s.delayIndex := by cases r <;> rfl
@[simp] theorem State.setShadow_stepsLeft (s : State) (r : PowerReg) (w : Word) : (s.setShadow r w).stepsLeft = s.stepsLeft := by cases r <;> rfl
@[simp] theorem State.setShadow_sampleCount (s : State) (r : PowerReg) (w : Word) : (s.setShadow r w).sampleCount = s.sampleCount := by cases r <;> rfl
@[simp] theorem State.setShadow_drawCount (s : State) (r : PowerReg) (w : Word) : (s.setShadow r w).drawCount = s.drawCount := by cases r <;> rfl
@[simp] theorem State.setShadow_outLastI (s : State) (r : PowerReg) (w : Word) : (s.setShadow r w).outLastI = s.outLastI := by cases r <;> rfl
@[simp] theorem State.setShadow_outLastQ (s : State) (r : PowerReg) (w : Word) : (s.setShadow r w).outLastQ = s.outLastQ := by cases r <;> rfl
@[simp] theorem State.setShadow_dcI (s : State) (r : PowerReg) (w : Word) : (s.setShadow r w).dcI = s.dcI := by cases r <;> rfl
@[simp] theorem State.setShadow_dcQ (s : State) (r : PowerReg) (w : Word) : (s.setShadow r w).dcQ = s.dcQ := by cases r <;> rfl
@[simp] theorem State.setShadow_gainImb (s : State) (r : PowerReg) (w : Word) : (s.setShadow r w).gainImb = s.gainImb := by cases r <;> rfl
@[simp] theorem State.setShadow_cosPhi (s : State) (r : PowerReg) (w : Word) : (s.setShadow r w).cosPhi = s.cosPhi := by cases r <;> rfl
@[simp] theorem State.setShadow_sinPhi (s : State) (r : PowerReg) (w : Word) : (s.setShadow r w).sinPhi = s.sinPhi := by cases r <;> rfl
@[simp] theorem State.setShadow_cosTheta (s : State) (r : PowerReg) (w : Word) : (s.setShadow r w).cosTheta = s.cosTheta := by cases r <;> rfl
@[simp] theorem State.setShadow_sinTheta (s : State) (r : PowerReg) (w : Word) : (s.setShadow r w).sinTheta = s.sinTheta := by cases r <;> rfl
@[simp] theorem State.setShadow_carrierPower (s : State) (r : PowerReg) (w : Word) : (s.setShadow r w).carrierPower = s.carrierPower := by cases r <;> rfl
@[simp] theorem State.setShadow_noisePower (s : State) (r : PowerReg) (w : Word) : (s.setShadow r w).noisePower = s.noisePower := by cases r <;> rfl
@[simp] theorem State.setShadow_mem (s : State) (r : PowerReg) (w : Word) : (s.setShadow r w).mem = s.mem := by cases r <;> rfl
@[simp] theorem State.setShadow_mfdlI (s : State) (r : PowerReg) (w : Word) : (s.setShadow r w).mfdlI = s.mfdlI := by cases r <;> rfl
@[simp] theorem State.setShadow_mfdlQ (s : State) (r : PowerReg) (w : Word) : (s.setShadow r w).mfdlQ = s.mfdlQ := by cases r <;> rfl
@[simp] theorem State.setShadow_rsdlI (s : State) (r : PowerReg) (w : Word) : (s.setShadow r w).rsdlI = s.rsdlI := by cases r <;> rfl
@[simp] theorem State.setShadow_rsdlQ (s : State) (r : PowerReg) (w : Word) : (s.setShadow r w).rsdlQ = s.rsdlQ := by cases r <;> rfl
@[simp] theorem State.setShadow_fifo (s : State) (r : PowerReg) (w : Word) : (s.setShadow r w).fifo = s.fifo := by cases r <;> rfl
@[simp] theorem State.setShadow_readData (s : State) (r : PowerReg) (w : Word) : (s.setShadow r w).readData = s.readData := by cases r <;> rfl
@[simp] theorem State.setShadow_draws (s : State) (r : PowerReg) (w : Word) : (s.setShadow r w).draws = s.draws := by cases r <;> rfl
@[simp] theorem State.setShadow_inputs (s : State) (r : PowerReg) (w : Word) : (s.setShadow r w).inputs = s.inputs := by cases r <;> rfl
@[simp] theorem State.setShadow_powerOns (s : State) (r : PowerReg) (w : Word) : (s.setShadow r w).powerOns = s.powerOns := by cases r <;> rfl
@[simp] theorem State.shadow_setShadow_self (s : State) (r : PowerReg) (w : Word) : (s.setShadow r w).shadow r = w := by cases r <;> rfl
theorem State.shadow_setShadow_other (s : State) (r r' : PowerReg) (w : Word) (h : r' ≠ r) : (s.setShadow r w).shadow r' = s.shadow r' := by
  cases r <;> cases r' <;> first | rfl | exact absurd rfl h

/-! `supplyDraws`: draws presented at the port -/

@[simp] theorem State.supplyDraws_done (s : State) (ds : List Draw) : (s.supplyDraws ds).done = s.done := rfl
@[simp] theorem State.supplyDraws_errCmd (s : State) (ds : List Draw) : (s.supplyDraws ds).errCmd = s.errCmd := rfl
@[simp] theorem State.supplyDraws_errBusy (s : State) (ds : List Draw) : (s.supplyDraws ds).errBusy = s.errBusy := rfl
@[simp] theorem State.supplyDraws_errCoef (s : State) (ds : List Draw) : (s.supplyDraws ds).errCoef = s.errCoef := rfl
@[simp] theorem State.supplyDraws_errAddr (s : State) (ds : List Draw) : (s.supplyDraws ds).errAddr = s.errAddr := rfl
@[simp] theorem State.supplyDraws_errFifo (s : State) (ds : List Draw) : (s.supplyDraws ds).errFifo = s.errFifo := rfl
@[simp] theorem State.supplyDraws_errOvf (s : State) (ds : List Draw) : (s.supplyDraws ds).errOvf = s.errOvf := rfl
@[simp] theorem State.supplyDraws_errSat (s : State) (ds : List Draw) : (s.supplyDraws ds).errSat = s.errSat := rfl
@[simp] theorem State.supplyDraws_irqEn (s : State) (ds : List Draw) : (s.supplyDraws ds).irqEn = s.irqEn := rfl
@[simp] theorem State.supplyDraws_k (s : State) (ds : List Draw) : (s.supplyDraws ds).k = s.k := rfl
@[simp] theorem State.supplyDraws_snrScale (s : State) (ds : List Draw) : (s.supplyDraws ds).snrScale = s.snrScale := rfl
@[simp] theorem State.supplyDraws_delayIndex (s : State) (ds : List Draw) : (s.supplyDraws ds).delayIndex = s.delayIndex := rfl
@[simp] theorem State.supplyDraws_stepsLeft (s : State) (ds : List Draw) : (s.supplyDraws ds).stepsLeft = s.stepsLeft := rfl
@[simp] theorem State.supplyDraws_sampleCount (s : State) (ds : List Draw) : (s.supplyDraws ds).sampleCount = s.sampleCount := rfl
@[simp] theorem State.supplyDraws_drawCount (s : State) (ds : List Draw) : (s.supplyDraws ds).drawCount = s.drawCount := rfl
@[simp] theorem State.supplyDraws_outLastI (s : State) (ds : List Draw) : (s.supplyDraws ds).outLastI = s.outLastI := rfl
@[simp] theorem State.supplyDraws_outLastQ (s : State) (ds : List Draw) : (s.supplyDraws ds).outLastQ = s.outLastQ := rfl
@[simp] theorem State.supplyDraws_dcI (s : State) (ds : List Draw) : (s.supplyDraws ds).dcI = s.dcI := rfl
@[simp] theorem State.supplyDraws_dcQ (s : State) (ds : List Draw) : (s.supplyDraws ds).dcQ = s.dcQ := rfl
@[simp] theorem State.supplyDraws_gainImb (s : State) (ds : List Draw) : (s.supplyDraws ds).gainImb = s.gainImb := rfl
@[simp] theorem State.supplyDraws_cosPhi (s : State) (ds : List Draw) : (s.supplyDraws ds).cosPhi = s.cosPhi := rfl
@[simp] theorem State.supplyDraws_sinPhi (s : State) (ds : List Draw) : (s.supplyDraws ds).sinPhi = s.sinPhi := rfl
@[simp] theorem State.supplyDraws_cosTheta (s : State) (ds : List Draw) : (s.supplyDraws ds).cosTheta = s.cosTheta := rfl
@[simp] theorem State.supplyDraws_sinTheta (s : State) (ds : List Draw) : (s.supplyDraws ds).sinTheta = s.sinTheta := rfl
@[simp] theorem State.supplyDraws_carrierPower (s : State) (ds : List Draw) : (s.supplyDraws ds).carrierPower = s.carrierPower := rfl
@[simp] theorem State.supplyDraws_noisePower (s : State) (ds : List Draw) : (s.supplyDraws ds).noisePower = s.noisePower := rfl
@[simp] theorem State.supplyDraws_shadowCp (s : State) (ds : List Draw) : (s.supplyDraws ds).shadowCp = s.shadowCp := rfl
@[simp] theorem State.supplyDraws_shadowNp (s : State) (ds : List Draw) : (s.supplyDraws ds).shadowNp = s.shadowNp := rfl
@[simp] theorem State.supplyDraws_shadowSnr (s : State) (ds : List Draw) : (s.supplyDraws ds).shadowSnr = s.shadowSnr := rfl
@[simp] theorem State.supplyDraws_mem (s : State) (ds : List Draw) : (s.supplyDraws ds).mem = s.mem := rfl
@[simp] theorem State.supplyDraws_mfdlI (s : State) (ds : List Draw) : (s.supplyDraws ds).mfdlI = s.mfdlI := rfl
@[simp] theorem State.supplyDraws_mfdlQ (s : State) (ds : List Draw) : (s.supplyDraws ds).mfdlQ = s.mfdlQ := rfl
@[simp] theorem State.supplyDraws_rsdlI (s : State) (ds : List Draw) : (s.supplyDraws ds).rsdlI = s.rsdlI := rfl
@[simp] theorem State.supplyDraws_rsdlQ (s : State) (ds : List Draw) : (s.supplyDraws ds).rsdlQ = s.rsdlQ := rfl
@[simp] theorem State.supplyDraws_fifo (s : State) (ds : List Draw) : (s.supplyDraws ds).fifo = s.fifo := rfl
@[simp] theorem State.supplyDraws_readData (s : State) (ds : List Draw) : (s.supplyDraws ds).readData = s.readData := rfl
@[simp] theorem State.supplyDraws_draws (s : State) (ds : List Draw) : (s.supplyDraws ds).draws = s.draws ++ ds := rfl
@[simp] theorem State.supplyDraws_inputs (s : State) (ds : List Draw) : (s.supplyDraws ds).inputs = s.inputs := rfl
@[simp] theorem State.supplyDraws_powerOns (s : State) (ds : List Draw) : (s.supplyDraws ds).powerOns = s.powerOns := rfl

/-! `withNextCycle`: a transaction in front of the inputs -/

@[simp] theorem State.withNextCycle_done (s : State) (b : BusCycle) : (s.withNextCycle b).done = s.done := rfl
@[simp] theorem State.withNextCycle_errCmd (s : State) (b : BusCycle) : (s.withNextCycle b).errCmd = s.errCmd := rfl
@[simp] theorem State.withNextCycle_errBusy (s : State) (b : BusCycle) : (s.withNextCycle b).errBusy = s.errBusy := rfl
@[simp] theorem State.withNextCycle_errCoef (s : State) (b : BusCycle) : (s.withNextCycle b).errCoef = s.errCoef := rfl
@[simp] theorem State.withNextCycle_errAddr (s : State) (b : BusCycle) : (s.withNextCycle b).errAddr = s.errAddr := rfl
@[simp] theorem State.withNextCycle_errFifo (s : State) (b : BusCycle) : (s.withNextCycle b).errFifo = s.errFifo := rfl
@[simp] theorem State.withNextCycle_errOvf (s : State) (b : BusCycle) : (s.withNextCycle b).errOvf = s.errOvf := rfl
@[simp] theorem State.withNextCycle_errSat (s : State) (b : BusCycle) : (s.withNextCycle b).errSat = s.errSat := rfl
@[simp] theorem State.withNextCycle_irqEn (s : State) (b : BusCycle) : (s.withNextCycle b).irqEn = s.irqEn := rfl
@[simp] theorem State.withNextCycle_k (s : State) (b : BusCycle) : (s.withNextCycle b).k = s.k := rfl
@[simp] theorem State.withNextCycle_snrScale (s : State) (b : BusCycle) : (s.withNextCycle b).snrScale = s.snrScale := rfl
@[simp] theorem State.withNextCycle_delayIndex (s : State) (b : BusCycle) : (s.withNextCycle b).delayIndex = s.delayIndex := rfl
@[simp] theorem State.withNextCycle_stepsLeft (s : State) (b : BusCycle) : (s.withNextCycle b).stepsLeft = s.stepsLeft := rfl
@[simp] theorem State.withNextCycle_sampleCount (s : State) (b : BusCycle) : (s.withNextCycle b).sampleCount = s.sampleCount := rfl
@[simp] theorem State.withNextCycle_drawCount (s : State) (b : BusCycle) : (s.withNextCycle b).drawCount = s.drawCount := rfl
@[simp] theorem State.withNextCycle_outLastI (s : State) (b : BusCycle) : (s.withNextCycle b).outLastI = s.outLastI := rfl
@[simp] theorem State.withNextCycle_outLastQ (s : State) (b : BusCycle) : (s.withNextCycle b).outLastQ = s.outLastQ := rfl
@[simp] theorem State.withNextCycle_dcI (s : State) (b : BusCycle) : (s.withNextCycle b).dcI = s.dcI := rfl
@[simp] theorem State.withNextCycle_dcQ (s : State) (b : BusCycle) : (s.withNextCycle b).dcQ = s.dcQ := rfl
@[simp] theorem State.withNextCycle_gainImb (s : State) (b : BusCycle) : (s.withNextCycle b).gainImb = s.gainImb := rfl
@[simp] theorem State.withNextCycle_cosPhi (s : State) (b : BusCycle) : (s.withNextCycle b).cosPhi = s.cosPhi := rfl
@[simp] theorem State.withNextCycle_sinPhi (s : State) (b : BusCycle) : (s.withNextCycle b).sinPhi = s.sinPhi := rfl
@[simp] theorem State.withNextCycle_cosTheta (s : State) (b : BusCycle) : (s.withNextCycle b).cosTheta = s.cosTheta := rfl
@[simp] theorem State.withNextCycle_sinTheta (s : State) (b : BusCycle) : (s.withNextCycle b).sinTheta = s.sinTheta := rfl
@[simp] theorem State.withNextCycle_carrierPower (s : State) (b : BusCycle) : (s.withNextCycle b).carrierPower = s.carrierPower := rfl
@[simp] theorem State.withNextCycle_noisePower (s : State) (b : BusCycle) : (s.withNextCycle b).noisePower = s.noisePower := rfl
@[simp] theorem State.withNextCycle_shadowCp (s : State) (b : BusCycle) : (s.withNextCycle b).shadowCp = s.shadowCp := rfl
@[simp] theorem State.withNextCycle_shadowNp (s : State) (b : BusCycle) : (s.withNextCycle b).shadowNp = s.shadowNp := rfl
@[simp] theorem State.withNextCycle_shadowSnr (s : State) (b : BusCycle) : (s.withNextCycle b).shadowSnr = s.shadowSnr := rfl
@[simp] theorem State.withNextCycle_mem (s : State) (b : BusCycle) : (s.withNextCycle b).mem = s.mem := rfl
@[simp] theorem State.withNextCycle_mfdlI (s : State) (b : BusCycle) : (s.withNextCycle b).mfdlI = s.mfdlI := rfl
@[simp] theorem State.withNextCycle_mfdlQ (s : State) (b : BusCycle) : (s.withNextCycle b).mfdlQ = s.mfdlQ := rfl
@[simp] theorem State.withNextCycle_rsdlI (s : State) (b : BusCycle) : (s.withNextCycle b).rsdlI = s.rsdlI := rfl
@[simp] theorem State.withNextCycle_rsdlQ (s : State) (b : BusCycle) : (s.withNextCycle b).rsdlQ = s.rsdlQ := rfl
@[simp] theorem State.withNextCycle_fifo (s : State) (b : BusCycle) : (s.withNextCycle b).fifo = s.fifo := rfl
@[simp] theorem State.withNextCycle_readData (s : State) (b : BusCycle) : (s.withNextCycle b).readData = s.readData := rfl
@[simp] theorem State.withNextCycle_draws (s : State) (b : BusCycle) : (s.withNextCycle b).draws = s.draws := rfl
@[simp] theorem State.withNextCycle_inputs (s : State) (b : BusCycle) : (s.withNextCycle b).inputs = .host b :: s.inputs := rfl
@[simp] theorem State.withNextCycle_powerOns (s : State) (b : BusCycle) : (s.withNextCycle b).powerOns = s.powerOns := rfl

/-! `powerOn`: the reset input -/

@[simp] theorem State.powerOn_done (s : State) : (s.powerOn).done = State.reset.done := rfl
@[simp] theorem State.powerOn_errCmd (s : State) : (s.powerOn).errCmd = State.reset.errCmd := rfl
@[simp] theorem State.powerOn_errBusy (s : State) : (s.powerOn).errBusy = State.reset.errBusy := rfl
@[simp] theorem State.powerOn_errCoef (s : State) : (s.powerOn).errCoef = State.reset.errCoef := rfl
@[simp] theorem State.powerOn_errAddr (s : State) : (s.powerOn).errAddr = State.reset.errAddr := rfl
@[simp] theorem State.powerOn_errFifo (s : State) : (s.powerOn).errFifo = State.reset.errFifo := rfl
@[simp] theorem State.powerOn_errOvf (s : State) : (s.powerOn).errOvf = State.reset.errOvf := rfl
@[simp] theorem State.powerOn_errSat (s : State) : (s.powerOn).errSat = State.reset.errSat := rfl
@[simp] theorem State.powerOn_irqEn (s : State) : (s.powerOn).irqEn = State.reset.irqEn := rfl
@[simp] theorem State.powerOn_k (s : State) : (s.powerOn).k = State.reset.k := rfl
@[simp] theorem State.powerOn_snrScale (s : State) : (s.powerOn).snrScale = State.reset.snrScale := rfl
@[simp] theorem State.powerOn_delayIndex (s : State) : (s.powerOn).delayIndex = State.reset.delayIndex := rfl
@[simp] theorem State.powerOn_stepsLeft (s : State) : (s.powerOn).stepsLeft = State.reset.stepsLeft := rfl
@[simp] theorem State.powerOn_sampleCount (s : State) : (s.powerOn).sampleCount = State.reset.sampleCount := rfl
@[simp] theorem State.powerOn_drawCount (s : State) : (s.powerOn).drawCount = State.reset.drawCount := rfl
@[simp] theorem State.powerOn_outLastI (s : State) : (s.powerOn).outLastI = State.reset.outLastI := rfl
@[simp] theorem State.powerOn_outLastQ (s : State) : (s.powerOn).outLastQ = State.reset.outLastQ := rfl
@[simp] theorem State.powerOn_dcI (s : State) : (s.powerOn).dcI = State.reset.dcI := rfl
@[simp] theorem State.powerOn_dcQ (s : State) : (s.powerOn).dcQ = State.reset.dcQ := rfl
@[simp] theorem State.powerOn_gainImb (s : State) : (s.powerOn).gainImb = State.reset.gainImb := rfl
@[simp] theorem State.powerOn_cosPhi (s : State) : (s.powerOn).cosPhi = State.reset.cosPhi := rfl
@[simp] theorem State.powerOn_sinPhi (s : State) : (s.powerOn).sinPhi = State.reset.sinPhi := rfl
@[simp] theorem State.powerOn_cosTheta (s : State) : (s.powerOn).cosTheta = State.reset.cosTheta := rfl
@[simp] theorem State.powerOn_sinTheta (s : State) : (s.powerOn).sinTheta = State.reset.sinTheta := rfl
@[simp] theorem State.powerOn_carrierPower (s : State) : (s.powerOn).carrierPower = State.reset.carrierPower := rfl
@[simp] theorem State.powerOn_noisePower (s : State) : (s.powerOn).noisePower = State.reset.noisePower := rfl
@[simp] theorem State.powerOn_shadowCp (s : State) : (s.powerOn).shadowCp = State.reset.shadowCp := rfl
@[simp] theorem State.powerOn_shadowNp (s : State) : (s.powerOn).shadowNp = State.reset.shadowNp := rfl
@[simp] theorem State.powerOn_shadowSnr (s : State) : (s.powerOn).shadowSnr = State.reset.shadowSnr := rfl
@[simp] theorem State.powerOn_mem (s : State) : (s.powerOn).mem = State.reset.mem := rfl
@[simp] theorem State.powerOn_mfdlI (s : State) : (s.powerOn).mfdlI = State.reset.mfdlI := rfl
@[simp] theorem State.powerOn_mfdlQ (s : State) : (s.powerOn).mfdlQ = State.reset.mfdlQ := rfl
@[simp] theorem State.powerOn_rsdlI (s : State) : (s.powerOn).rsdlI = State.reset.rsdlI := rfl
@[simp] theorem State.powerOn_rsdlQ (s : State) : (s.powerOn).rsdlQ = State.reset.rsdlQ := rfl
@[simp] theorem State.powerOn_fifo (s : State) : (s.powerOn).fifo = State.reset.fifo := rfl
@[simp] theorem State.powerOn_readData (s : State) : (s.powerOn).readData = s.readData := rfl
@[simp] theorem State.powerOn_draws (s : State) : (s.powerOn).draws = s.draws := rfl
@[simp] theorem State.powerOn_inputs (s : State) : (s.powerOn).inputs = s.inputs := rfl
@[simp] theorem State.powerOn_powerOns (s : State) : (s.powerOn).powerOns = s.powerOns + 1 := rfl

/-! `commitSample`: the end of a sample step -/

@[simp] theorem State.commitSample_done (s : State) (v : SampleValues) : (s.commitSample v).done = (s.done || decide (s.stepsLeft = 1)) := rfl
@[simp] theorem State.commitSample_errCmd (s : State) (v : SampleValues) : (s.commitSample v).errCmd = s.errCmd := rfl
@[simp] theorem State.commitSample_errBusy (s : State) (v : SampleValues) : (s.commitSample v).errBusy = s.errBusy := rfl
@[simp] theorem State.commitSample_errCoef (s : State) (v : SampleValues) : (s.commitSample v).errCoef = s.errCoef := rfl
@[simp] theorem State.commitSample_errAddr (s : State) (v : SampleValues) : (s.commitSample v).errAddr = s.errAddr := rfl
@[simp] theorem State.commitSample_errFifo (s : State) (v : SampleValues) : (s.commitSample v).errFifo = s.errFifo := rfl
@[simp] theorem State.commitSample_errOvf (s : State) (v : SampleValues) : (s.commitSample v).errOvf = (s.errOvf || v.ovf) := rfl
@[simp] theorem State.commitSample_errSat (s : State) (v : SampleValues) : (s.commitSample v).errSat = (s.errSat || v.sat) := rfl
@[simp] theorem State.commitSample_irqEn (s : State) (v : SampleValues) : (s.commitSample v).irqEn = s.irqEn := rfl
@[simp] theorem State.commitSample_k (s : State) (v : SampleValues) : (s.commitSample v).k = s.k := rfl
@[simp] theorem State.commitSample_snrScale (s : State) (v : SampleValues) : (s.commitSample v).snrScale = s.snrScale := rfl
@[simp] theorem State.commitSample_delayIndex (s : State) (v : SampleValues) : (s.commitSample v).delayIndex = s.delayIndex := rfl
@[simp] theorem State.commitSample_stepsLeft (s : State) (v : SampleValues) : (s.commitSample v).stepsLeft = s.stepsLeft - 1 := rfl
@[simp] theorem State.commitSample_sampleCount (s : State) (v : SampleValues) : (s.commitSample v).sampleCount = s.sampleCount + 1 := rfl
@[simp] theorem State.commitSample_drawCount (s : State) (v : SampleValues) : (s.commitSample v).drawCount = s.drawCount + BitVec.ofNat 32 s.drawsNeeded := rfl
@[simp] theorem State.commitSample_outLastI (s : State) (v : SampleValues) : (s.commitSample v).outLastI = v.y.i := rfl
@[simp] theorem State.commitSample_outLastQ (s : State) (v : SampleValues) : (s.commitSample v).outLastQ = v.y.q := rfl
@[simp] theorem State.commitSample_dcI (s : State) (v : SampleValues) : (s.commitSample v).dcI = s.dcI := rfl
@[simp] theorem State.commitSample_dcQ (s : State) (v : SampleValues) : (s.commitSample v).dcQ = s.dcQ := rfl
@[simp] theorem State.commitSample_gainImb (s : State) (v : SampleValues) : (s.commitSample v).gainImb = s.gainImb := rfl
@[simp] theorem State.commitSample_cosPhi (s : State) (v : SampleValues) : (s.commitSample v).cosPhi = s.cosPhi := rfl
@[simp] theorem State.commitSample_sinPhi (s : State) (v : SampleValues) : (s.commitSample v).sinPhi = s.sinPhi := rfl
@[simp] theorem State.commitSample_cosTheta (s : State) (v : SampleValues) : (s.commitSample v).cosTheta = s.cosTheta := rfl
@[simp] theorem State.commitSample_sinTheta (s : State) (v : SampleValues) : (s.commitSample v).sinTheta = s.sinTheta := rfl
@[simp] theorem State.commitSample_carrierPower (s : State) (v : SampleValues) : (s.commitSample v).carrierPower = (if decisionInstant s.sampleCount then s.carrierAfter v.sym else s.carrierPower) := rfl
@[simp] theorem State.commitSample_noisePower (s : State) (v : SampleValues) : (s.commitSample v).noisePower = s.noiseAfter v.noise := rfl
@[simp] theorem State.commitSample_shadowCp (s : State) (v : SampleValues) : (s.commitSample v).shadowCp = s.shadowCp := rfl
@[simp] theorem State.commitSample_shadowNp (s : State) (v : SampleValues) : (s.commitSample v).shadowNp = s.shadowNp := rfl
@[simp] theorem State.commitSample_shadowSnr (s : State) (v : SampleValues) : (s.commitSample v).shadowSnr = s.shadowSnr := rfl
@[simp] theorem State.commitSample_mem (s : State) (v : SampleValues) : (s.commitSample v).mem = s.mem := rfl
@[simp] theorem State.commitSample_mfdlI (s : State) (v : SampleValues) : (s.commitSample v).mfdlI = v.matched.i.dl := rfl
@[simp] theorem State.commitSample_mfdlQ (s : State) (v : SampleValues) : (s.commitSample v).mfdlQ = v.matched.q.dl := rfl
@[simp] theorem State.commitSample_rsdlI (s : State) (v : SampleValues) : (s.commitSample v).rsdlI = v.resampled.i.dl := rfl
@[simp] theorem State.commitSample_rsdlQ (s : State) (v : SampleValues) : (s.commitSample v).rsdlQ = v.resampled.q.dl := rfl
@[simp] theorem State.commitSample_fifo (s : State) (v : SampleValues) : (s.commitSample v).fifo = s.fifo ++ [outputWord v.y.i, outputWord v.y.q] := rfl
@[simp] theorem State.commitSample_readData (s : State) (v : SampleValues) : (s.commitSample v).readData = s.readData := rfl
@[simp] theorem State.commitSample_draws (s : State) (v : SampleValues) : (s.commitSample v).draws = s.draws.drop s.drawsNeeded := rfl
@[simp] theorem State.commitSample_inputs (s : State) (v : SampleValues) : (s.commitSample v).inputs = s.inputs := rfl
@[simp] theorem State.commitSample_powerOns (s : State) (v : SampleValues) : (s.commitSample v).powerOns = s.powerOns := rfl

end Sys2Proof.Machine
end

