-- ==== Sys2Proof/Laws/Ops.lean ====
section
/-!
SUPPORT. What each shared operation can do, said once: the derived status bits, the address map, the commands, the two
bus transactions, the engine's turn and the step.
-/

namespace Sys2Proof.Machine

/-! ### Derived bits -/

theorem State.busy_iff (s : State) : s.busy = true ↔ s.stepsLeft ≠ 0 := by simp [State.busy]

theorem State.busy_eq_false_iff (s : State) : s.busy = false ↔ s.stepsLeft = 0 := by simp [State.busy]

theorem State.mfLoaded_iff (s : State) : s.mfLoaded = true ↔ ∀ k < 2048, s.mem.written (0x2000 + 4 * k) = true :=
  Memory.allWritten_iff _ _ _

theorem State.rsLoaded_iff (s : State) : s.rsLoaded = true ↔ ∀ j < 1152, s.mem.written (0x4000 + 4 * j) = true :=
  Memory.allWritten_iff _ _ _

theorem State.sampleEnabled_iff (s : State) :
    s.sampleEnabled = true ↔ s.stepsLeft ≠ 0 ∧ s.fifo.length + 2 ≤ 32 ∧ s.drawsNeeded ≤ s.draws.length := by
  simp [State.sampleEnabled, State.busy_iff, Config.outFifoDepth, and_assoc]

/-! ### The coefficient lists -/

@[simp] theorem State.mfCoefs_length (s : State) : s.mfCoefs.length = 2048 := Memory.readWords_length _ _ _ _

@[simp] theorem State.rsBank_length (s : State) : s.rsBank.length = 9 := Memory.readWords_length _ _ _ _

theorem State.mfCoefs_getElem (s : State) (k : Nat) (h : k < s.mfCoefs.length) :
    s.mfCoefs[k] = s.coefWord (0x2000 + 4 * k) := Memory.readWords_getElem _ _ _ _ _ h

theorem State.rsBank_getElem (s : State) (t : Nat) (h : t < s.rsBank.length) :
    s.rsBank[t] = s.coefWord (bankAddr s.delayIndex + 4 * t) := Memory.readWords_getElem _ _ _ _ _ h

@[simp] theorem insertSample_length {w : Nat} (x : BitVec w) (dl : List (BitVec w)) :
    (insertSample x dl).length = dl.length := by simp [insertSample]

/-! ### The address map -/

theorem inCoefficients_iff (a : Nat) : inCoefficients a = true ↔ 0x2000 ≤ a ∧ a < 0x5200 := by
  simp [inCoefficients, Config.mfBase, Config.coefEnd]

theorem locate_misaligned (addr : Addr) (h : addr.toNat % 4 ≠ 0) : locate addr = none := by simp [locate, h]

theorem locate_coefficient (addr : Addr) (h : addr.toNat % 4 = 0) (hc : inCoefficients addr.toNat = true) :
    locate addr = some (.coef addr.toNat) := by simp [locate, h, hc]

theorem locate_register (addr : Addr) (h : addr.toNat % 4 = 0) (hc : inCoefficients addr.toNat = false) :
    locate addr = registerMap.lookup addr.toNat := by simp [locate, h, hc]

theorem List.lookup_mem {α β : Type} [BEq α] [LawfulBEq α] (l : List (α × β)) (a : α) (b : β)
    (h : l.lookup a = some b) : (a, b) ∈ l := by
  induction l with
  | nil => simp at h
  | cons c rest ih =>
    obtain ⟨c, d⟩ := c
    rw [List.lookup_cons] at h
    split at h
    · rename_i hc
      have hac : a = c := by simpa using hc
      have hdb : d = b := by simpa using h
      simp [hac, hdb]
    · exact List.mem_cons_of_mem _ (ih h)

/-- A location is a coefficient at its own word address, or a row of the register map. -/
theorem locate_cases (addr : Addr) (l : Loc) (h : locate addr = some l) :
    addr.toNat % 4 = 0 ∧
    ((inCoefficients addr.toNat = true ∧ l = .coef addr.toNat) ∨
     (inCoefficients addr.toNat = false ∧ (addr.toNat, l) ∈ registerMap)) := by
  by_cases h4 : addr.toNat % 4 = 0
  · refine ⟨h4, ?_⟩
    by_cases hc : inCoefficients addr.toNat = true
    · rw [locate_coefficient addr h4 hc] at h
      exact .inl ⟨hc, (Option.some.inj h).symm⟩
    · have hc' : inCoefficients addr.toNat = false := by simpa using hc
      rw [locate_register addr h4 hc'] at h
      exact .inr ⟨hc', List.lookup_mem _ _ _ h⟩
  · rw [locate_misaligned addr h4] at h
    exact absurd h (by simp)

theorem locate_coef_inv (addr : Addr) (a : Nat) (h : locate addr = some (.coef a)) :
    a = addr.toNat ∧ a % 4 = 0 ∧ inCoefficients a = true := by
  obtain ⟨h4, ⟨hc, hl⟩ | ⟨-, hm⟩⟩ := locate_cases addr _ h
  · obtain rfl : a = addr.toNat := by simpa using hl
    exact ⟨rfl, h4, hc⟩
  · simp [registerMap] at hm

/-! ### The commands -/

/-- A command refused while busy only flags; otherwise it has its effect (R145). -/
theorem State.unlessBusy_cases (s t : State) :
    (s.busy = true ∧ s.unlessBusy t = s.flag .busy) ∨ (s.busy = false ∧ s.unlessBusy t = t) := by
  by_cases h : s.busy = true
  · exact .inl ⟨h, by simp [State.unlessBusy, h]⟩
  · have h' : s.busy = false := by simpa using h
    exact .inr ⟨h', by simp [State.unlessBusy, h']⟩

/-- STEP at BUSY = 0: unloaded, zero count, or started (R151, R152). -/
theorem State.startStep_cases (s : State) (n : BitVec 24) :
    ((s.mfLoaded = false ∨ s.rsLoaded = false) ∧ s.startStep n = s.flag .coef) ∨
    (s.mfLoaded = true ∧ s.rsLoaded = true ∧ n = 0 ∧ s.startStep n = s) ∨
    (s.mfLoaded = true ∧ s.rsLoaded = true ∧ n ≠ 0 ∧
      s.startStep n = { s with stepsLeft := n, done := false }) := by
  by_cases hm : s.mfLoaded = true
  · by_cases hr : s.rsLoaded = true
    · by_cases hn : n = 0
      · exact .inr (.inl ⟨hm, hr, hn, by simp [State.startStep, hm, hr, hn]⟩)
      · exact .inr (.inr ⟨hm, hr, hn, by rw [State.startStep, if_pos (by simp [hm, hr]), if_neg hn]⟩)
    · have hr' : s.rsLoaded = false := by simpa using hr
      exact .inl ⟨.inr hr', by simp [State.startStep, hr']⟩
  · have hm' : s.mfLoaded = false := by simpa using hm
    exact .inl ⟨.inl hm', by simp [State.startStep, hm']⟩

/-- ABORT: a running command stops, otherwise nothing (R154). -/
theorem State.abortRun_cases (s : State) :
    (s.busy = true ∧ s.abortRun = { s with stepsLeft := 0, done := true }) ∨ (s.busy = false ∧ s.abortRun = s) := by
  by_cases h : s.busy = true
  · exact .inl ⟨h, by simp [State.abortRun, h]⟩
  · have h' : s.busy = false := by simpa using h
    exact .inr ⟨h', by simp [State.abortRun, h']⟩

/-- The command of a word, by OPC (R150). -/
theorem State.command_cases (s : State) (c : Word) :
    (opcOf c = 0 ∧ s.command c = s) ∨ (opcOf c = 1 ∧ s.command c = s.initRun) ∨
    (opcOf c = 2 ∧ s.command c = s.startStep (argOf c)) ∨ (opcOf c = 3 ∧ s.command c = s.abortRun) ∨
    (4 ≤ (opcOf c).toNat ∧ s.command c = s.flag .cmd) := by
  rcases decodeCommand_cases c with h | h | h | h | ⟨h, -⟩
  · exact .inl ⟨h.1, by simp [State.command, h.1]⟩
  · exact .inr (.inl ⟨h.1, by simp [State.command, h.1]⟩)
  · exact .inr (.inr (.inl ⟨h.1, by simp [State.command, h.1]⟩))
  · exact .inr (.inr (.inr (.inl ⟨h.1, by simp [State.command, h.1]⟩)))
  · refine .inr (.inr (.inr (.inr ⟨h, ?_⟩)))
    rw [State.command]
    split <;> first | rfl | omega

/-! ### The bus transactions -/

/-- A read of OUT_FIFO pops a word or flags (R46). -/
theorem State.popFifo_cases (s : State) :
    (s.fifo = [] ∧ s.popFifo = s.flag .fifo) ∨
    (∃ w rest, s.fifo = w :: rest ∧ s.popFifo = { s with fifo := rest }) := by
  cases h : s.fifo with
  | nil => exact .inl ⟨rfl, by simp [State.popFifo, h]⟩
  | cons w rest => exact .inr ⟨w, rest, rfl, by simp [State.popFifo, h]⟩

/-- A BusRead is a bad access or a read of a location (R140). -/
theorem State.busRead_cases (s : State) (addr : Addr) :
    (locate addr = none ∧ s.busRead addr = (s.flag .addr).answer 0) ∨
    (∃ l, locate addr = some l ∧ s.busRead addr = (s.readEffect l).answer (s.readValue l)) := by
  cases h : locate addr with
  | none => exact .inl ⟨rfl, by simp [State.busRead, h]⟩
  | some l => exact .inr ⟨l, rfl, by simp [State.busRead, h]⟩

/-- What a read of a location does besides answering (R88). -/
theorem State.readEffect_cases (s : State) (l : Loc) :
    s.readEffect l = s ∨ (l = .outFifo ∧ s.readEffect l = s.popFifo) ∨
    (∃ r, l = .power r .lo ∧ s.readEffect l = s.setShadow r (halfOf (s.powerPattern r) .hi)) := by
  cases l with
  | outFifo => exact .inr (.inl ⟨rfl, rfl⟩)
  | power r h =>
    cases h with
    | lo => exact .inr (.inr ⟨r, rfl, rfl⟩)
    | hi => exact .inl rfl
  | _ => exact .inl rfl

/-- A BusWrite is a bad access, refused as busy, or accepted (R141, R342). -/
theorem State.busWrite_cases (s : State) (addr : Addr) (data : Word) :
    ((locate addr = none ∨ ∃ l, locate addr = some l ∧ l.readOnly = true) ∧ s.busWrite addr data = s.flag .addr) ∨
    (∃ l, locate addr = some l ∧ l.readOnly = false ∧ s.busy = true ∧ l.lockedWhileBusy data = true ∧
      s.busWrite addr data = s.flag .busy) ∨
    (∃ l, locate addr = some l ∧ l.readOnly = false ∧ (s.busy = false ∨ l.lockedWhileBusy data = false) ∧
      s.busWrite addr data = s.writeAccepted data l) := by
  cases h : locate addr with
  | none => exact .inl ⟨.inl rfl, by simp [State.busWrite, h]⟩
  | some l =>
    by_cases hro : l.readOnly = true
    · exact .inl ⟨.inr ⟨l, rfl, hro⟩, by simp [State.busWrite, h, hro]⟩
    · have hro' : l.readOnly = false := by simpa using hro
      by_cases hb : s.busy = true ∧ l.lockedWhileBusy data = true
      · exact .inr (.inl ⟨l, rfl, hro', hb.1, hb.2, by simp [State.busWrite, h, hro', hb.1, hb.2]⟩)
      · have hb' : (s.busy && l.lockedWhileBusy data) = false := by simpa using hb
        refine .inr (.inr ⟨l, rfl, hro', by simpa only [Bool.and_eq_false_iff] using hb', ?_⟩)
        simp only [State.busWrite, h, hro', hb']
        simp

/-! ### The engine, and the step -/

/-- The engine performs its next sample or holds (R313). -/
theorem State.engineTurn_cases (s : State) :
    (s.sampleEnabled = true ∧ s.engineTurn = s.sampleStep) ∨ (s.sampleEnabled = false ∧ s.engineTurn = s) := by
  by_cases h : s.sampleEnabled = true
  · exact .inl ⟨h, by simp [State.engineTurn, h]⟩
  · have h' : s.sampleEnabled = false := by simpa using h
    exact .inr ⟨h', by simp [State.engineTurn, h']⟩

/-- The next state of an instruction, which every instruction has (R330). -/
def nextOf (i : Instr) (s : State) : State :=
  match i with
  | .nop _ => s
  | .init _ => s.unlessBusy s.initRun
  | .step n => s.unlessBusy (s.startStep n)
  | .abort _ => s.abortRun
  | .reserved _ _ => s.flag .cmd
  | .busRead addr => s.busRead addr
  | .busWrite addr data => s.busWrite addr data

theorem exec_eq_nextOf (i : Instr) (s : State) : exec i s = .next (nextOf i s) := by cases i <;> rfl

/-- Every step, by the event it answers. -/
theorem step_cases (s t : State) (h : step s = .next t) :
    (s.inputs = [] ∧ t = s.engineTurn) ∨
    (∃ b rest, s.inputs = .host b :: rest ∧ t = nextOf (decode b) { s with inputs := rest }) ∨
    (∃ rest, s.inputs = .engine :: rest ∧ t = { s with inputs := rest }.engineTurn) ∨
    (∃ ds rest, s.inputs = .supply ds :: rest ∧ t = { s with inputs := rest }.supplyDraws ds) ∨
    (∃ rest, s.inputs = .powerOn :: rest ∧ t = { s with inputs := rest }.powerOn) := by
  rw [step] at h
  split at h
  · rename_i hi
    exact .inl ⟨hi, (Host.Outcome.next.inj h).symm⟩
  · rename_i b rest hi
    rw [exec_eq_nextOf] at h
    exact .inr (.inl ⟨b, rest, hi, (Host.Outcome.next.inj h).symm⟩)
  · rename_i rest hi
    exact .inr (.inr (.inl ⟨rest, hi, (Host.Outcome.next.inj h).symm⟩))
  · rename_i ds rest hi
    exact .inr (.inr (.inr (.inl ⟨ds, rest, hi, (Host.Outcome.next.inj h).symm⟩)))
  · rename_i rest hi
    exact .inr (.inr (.inr (.inr ⟨rest, hi, (Host.Outcome.next.inj h).symm⟩)))

end Sys2Proof.Machine
end

