-- ==== Sys2Proof/Tests/Slice0.lean ====
section
/-!
SUPPORT. Tests with expected results from spec/95_test_vectors.md (each names its vector) or worked by hand from a rule;
and, for every statement with hypotheses, a concrete state and operands that meet them.
-/

open Sys2Proof Sys2Proof.Machine Sys2Proof.Claims

namespace Sys2Proof.Tests

/-! ### Well-formedness and decoding -/

/-- 0x03 is ABORT's opcode, so it is no reserved one (R111). -/
theorem test_reserved_of_a_command_is_ill_formed : (Instr.reserved 0x03 0).wellFormed = false := by decide

/-- A write to CMD is written as its command (R119). -/
theorem test_buswrite_to_cmd_is_ill_formed : (Instr.busWrite 0x0008 0).wellFormed = false := by decide

/-- V-E1, with ARG bits set as in V-C9. -/
theorem test_decode_nop : decodeTableWord 32 0b00000000101010111100110111101111 = some (.nop 0xABCDEF) := by decide

/-- V-E2. -/
theorem test_decode_init : decodeTableWord 32 0b00000001000000000000000000000000 = some (.init 0) := by decide

/-- V-E3. -/
theorem test_decode_step : decodeTableWord 32 0b00000010000000000000000100000100 = some (.step 260) := by decide

/-- V-E5. -/
theorem test_decode_abort : decodeTableWord 32 0b00000011000000000000000000000000 = some (.abort 0) := by decide

/-- V-E6. -/
theorem test_decode_reserved : decodeTableWord 32 0b00000100000000000000000000000000 = some (.reserved 0x04 0) := by
  decide

/-- R80: a read of STATUS. -/
theorem test_decode_busread : decode ⟨false, 0x0004, 0⟩ = .busRead 0x0004 := by decide

/-- V-B12's write. -/
theorem test_decode_buswrite : decode ⟨true, 0x0010, 0xFFFFFFEA⟩ = .busWrite 0x0010 0xFFFFFFEA := by decide

/-- V-E4: STEP 16777215. -/
theorem test_encode_longest_step : encode (.step 16777215) = ⟨true, 0x0008, 0x02FFFFFF⟩ := by decide

/-- V-E7: WR64 SIN_PHI, 0.5. -/
theorem test_wr64 :
    hostWr64 0x0060 0x3FE0000000000000 = [⟨true, 0x0060, 0x00000000⟩, ⟨true, 0x0064, 0x3FE00000⟩] := by decide

/-! ### States the tests use -/

/-- `n` byte cells of value `v` from address `a` on. -/
def cells (v : Byte) : Nat → Nat → Memory
  | 0, _ => []
  | n + 1, a => (a, v) :: cells v n (a + 1)

/-- All coefficients written, with zeros (programs P1 and P3). -/
def loaded : State := { State.reset with mem := cells 0 12800 0x2000 }

/-- V-C7: a command in progress. -/
def running : State := { loaded with stepsLeft := 990, sampleCount := 10 }

/-- A busy block with nothing else of note. -/
def busyState : State := { State.reset with stepsLeft := 1 }

theorem byte?_cells (v : Byte) (n a b : Nat) (h : a ≤ b) (hb : b < a + n) : (cells v n a).byte? b = some v := by
  induction n generalizing a with
  | zero => omega
  | succ n ih =>
    simp only [cells, Memory.byte?]
    by_cases hab : a = b
    · simp [hab]
    · rw [if_neg hab, if_neg (by omega)]
      exact ih _ (by omega) (by omega)

theorem mem_cells (v : Byte) (n a : Nat) (c : Host.Cell) (h : c ∈ cells v n a) : a ≤ c.1 ∧ c.1 < a + n := by
  induction n generalizing a with
  | zero => simp [cells] at h
  | succ n ih =>
    rcases List.mem_cons.1 h with rfl | h
    · simp
    · have := ih _ h; omega

theorem rising_cells (v : Byte) (n a : Nat) : (cells v n a).rising = true := by
  induction n generalizing a with
  | zero => rfl
  | succ n ih =>
    cases n with
    | zero => rfl
    | succ n => simpa [cells, Memory.rising] using ih (a + 1)

theorem written_cells (v : Byte) (a : Nat) (h : 0x2000 ≤ a) (hb : a + 3 < 0x5200) :
    (cells v 12800 0x2000).written a = true := by
  simp [Memory.written, byte?_cells v 12800 0x2000 _ (by omega : 0x2000 ≤ a) (by omega),
    byte?_cells v 12800 0x2000 _ (by omega : 0x2000 ≤ a + 1) (by omega),
    byte?_cells v 12800 0x2000 _ (by omega : 0x2000 ≤ a + 2) (by omega),
    byte?_cells v 12800 0x2000 _ (by omega : 0x2000 ≤ a + 3) (by omega)]

theorem test_loaded : Loaded loaded :=
  ⟨fun _ _ => written_cells _ _ (by omega) (by omega), fun _ _ => written_cells _ _ (by omega) (by omega)⟩

theorem test_reset_not_loaded : ¬ Loaded State.reset := fun h =>
  absurd (h.mf 0 (by decide)) (by decide)

theorem wf_cells : (cells 0 12800 0x2000).wf = true := by
  simp only [Memory.wf, Bool.and_eq_true, List.all_eq_true, rising_cells, true_and]
  intro c hc
  have := mem_cells _ _ _ c hc
  refine ⟨by simp [inCoefficients]; omega, written_cells _ _ (by omega) (by omega)⟩

/-- The state a step leaves. -/
def after (o : Host.Outcome State Fault Refusal) : State :=
  match o with
  | .next t => t
  | .fault _ => State.reset
  | .refused _ => State.reset

/-! ### The instructions -/

/-- V-C9. -/
theorem test_nop_changes_nothing : exec (.nop 0xABCDEF) busyState = .next busyState := rfl

/-- V-C11: the outcome on SAMPLE_COUNT, CARRIER_POWER and FIFO_LEVEL; K and an error bit stay. -/
theorem test_init_resets_the_run_state :
    let s := { State.reset with sampleCount := 3, carrierPower := 0x40C0000000000000, fifo := [1, 2, 3, 4, 5, 6],
                                k := 10, errOvf := true }
    exec (.init 0) s = .next { State.reset with k := 10, errOvf := true } := rfl

/-- V-C5. -/
theorem test_init_while_busy : exec (.init 0) running = .next { running with errBusy := true } := rfl

/-- V-C2: the check comes before N = 0. -/
theorem test_step_zero_unloaded : exec (.step 0) State.reset = .next { State.reset with errCoef := true } := rfl

/-- V-C4: the start. -/
theorem test_step_starts : exec (.step 3) { loaded with done := true } = .next { loaded with stepsLeft := 3 } := by
  have hm : { loaded with done := true }.mfLoaded = true := (State.mfLoaded_iff _).2 test_loaded.mf
  have hr : { loaded with done := true }.rsLoaded = true := (State.rsLoaded_iff _).2 test_loaded.rs
  simp only [exec, execStep, State.unlessBusy, State.startStep, hm, hr]
  rfl

/-- V-C7. -/
theorem test_abort_running : exec (.abort 0) running = .next { running with stepsLeft := 0, done := true } := rfl

/-- V-C8. -/
theorem test_abort_idle : exec (.abort 0) State.reset = .next State.reset := rfl

/-- V-C10. -/
theorem test_reserved_flags : exec (.reserved 0xFF 0) busyState = .next { busyState with errCmd := true } := rfl

/-- V-B19: the LO word, then the HI word from the shadow. -/
theorem test_busread_pair :
    let s := { State.reset with carrierPower := 0x40D0000000000000 }
    exec (.busRead 0x0080) s = .next { s with shadowCp := 0x40D00000 } ∧
    exec (.busRead 0x0084) { s with shadowCp := 0x40D00000 } =
      .next { s with shadowCp := 0x40D00000, readData := 0x40D00000 } := ⟨rfl, rfl⟩

/-- V-B6, and V-B15 after it: STATUS then reads 0x00001800. -/
theorem test_busread_flags :
    (after (exec (.busRead 0x0004) (after (exec (.busRead 0x002C) (after (exec (.busRead 0x0011) State.reset)))))).readData
      = 0x00001800 := by decide +kernel

/-- V-B16: MF[0], little-endian by R87. -/
theorem test_buswrite_coefficient :
    (after (exec (.busWrite 0x2000 0xFFFFFF01) State.reset)).mem
      = [(0x2000, 0x01), (0x2001, 0xFF), (0x2002, 0xFF), (0x2003, 0xFF)] := by decide +kernel

/-- V-B22: the bad-access check comes first. -/
theorem test_buswrite_misaligned_while_busy :
    exec (.busWrite 0x0013 0) busyState = .next { busyState with errAddr := true } := rfl

/-- V-B21. -/
theorem test_interrupt_follows_done :
    let s := { State.reset with irqEn := 0x00000002, done := true }
    s.irq = true ∧ (after (exec (.busWrite 0x0004 0x00000002) s)).irq = false := by decide +kernel

/-! ### The datapath -/

/-- V-F1. -/
theorem test_fir_pairs_coefficient_with_position :
    fir (w := 32) [1, 2, 3, 4, 5, 6, 7, 8, 9] [9, 8, 7, 6, 5, 4, 3, 2, 1] 100
      = ⟨165, [100, 9, 8, 7, 6, 5, 4, 3, 2], false⟩ := by decide +kernel

/-- V-F3. -/
theorem test_fir_wraps :
    fir (w := 32) [0x80000000, 0, 0, 0, 0, 0, 0, 0, 0] [-1, 0, 0, 0, 0, 0, 0, 0, 0] 0
      = ⟨0x80000000, [0, -1, 0, 0, 0, 0, 0, 0, 0], true⟩ := by decide +kernel

/-- V-S2, V-S3. -/
theorem test_symbol_threshold : (sym 1073741823).toInt = 64 ∧ (sym 1073741824).toInt = -64 := by decide +kernel

/-- V-S5, V-S6. -/
theorem test_decision_instants :
    decisionInstant 0xFFFFFF00 = true ∧ decisionInstant 256 = true ∧ decisionInstant 255 = false ∧
    decisionInstant 0xFFFFFFFF = false := by decide +kernel

/-- Draw i of the sequence LCG. -/
def lcg (i : Nat) : Draw := BitVec.ofNat 31 (1103515245 * i + 12345)

/-- V-N1, V-N6, V-N7. -/
theorem test_noise :
    (noise (List.replicate 10 0)).toBits 0 = 0xC015E8ADD236A58E ∧
    (noise [0, 2147483647, 0, 2147483647, 0, 2147483647, 0, 2147483647, 0, 2147483647]).toBits 0
      = 0xBE25E8ADD236A58E ∧
    (noise ((List.range 10).map fun i => lcg (i + 2))).toBits 0 = 0xBFFC058CDA08642D := by decide +kernel

/-- V-I4: rotation by cosine 0.8 and sine 0.6. -/
theorem test_rotation :
    let r := rotate (.ofBits 0x3FE999999999999A) (.ofBits 0x3FE3333333333333) ⟨i2f 64, i2f (-64)⟩
    r.i.toBits 0 = 0x4056666666666666 ∧ r.q.toBits 0 = 0xC02999999999999C := by decide +kernel

/-- V-T2, V-T5, V-T8, V-T12. -/
theorem test_truncation :
    f2i (fdiv (i2f (-29)) (i2f 10)) = ⟨-2, false⟩ ∧
    f2i (fdiv (i2f 4294967295) (i2f 2)) = ⟨0x7FFFFFFF, false⟩ ∧ f2i (i2f (-2147483649)) = ⟨0x80000000, true⟩ ∧
    f2i (i2f (10 ^ 300)) = ⟨0x7FFFFFFF, true⟩ := by decide +kernel

/-- V-Q3, V-Q6, V-Q7, V-Q8, V-Q9. -/
theorem test_quantisation :
    quantise (-1) = 0 ∧ quantise (-4095) = -1 ∧ outputWord (quantise 0x80000000) = 0xFF000000 ∧
    outputWord (quantise 0x7FFFFFFF) = 0x00FFFFF0 ∧ outputWord (quantise 131072) = 0x00000400 := by decide +kernel

/-- V-P4, V-P6, V-P9. -/
theorem test_snr_ratio :
    (snrRatio 0x40D0000000000000 0).toBits 0 = 0x43AD1A94A2000000 ∧
    (snrRatio 0x40D0000000000000 0x3FF0000000000000).toBits 0 = 0x412FFFFFFFFFDCD0 ∧
    (snrRatio 0x40C0000000000000 0x404D1F010CFAA262).toBits 0 = 0x40C194ED67F9B5D9 := by decide +kernel

/-- Program P4's configuration. -/
def impaired : State :=
  { State.reset with
    delayIndex := 1, snrScale := 3, cosPhi := 0x3FE999999999999A, sinPhi := 0x3FE3333333333333
    dcI := 0x3FE0000000000000, dcQ := 0xBFD0000000000000, cosTheta := 0x3FEFD712F9A817C1
    sinTheta := 0x3FB98EAECB8BCB2C, gainImb := 0x3FC0000000000000 }

/-- Program P4, samples 1 and 2: the truncated pair from the matched-filter pair and the draws. -/
theorem test_impairment_model :
    let s₁ := { impaired with sampleCount := 1, draws := (List.range 20).map fun i => lcg (i + 22) }
    let s₂ := { impaired with sampleCount := 2, draws := (List.range 20).map fun i => lcg (i + 42) }
    (impair s₁ (IQ.map (normalise 12) ⟨4194304, -4194304⟩) s₁.nextNoise).map f2i = ⟨⟨1586, false⟩, ⟨-54, false⟩⟩ ∧
    (impair s₂ (IQ.map (normalise 12) ⟨-2097152, 2097152⟩) s₂.nextNoise).map f2i = ⟨⟨-794, false⟩, ⟨27, false⟩⟩ := by
  decide +kernel

/-- The state after sample 0 of program P1. -/
def afterSample : State := { loaded with stepsLeft := 2, draws := List.replicate 22 0 }.sampleStep

/-- Sample 0 of program P1 (R314): the accumulators, the counts and the symbol in the delay line. -/
theorem test_sample_step :
    (afterSample.carrierPower, afterSample.noisePower, afterSample.drawCount, afterSample.stepsLeft,
      afterSample.mfdlI.take 2) = (0x40C0000000000000, 0, 22, 1, [64, 0]) := by decide +kernel

/-- V-Q10, V-Q11: bank 1 begins at RS[9], bus 0x4024; bank 127 ends at RS[1151], bus 0x51FC. -/
theorem test_banks :
    ((after (exec (.busWrite 0x4024 2048) { State.reset with delayIndex := 1 })).rsBank.getD 0 0 = 2048) ∧
    ((after (exec (.busWrite 0x51FC 5) { State.reset with delayIndex := 127 })).rsBank.getD 8 0 = 5) := by
  decide +kernel

/-! ### Witnesses: states and operands that meet the hypotheses of each statement -/

/-- A loaded block with draws for one sample of a one-sample command. -/
def lastSample : State := { loaded with stepsLeft := 1, draws := List.replicate 22 0 }

theorem lastSample_enabled : lastSample.sampleEnabled = true := by decide

theorem test_witness_NopChangesNothing : (0x00ABCDEF : Word).extractLsb' 24 8 = 0x00 := by decide

theorem test_witness_AbortEndsTheRunningCommand :
    running.stepsLeft ≠ 0 ∧ State.reset.stepsLeft = 0 ∧ (0x03000000 : Word).extractLsb' 24 8 = 0x03 := by decide

theorem test_witness_ReservedOpcodeOnlyFlags :
    4 ≤ ((0x04000000 : Word).extractLsb' 24 8).toNat ∧ 4 ≤ ((0xFF000000 : Word).extractLsb' 24 8).toNat := by decide

theorem test_witness_InitResetsTheRunState :
    busyState.stepsLeft ≠ 0 ∧ State.reset.stepsLeft = 0 ∧ (0x01000000 : Word).extractLsb' 24 8 = 0x01 := by decide

theorem test_witness_StepStartsWhenLoaded : loaded.stepsLeft = 0 ∧ Loaded loaded := ⟨rfl, test_loaded⟩

theorem test_witness_StepRefusedUnloaded : State.reset.stepsLeft = 0 ∧ ¬ Loaded State.reset :=
  ⟨rfl, test_reset_not_loaded⟩

/-- The greatest sum of counts: 0xFFFFFE + 1. -/
theorem test_witness_StepCommandsCompose :
    loaded.stepsLeft = 0 ∧ Loaded loaded ∧ (0xFFFFFE : BitVec 24) ≠ 0 ∧ (1 : BitVec 24) ≠ 0 ∧
    (0xFFFFFE : BitVec 24).toNat + (1 : BitVec 24).toNat < 2 ^ 24 := ⟨rfl, test_loaded, by decide, by decide, by decide⟩

theorem test_witness_WriteToCmdRunsTheCommand :
    (0x00ABCDEF : Word).extractLsb' 24 8 = 0x00 ∧ (0x01000000 : Word).extractLsb' 24 8 = 0x01 ∧
    (0x02FFFFFF : Word).extractLsb' 24 8 = 0x02 ∧ (0x03000000 : Word).extractLsb' 24 8 = 0x03 ∧
    4 ≤ ((0x04000000 : Word).extractLsb' 24 8).toNat := by decide

theorem test_witness_CommandOperands :
    (0x02000104 : Word).extractLsb' 24 8 = 0x02 ∧ loaded.stepsLeft = 0 ∧ Loaded loaded := ⟨by decide, rfl, test_loaded⟩

theorem test_witness_BadAccessOnlyFlags :
    BadAddress 0x0011 ∧ BadAddress 0x0038 ∧ BadAddress 0x003C ∧ BadAddress 0x0078 ∧ BadAddress 0x007C ∧
    BadAddress 0x0098 ∧ BadAddress 0x1FFC ∧ BadAddress 0x5200 ∧ BadAddress 0xFFFC ∧
    ReadOnly 0x0000 ∧ ReadOnly 0x001C ∧ ReadOnly 0x0094 := by
  simp [BadAddress, Reserved, ReadOnly]

theorem test_witness_OutFifoReadPopsOrFlags :
    State.reset.fifo = [] ∧ { State.reset with fifo := [7, 8] }.fifo = 7 :: [8] := ⟨rfl, rfl⟩

theorem test_witness_LoReadsCaptureTheHighHalf :
    (∃ t, exec (.init 0) State.reset = .next t) ∧
    (∃ t u, exec (.busRead 0x0080) loaded = .next t ∧ exec (.busRead 0x0084) t.sampleStep = .next u) ∧
    (∃ t u, exec (.busRead 0x0088) loaded = .next t ∧ exec (.busRead 0x008C) t.sampleStep = .next u) ∧
    ∃ t u, exec (.busRead 0x0090) loaded = .next t ∧ exec (.busRead 0x0094) t.sampleStep = .next u :=
  ⟨⟨_, rfl⟩, ⟨_, _, rfl, rfl⟩, ⟨_, _, rfl, rfl⟩, ⟨_, _, rfl, rfl⟩⟩

/-- CP = 2^53, the bound of the finite ratio. -/
theorem test_witness_SnrRatioIsComputedOnRead :
    let s := { State.reset with carrierPower := 0x4340000000000000 }
    AccumulatorsNonNegative s ∧ s.carrierPower.toNat ≤ 0x4340000000000000 :=
  ⟨⟨show (0x4340000000000000 : Pattern).toNat ≤ _ by decide, show (0 : Pattern).toNat ≤ _ by decide⟩,
    by decide⟩

theorem test_witness_OtherReadsHaveNoSideEffect :
    (¬ BadAddress 0x0000 ∧ (0x0000 : Addr).toNat ∉ [0x002C, 0x0080, 0x0088, 0x0090]) ∧
    (¬ BadAddress 0x0094 ∧ (0x0094 : Addr).toNat ∉ [0x002C, 0x0080, 0x0088, 0x0090]) ∧
    (¬ BadAddress 0x2000 ∧ (0x2000 : Addr).toNat ∉ [0x002C, 0x0080, 0x0088, 0x0090]) ∧
    (¬ BadAddress 0x51FC ∧ (0x51FC : Addr).toNat ∉ [0x002C, 0x0080, 0x0088, 0x0090]) := by
  simp [BadAddress, Reserved]

theorem test_witness_CoefficientWriteThenRead :
    CoefficientAddress 0x2000 ∧ CoefficientAddress 0x51FC ∧ busyState.stepsLeft ≠ 0 ∧ State.reset.stepsLeft = 0 ∧
    State.reset.mem.byte? 0x2000 = none :=
  ⟨by simp [CoefficientAddress], by simp [CoefficientAddress], by decide, rfl, rfl⟩

theorem test_witness_OnlyCoefficientWritesChangeEntries :
    let w := { State.reset with inputs := [.host ⟨true, 0x2000, 1⟩] }
    let p := { loaded with inputs := [.powerOn] }
    (∃ t, step w = .next t) ∧ ¬ NextPowerOn w ∧ (∃ d, NextWrite w 0x2000 d ∧ w.stepsLeft = 0) ∧
    (¬ ∃ d, NextWrite w 0x51FC d ∧ w.stepsLeft = 0) ∧ (∃ t, step p = .next t) ∧ NextPowerOn p ∧
    CoefficientAddress 0x2000 ∧ CoefficientAddress 0x51FC :=
  ⟨⟨_, rfl⟩, by simp [NextPowerOn], ⟨1, ⟨_, rfl⟩, rfl⟩, by simp [NextWrite], ⟨_, rfl⟩, ⟨_, rfl⟩,
    by simp [CoefficientAddress], by simp [CoefficientAddress]⟩

theorem test_witness_IntegerConfigurationWrites : State.reset.stepsLeft = 0 ∧ busyState.stepsLeft ≠ 0 := by decide

theorem test_witness_PatternWritesReplaceOneHalf : State.reset.stepsLeft = 0 := rfl

theorem test_witness_BusyRefusesExactlyTheLockedWrites :
    busyState.stepsLeft ≠ 0 ∧ busyState.errBusy = false ∧ BusyTarget 0x0010 0 ∧ BusyTarget 0x0018 0 ∧
    BusyTarget 0x0040 0 ∧ BusyTarget 0x0074 0 ∧ BusyTarget 0x2000 0 ∧ BusyTarget 0x51FC 0 ∧
    BusyTarget 0x0008 0x01000000 ∧ BusyTarget 0x0008 0x02000000 ∧
    ¬ (busyState.stepsLeft ≠ 0 ∧ BusyTarget 0x0008 0x03000000) ∧ ¬ (busyState.stepsLeft ≠ 0 ∧ BusyTarget 0x000C 0) := by
  refine ⟨by decide, rfl, ?_, ?_, ?_, ?_, ?_, ?_, ?_, ?_, ?_, ?_⟩ <;> simp [BusyTarget]

/-- At most one flag: a reserved opcode on a state that has another flag. -/
theorem test_witness_AtMostOneFlagPerTransaction :
    ∃ t, exec (.reserved 0xFF 0) { State.reset with errFifo := true } = .next t ∧ ErrFlag.fifo ≠ ErrFlag.cmd ∧
      errBit t .fifo = true := ⟨_, rfl, by decide, rfl⟩

theorem test_witness_ErrorFlagsAreSticky :
    let s := { State.reset with errCmd := true, inputs := [.host ⟨true, 0x0008, 0x01000000⟩] }
    (∃ t, step s = .next t) ∧ errBit s .cmd = true := ⟨⟨_, rfl⟩, rfl⟩

/-- DONE is set: by the last sample, and by an ABORT of a running command. -/
theorem test_witness_DoneChangesOnlyAsStated :
    let a := { busyState with inputs := [.host ⟨true, 0x0008, 0x03000000⟩] }
    (∃ t, step lastSample = .next t) ∧ lastSample.done = false ∧
    (NextEngine lastSample ∧ lastSample.sampleEnabled = true ∧ lastSample.stepsLeft = 1) ∧
    (∃ t, step a = .next t) ∧ a.done = false ∧ NextWrite a 0x0008 0x03000000 ∧ a.stepsLeft ≠ 0 :=
  ⟨⟨_, rfl⟩, rfl, ⟨.inl rfl, lastSample_enabled, rfl⟩, ⟨_, rfl⟩, rfl, ⟨_, rfl⟩, by decide⟩

/-- DONE is cleared: by an accepted STEP, by a write to STATUS and by the reset input. -/
theorem test_witness_DoneChangesOnlyAsStated_cleared :
    let b := { loaded with done := true, inputs := [.host ⟨true, 0x0008, 0x02000001⟩] }
    let c := { State.reset with done := true, inputs := [.host ⟨true, 0x0004, 0x00000002⟩] }
    let d := { State.reset with done := true, inputs := [.powerOn] }
    (∃ t, step b = .next t) ∧ b.done = true ∧ NextWrite b 0x0008 0x02000001 ∧ b.stepsLeft = 0 ∧ Loaded b ∧
    (∃ t, step c = .next t) ∧ c.done = true ∧ NextWrite c 0x0004 0x00000002 ∧
    (∃ t, step d = .next t) ∧ d.done = true ∧ NextPowerOn d :=
  ⟨⟨_, rfl⟩, rfl, ⟨_, rfl⟩, rfl, ⟨test_loaded.mf, test_loaded.rs⟩, ⟨_, rfl⟩, rfl, ⟨_, rfl⟩, ⟨_, rfl⟩, rfl, ⟨_, rfl⟩⟩

theorem test_witness_ConfigurationIsFixedWhileBusy :
    let s := { busyState with inputs := [.host ⟨true, 0x0010, 5⟩] }
    (∃ t, step s = .next t) ∧ s.stepsLeft ≠ 0 ∧ ¬ NextPowerOn s := ⟨⟨_, rfl⟩, by decide, by simp [NextPowerOn]⟩

theorem test_witness_EngineTurnPerformsOrHolds :
    lastSample.inputs = [] ∧ lastSample.stepsLeft ≠ 0 ∧ lastSample.fifo.length + 2 ≤ 32 ∧
    lastSample.sampleCount.toNat % 256 = 0 ∧ 22 ≤ lastSample.draws.length ∧
    { lastSample with inputs := [.engine] }.inputs = .engine :: [] ∧ State.reset.inputs = [] ∧
    { lastSample with inputs := [.supply [1, 2]] }.inputs = .supply [1, 2] :: [] ∧
    ¬ State.reset.stepsLeft ≠ 0 := by decide

theorem test_witness_FullFifoHoldsTheEngine :
    let s := { lastSample with fifo := List.replicate 31 0 }
    s.inputs = [] ∧ 31 ≤ s.fifo.length := by decide

/-- Sixteen samples into an empty FIFO: both bounds met with equality. -/
theorem test_witness_StepCommandRunsToItsEnd :
    let s := { loaded with draws := List.replicate 352 0 }
    s.stepsLeft = 0 ∧ Loaded s ∧ (16 : BitVec 24) ≠ 0 ∧ s.inputs = [] ∧
    s.fifo.length + 2 * (16 : BitVec 24).toNat ≤ 32 ∧ 22 * (16 : BitVec 24).toNat ≤ s.draws.length :=
  ⟨rfl, ⟨test_loaded.mf, test_loaded.rs⟩, by decide, rfl, by decide, by decide +kernel⟩

theorem test_witness_SampleStepCountsDown : lastSample.stepsLeft - 1 = 0 ∧ running.stepsLeft - 1 ≠ 0 := by decide

/-- The next command: STEP 7 reaches an idle, loaded block. -/
theorem test_witness_SampleStepCountsDown_next :
    let s := { loaded with inputs := [.host ⟨true, 0x0008, 0x02000007⟩] }
    s.stepsLeft = 0 ∧ step s = .next { loaded with stepsLeft := 7 } := by
  refine ⟨rfl, ?_⟩
  have hm : { loaded with inputs := [] }.mfLoaded = true := (State.mfLoaded_iff _).2 test_loaded.mf
  have hr : { loaded with inputs := [] }.rsLoaded = true := (State.rsLoaded_iff _).2 test_loaded.rs
  show Host.Outcome.next (State.unlessBusy _ (State.startStep _ _)) = _
  simp only [State.unlessBusy, State.startStep, hm, hr]
  rfl

theorem test_witness_DrawsPerSample :
    State.reset.sampleCount.toNat % 256 = 0 ∧ { State.reset with sampleCount := 255 }.sampleCount.toNat % 256 ≠ 0 ∧
    (List.replicate 10 (0 : Draw)).length = 10 ∧
    lastSample.draws = 0 :: 0 :: (List.replicate 10 0 ++ List.replicate 10 0 ++ []) ∧
    { lastSample with draws := List.replicate 20 0 }.draws = List.replicate 10 0 ++ List.replicate 10 0 ++ [] ∧
    State.reset.stepsLeft = 0 ∧ ∃ t, exec (.init 0) State.reset = .next t :=
  ⟨rfl, by decide, rfl, rfl, rfl, rfl, ⟨_, rfl⟩⟩

theorem test_witness_SymbolThreshold :
    (1073741823 : Draw).toNat < 2 ^ 30 ∧ 2 ^ 30 ≤ (1073741824 : Draw).toNat := by decide

theorem test_witness_FirOutputIsTheWrappedSum :
    ([1, 2, 3] : List Word).length = ([4, 5, 6] : List Word).length ∧ 0 < ([4, 5, 6] : List Word).length := by decide

theorem test_witness_FirDependsOnEarlierInputsOnly :
    4 < ([64, 0, 0, 0, 0] : List (BitVec 8)).length ∧ 2 < 9 ∧ 3 < ([64, 0, 0, 0, 0] : List Word).length := by decide

theorem test_witness_RingBufferComputesTheSame :
    let r : RingDelayLine 32 := ⟨[1, 2, 3], 2⟩
    ([7, 8, 9] : List Word).length = r.buf.length ∧ r.front < r.buf.length := by decide

/-- One sample after a decision instant: a symbol at position 0 of each delay line. -/
def oneSymbol : State :=
  { loaded with
    stepsLeft := 5, sampleCount := 1, mfdlI := 64 :: List.replicate 2047 0, mfdlQ := -64 :: List.replicate 2047 0
    carrierPower := 0x40C0000000000000, fifo := [0, 0] }

theorem oneSymbol_inv : Inv oneSymbol where
  memory := wf_cells
  irqReserved := rfl
  mfdlILength := congrArg (· + 1) List.length_replicate
  mfdlQLength := congrArg (· + 1) List.length_replicate
  rsdlILength := rfl
  rsdlQLength := rfl
  mfdlISymbols _ hd := (List.mem_cons.1 hd).elim (fun h => .inr (.inl h)) fun h => .inl (List.eq_of_mem_replicate h)
  mfdlQSymbols _ hd := (List.mem_cons.1 hd).elim (fun h => .inr (.inr h)) fun h => .inl (List.eq_of_mem_replicate h)
  fifoCapacity := by decide
  busyLoaded _ := ⟨(State.mfLoaded_iff _).2 test_loaded.mf, (State.rsLoaded_iff _).2 test_loaded.rs⟩

theorem cadence_oneSymbol (x : BitVec 8) : CadenceOf 1 (x :: List.replicate 2047 0) := by
  intro k hk hne
  cases k with
  | zero => decide
  | succ k =>
    simp only [List.length_cons, List.length_replicate] at hk
    rw [List.getD_cons_succ, List.getD_eq_getElem _ _ (by rw [List.length_replicate]; omega),
      List.getElem_replicate] at hne
    exact absurd rfl hne

theorem oneSymbol_cadence : SymbolCadence oneSymbol :=
  ⟨oneSymbol_inv.mfdlILength, oneSymbol_inv.mfdlQLength, cadence_oneSymbol _, cadence_oneSymbol _⟩

theorem test_witness_MatchedSumIsBounded : Inv oneSymbol ∧ SymbolCadence oneSymbol := ⟨oneSymbol_inv, oneSymbol_cadence⟩

theorem test_witness_FilterCoefficients : 2047 < 2048 ∧ 8 < 9 := by decide

theorem test_witness_RoundIsNearestTiesToEven : (2 ^ 53 + 1 : Nat) ≠ 0 := by decide

/-- 1.0, −1.0, 3.0 and −0.0 are canonical. -/
theorem test_witness_ArithmeticRoundsTheExactResult :
    (F64.fin false (2 ^ 52) (-52)).canonical = true ∧ (F64.fin true (2 ^ 52) (-52)).canonical = true ∧
    (F64.fin false (3 * 2 ^ 51) (-51)).canonical = true ∧ (F64.zero true).canonical = true := by decide

/-- V-I11's noise scaling, and −1.0 over an infinity, 0/0, and +0.0 − (−0.0) and −0.0 − (+0.0) by the IEEE rules. -/
theorem test_zero_signs :
    scaleNoise 0 ⟨i2f (-5), i2f 5⟩ = ⟨.zero true, .zero false⟩ ∧ fdiv (i2f (-1)) (.inf false) = .zero true ∧
    fdiv (.zero false) (.zero true) = .nan ∧ fsub (.zero false) (.zero true) = .zero false ∧
    fsub (.zero true) (.zero false) = .zero true := by decide +kernel

theorem test_witness_PatternsRoundTrip :
    F64.ofBits 0xBF30000000000000 ≠ .nan ∧ (F64.inf true).canonical = true ∧ (F64.fin true 1 (-1074)).canonical = true := by
  decide +kernel

theorem test_witness_NoiseSumIsExact :
    let ds : List Draw := List.replicate 10 0x40000000
    ds.length = 10 ∧ (ds.map fun x => (x.toNat : Int)).sum - ds.length * 2 ^ 30 = 0 := by decide

theorem test_witness_NormalisationIsExact : (0 : Word) = 0 := rfl

theorem test_witness_NeutralParametersGiveTheIdentity :
    Neutral lastSample := ⟨rfl, rfl, rfl, rfl, rfl, rfl, rfl, rfl⟩

/-- 2^31, −2^31 − 1, and the two ends of the range. -/
theorem test_witness_TruncationSaturates :
    (2147483647 : Int) < ⌊(F64.fin false (2 ^ 31) 0).value⌋ ∧ 0 ≤ (F64.fin false (2 ^ 31) 0).value ∧
    ⌈(F64.fin true (2 ^ 31 + 1) 0).value⌉ < -2147483648 ∧ ¬ 0 ≤ (F64.fin true (2 ^ 31 + 1) 0).value ∧
    ⌊(F64.fin false (2 ^ 31 - 1) 0).value⌋ = 2147483647 ∧ ⌈(F64.fin true (2 ^ 31) 0).value⌉ = -2147483648 := by
  norm_num [F64.value]

theorem test_witness_CarrierPowerCountsDecisions :
    lastSample.sampleCount.toNat % 256 = 0 ∧ running.sampleCount.toNat % 256 ≠ 0 ∧
    (∃ t, loaded.stepsLeft = 0 ∧ exec (.init 0) loaded = .next t) ∧
    (260 + 255) / 256 < 2 ^ 40 := ⟨by decide, by decide, ⟨_, rfl, rfl⟩, by decide⟩

theorem test_witness_NoisePowerUpdate :
    lastSample.snrScale = 0 ∧ lastSample.noisePower = 0 ∧
    ∃ m e, (noisePair (lastSample.draws.drop 2)).i = .fin true m e :=
  ⟨rfl, rfl, 6166807764706702, -50, by decide +kernel⟩

theorem test_witness_AccumulatorsNeverDecrease :
    (∃ t, step lastSample = .next t) ∧ AccumulatorsNonNegative oneSymbol :=
  ⟨⟨_, rfl⟩, show (0x40C0000000000000 : Pattern).toNat ≤ _ by decide, show (0 : Pattern).toNat ≤ _ by decide⟩

theorem test_witness_StepKeepsTheInvariant :
    let s := { oneSymbol with draws := List.replicate 20 0 }
    (∃ t, step s = .next t) ∧ s.sampleEnabled = true ∧ Inv s := by
  refine ⟨⟨_, rfl⟩, by decide, ?_⟩
  obtain ⟨h1, h2, h3, h4, h5, h6, h7, h8, h9, h10⟩ := oneSymbol_inv
  exact ⟨h1, h2, h3, h4, h5, h6, h7, h8, h9, h10⟩

theorem test_witness_StepKeepsTheSymbolCadence : (∃ t, step oneSymbol = .next t) ∧ SymbolCadence oneSymbol :=
  ⟨⟨_, rfl⟩, oneSymbol_cadence⟩

theorem test_witness_PowerOnResetValues :
    let s := { loaded with inputs := [.powerOn] }
    s.inputs = .powerOn :: [] ∧ ∃ t, step s = .next t := ⟨rfl, ⟨_, rfl⟩⟩

theorem test_witness_StepRunsTheDecodedInstruction :
    { State.reset with inputs := [.host ⟨true, 0x0010, 5⟩] }.inputs = .host ⟨true, 0x0010, 5⟩ :: [] := rfl

theorem test_witness_DecodeInvertsEncode :
    (Instr.reserved 0x04 0xFFFFFF).wellFormed = true ∧ (Instr.reserved 0xFF 0).wellFormed = true ∧
    (Instr.busWrite 0x000C 0).wellFormed = true ∧ (Instr.busRead 0x0008).wellFormed = true ∧
    (Instr.step 0xFFFFFF).wellFormed = true := by decide

end Sys2Proof.Tests
end

