-- ==== Sys2Proof/Proofs/Float64Rounding.lean ====
section
/-!
PROOFS. Rounding to nearest, ties to even, and the four operations that round an exact result once (R15). A significand
is rounded to an integer on its grid (`NearestEven`); from 2^52 on the canonical numbers below that grid are no nearer,
so the integer that is nearest on the grid gives the nearest canonical number.
-/

namespace Sys2Proof.Machine

/-! ### Values and sign -/

@[simp] theorem F64.value_neg (v : F64) : v.neg.value = -v.value := by
  rcases v with _ | n | ⟨n, m, e⟩
  · simp [F64.neg, F64.value]
  · simp [F64.neg, F64.value]
  · cases n <;> simp [F64.neg, F64.value]

@[simp] theorem F64.canonical_neg (v : F64) : v.neg.canonical = v.canonical := by cases v <;> rfl

@[simp] theorem F64.isFinite_neg (v : F64) : v.neg.isFinite = v.isFinite := by cases v <;> rfl

@[simp] theorem F64.evenSignificand_neg (v : F64) : v.neg.evenSignificand = v.evenSignificand := by cases v <;> rfl

theorem F64.value_eq_zero_iff (n : Bool) (m : Nat) (e : Int) : (F64.fin n m e).value = 0 ↔ m = 0 := by
  have hpow : (2 : ℚ) ^ e ≠ 0 := by positivity
  cases n <;> simp [F64.value, hpow]

/-- The same number on a lower grid. -/
theorem scale_down {g e : Int} (h : g ≤ e) (m : ℚ) : m * 2 ^ (e - g).toNat * (2 : ℚ) ^ g = m * (2 : ℚ) ^ e := by
  rw [mul_assoc, ← zpow_natCast, Int.toNat_of_nonneg (by omega), ← zpow_add₀ (by norm_num), Int.sub_add_cancel]

/-- A finite number as an integer multiple of a lower power of two. -/
theorem F64.value_on_grid {g e : Int} (h : g ≤ e) (n : Bool) (m : Nat) :
    (F64.fin n m e).value = (signedInt n (m * 2 ^ (e - g).toNat) : ℚ) * (2 : ℚ) ^ g := by
  have hm := scale_down h (m : ℚ)
  cases n <;> simp [F64.value, signedInt, ← hm]

theorem F64.round_not (n : Bool) (m : Nat) (e : Int) : F64.round (!n) m e = (F64.round n m e).neg := by
  simp only [F64.round, apply_ite F64.neg]; rfl

/-- Rounding to nearest is symmetric in the sign. -/
theorem IsRN.neg {x : ℚ} {r : F64} (hx : x ≠ 0) (h : IsRN x r) : IsRN (-x) r.neg := by
  have hsign : decide (-x < 0) = !decide (x < 0) := by
    rcases lt_or_gt_of_ne hx with hneg | hpos
    · simp [hneg, hneg.le]
    · simp [hpos, hpos.le]
  unfold IsRN at h ⊢
  rw [abs_neg, hsign]
  split at h
  · next hover => rw [if_pos hover, h]; rfl
  · next hover =>
    rw [if_neg hover]
    obtain ⟨m, e, hr, hcan, hnear⟩ := h
    refine ⟨m, e, by rw [hr]; rfl, by simpa using hcan, fun r' hfin' hcan' => ?_⟩
    obtain ⟨hle, htie⟩ := hnear r'.neg (by simpa using hfin') (by simpa using hcan')
    have hflip : ∀ y : ℚ, |-y - x| = |y - -x| := fun y => by rw [← abs_neg]; ring_nf
    have hflip' : |r.value - x| = |-r.value - -x| := by rw [← abs_neg]; ring_nf
    simp only [F64.value_neg, F64.evenSignificand_neg, hflip, hflip'] at hle htie ⊢
    exact ⟨hle, fun hne => htie fun heq => hne (by linarith)⟩

/-! ### Nearest integers -/

/-- `q` is the integer nearest to `z`, the even one on a tie. -/
structure NearestEven (z : ℚ) (q : Nat) : Prop where
  near : |q - z| ≤ 1 / 2
  even_of_tie : |q - z| = 1 / 2 → q % 2 = 0

/-- No integer is nearer, and another one is equally near only if `q` is even. -/
theorem NearestEven.le_of_int {z : ℚ} {q : Nat} (h : NearestEven z q) (k : Int) :
    |q - z| ≤ |k - z| ∧ ((k : ℚ) ≠ q → |k - z| = |q - z| → q % 2 = 0) := by
  by_cases hk : k = q
  · subst hk
    exact ⟨by simp, fun hne => absurd (by simp) hne⟩
  · have hgap : (1 : ℚ) ≤ |(k : ℚ) - q| := by exact_mod_cast Int.one_le_abs (sub_ne_zero.mpr hk)
    have htri : |(k : ℚ) - q| ≤ |k - z| + |q - z| := by
      rw [abs_sub_comm (q : ℚ) z]; exact abs_sub_le _ _ _
    have hnear := h.near
    exact ⟨by linarith, fun _ heq => h.even_of_tie (by linarith)⟩

/-- The significand `m` stands for the exact number `z`: it is `z`, or it is odd and long, and its last bit only says
that `z` lies strictly between its two even neighbours (a sticky bit). -/
def StandsFor (m : Nat) (z : ℚ) : Prop := z = m ∨ (m % 2 = 1 ∧ 2 ^ 54 ≤ m ∧ |z - m| < 1)

theorem roundedShift_error (m n : Nat) :
    2 * |(roundedShift m n : Int) * 2 ^ n - m| ≤ 2 ^ n ∧
    (2 * |(roundedShift m n : Int) * 2 ^ n - m| = 2 ^ n → roundedShift m n % 2 = 0) := by
  have hdiv : 2 ^ n * (m / 2 ^ n) + m % 2 ^ n = m := Nat.div_add_mod m (2 ^ n)
  have hlt : m % 2 ^ n < 2 ^ n := Nat.mod_lt _ (by positivity)
  unfold roundedShift
  dsimp only
  generalize m / 2 ^ n = q at *
  generalize m % 2 ^ n = r at *
  have hdivInt : (m : Int) = 2 ^ n * q + r := by exact_mod_cast hdiv.symm
  have hltInt : (r : Int) < 2 ^ n := by exact_mod_cast hlt
  split
  · next hup =>
    have herr : ((q + 1 : Nat) : Int) * 2 ^ n - m = 2 ^ n - r := by rw [hdivInt]; push_cast; ring
    rw [herr, abs_of_nonneg (by linarith)]
    zify at hup
    refine ⟨?_, fun htie => ?_⟩
    · rcases hup with h | ⟨h, -⟩ <;> linarith
    · rcases hup with h | ⟨-, h⟩
      · linarith
      · omega
  · next hdown =>
    have herr : ((q : Nat) : Int) * 2 ^ n - m = -r := by rw [hdivInt]; ring
    rw [herr, abs_neg, abs_of_nonneg (by positivity)]
    push Not at hdown
    obtain ⟨hle, hodd⟩ := hdown
    zify at hle
    refine ⟨hle, fun htie => ?_⟩
    have := hodd (by exact_mod_cast htie)
    omega

/-- The form in which a nearest integer on a grid of step `d` is found. -/
theorem nearestEven_div {z d : ℚ} {q : Nat} (hd : 0 < d) (hle : 2 * |q * d - z| ≤ d)
    (htie : 2 * |q * d - z| = d → q % 2 = 0) : NearestEven (z / d) q := by
  have hscale : |q * d - z| = |q - z / d| * d := by
    rw [← abs_of_pos hd, ← abs_mul, abs_of_pos hd, sub_mul, div_mul_cancel₀ _ hd.ne']
  rw [hscale] at hle htie
  exact ⟨by by_contra hc; nlinarith, fun h => htie (by rw [h]; ring)⟩

/-- Dropping `n` bits rounds to nearest even; with a sticky bit at least two bits have to go. -/
theorem roundedShift_nearestEven {m n : Nat} {z : ℚ} (h : StandsFor m z) (hn : z = m ∨ 1 < n) :
    NearestEven (z / 2 ^ n) (roundedShift m n) := by
  obtain ⟨hle, htie⟩ := roundedShift_error m n
  by_cases hz : z = m
  · subst hz
    exact nearestEven_div (by positivity) (by exact_mod_cast hle) fun heq => htie (by exact_mod_cast heq)
  · obtain ⟨hodd, -, hclose⟩ := h.resolve_left hz
    obtain ⟨n, rfl⟩ := Nat.exists_eq_add_of_lt (hn.resolve_left hz)
    have hpow : (2 : Int) ^ (1 + n + 1) = 2 * (2 * 2 ^ n) := by ring
    generalize roundedShift m (1 + n + 1) = q at *
    have hstrict : 2 * |(q : Int) * 2 ^ (1 + n + 1) - m| + 2 ≤ 2 ^ (1 + n + 1) := by
      have hassoc : (q : Int) * (2 * (2 * 2 ^ n)) = 2 * (2 * (q * 2 ^ n)) := by ring
      rw [hpow, hassoc] at hle ⊢
      rcases abs_cases (2 * (2 * ((q : Int) * 2 ^ n)) - m) with ⟨habs, -⟩ | ⟨habs, -⟩ <;> rw [habs] at hle ⊢ <;> omega
    have hstrictQ : 2 * |(q : ℚ) * 2 ^ (1 + n + 1) - m| + 2 ≤ 2 ^ (1 + n + 1) := by exact_mod_cast hstrict
    have htri : |(q : ℚ) * 2 ^ (1 + n + 1) - z| ≤ |(q : ℚ) * 2 ^ (1 + n + 1) - m| + |z - m| := by
      rw [abs_sub_comm z]; exact abs_sub_le _ _ _
    exact nearestEven_div (by positivity) (by linarith) fun heq => by linarith

theorem StandsFor.two_pow_log2_le {m : Nat} {z : ℚ} (hm : m ≠ 0) (h : StandsFor m z) : (2 : ℚ) ^ m.log2 ≤ z := by
  have hlo : 2 ^ m.log2 ≤ m := Nat.log2_self_le hm
  rcases h with rfl | ⟨hodd, hlong, hclose⟩
  · exact_mod_cast hlo
  · have heven : 2 ^ m.log2 % 2 = 0 := by
      have hpos : m.log2 ≠ 0 := by have := (Nat.le_log2 hm).mpr (show 2 ^ 1 ≤ m by omega); omega
      rw [Nat.pow_mod, Nat.mod_self, Nat.zero_pow (by omega), Nat.zero_mod]
    have hlt : (2 : ℚ) ^ m.log2 + 1 ≤ m := by exact_mod_cast (show 2 ^ m.log2 + 1 ≤ m by omega)
    rw [abs_lt] at hclose
    linarith

/-- The significand that rounding computes is the nearest integer on its grid. -/
theorem onGrid_nearestEven {m : Nat} {z : ℚ} (e : Int) (hm : m ≠ 0) (h : StandsFor m z) :
    NearestEven (z * 2 ^ e / 2 ^ gridExp m e) (onGrid m e (gridExp m e)) := by
  by_cases hg : gridExp m e ≤ e
  · have hz : z = m := by
      refine h.resolve_right fun ⟨_, hlong, _⟩ => ?_
      have hlog : 54 ≤ m.log2 := (Nat.le_log2 hm).mpr hlong
      have : e + (m.log2 : Int) - 52 ≤ gridExp m e := le_max_left _ _
      omega
    rw [hz, onGrid, if_pos hg, ← scale_down hg, mul_div_cancel_right₀ _ (by positivity)]
    constructor <;> simp
  · have hshift : z * (2 : ℚ) ^ e / 2 ^ gridExp m e = z / 2 ^ (gridExp m e - e).toNat := by
      rw [← one_mul ((2 : ℚ) ^ gridExp m e), ← scale_down (show e ≤ gridExp m e by omega), one_mul,
        mul_div_mul_right _ _ (by positivity)]
    rw [hshift, onGrid, if_neg hg]
    refine roundedShift_nearestEven h (h.imp_right fun ⟨_, hlong, _⟩ => ?_)
    have hlog : 54 ≤ m.log2 := (Nat.le_log2 hm).mpr hlong
    have : e + (m.log2 : Int) - 52 ≤ gridExp m e := le_max_left _ _
    omega

/-- Above the least exponent the exact significand on the grid has 53 bits before the point. -/
theorem exact_significand_ge {m : Nat} {z : ℚ} (e : Int) (hm : m ≠ 0) (h : StandsFor m z) :
    2 ^ 52 ≤ z * 2 ^ e / 2 ^ gridExp m e ∨ gridExp m e = F64.minExp := by
  refine or_iff_not_imp_right.mpr fun hne => ?_
  have hg : gridExp m e = e + (m.log2 : Int) - 52 := by
    unfold gridExp at hne ⊢; omega
  have hpow : (2 : ℚ) ^ 52 * 2 ^ gridExp m e = 2 ^ m.log2 * 2 ^ e := by
    rw [← zpow_natCast, ← zpow_natCast, ← zpow_add₀ (by norm_num), ← zpow_add₀ (by norm_num), hg]
    congr 1; push_cast; ring
  rw [le_div_iff₀ (by positivity), hpow]
  exact mul_le_mul_of_nonneg_right (h.two_pow_log2_le hm) (by positivity)

/-! ### The nearest canonical number -/

/-- A canonical number lies on the grid, or below the 53-bit significands of a grid that is not the least. -/
theorem F64.on_or_below_grid {g : Int} {r : F64} (hfin : r.isFinite = true)
    (hcan : r.canonical = true) :
    (∃ k : Int, r.value = k * (2 : ℚ) ^ g) ∨ (F64.minExp < g ∧ r.value < 2 ^ 52 * (2 : ℚ) ^ g) := by
  rcases r with _ | n | ⟨n, m, e⟩
  · cases hfin
  · cases hfin
  obtain ⟨hm, hmin, -, -⟩ := (F64.canonical_fin_iff n m e).mp hcan
  by_cases hge : g ≤ e
  · exact .inl ⟨_, F64.value_on_grid hge n m⟩
  · refine .inr ⟨by omega, ?_⟩
    have hvalue : (F64.fin n m e).value ≤ m * (2 : ℚ) ^ e := by
      have hnonneg : 0 ≤ (m : ℚ) * (2 : ℚ) ^ e := by positivity
      cases n
      · simp [F64.value]
      · simp only [F64.value, if_true]; linarith
    calc (F64.fin n m e).value ≤ m * (2 : ℚ) ^ e := hvalue
      _ < 2 ^ 53 * (2 : ℚ) ^ e := mul_lt_mul_of_pos_right (by exact_mod_cast hm) (by positivity)
      _ = 2 ^ 52 * (2 : ℚ) ^ (e + 1) := by rw [zpow_add_one₀ (by norm_num)]; ring
      _ ≤ 2 ^ 52 * (2 : ℚ) ^ g :=
        mul_le_mul_of_nonneg_left (zpow_le_zpow_right₀ (by norm_num) (by omega)) (by positivity)

/-- The nearest integer on the grid is a nearest canonical number. -/
theorem NearestEven.le_of_canonical {w : ℚ} {q : Nat} {g : Int} (h : NearestEven w q)
    (hlow : 2 ^ 52 ≤ w ∨ g = F64.minExp) {r : F64} (hfin : r.isFinite = true) (hcan : r.canonical = true) :
    |q * (2 : ℚ) ^ g - w * 2 ^ g| ≤ |r.value - w * 2 ^ g| ∧
    (r.value ≠ q * (2 : ℚ) ^ g → |r.value - w * 2 ^ g| = |q * (2 : ℚ) ^ g - w * 2 ^ g| → q % 2 = 0) := by
  have hpos : (0 : ℚ) < 2 ^ g := by positivity
  have hscale : ∀ a : ℚ, |a * (2 : ℚ) ^ g - w * 2 ^ g| = |a - w| * 2 ^ g := fun a => by
    rw [← sub_mul, abs_mul, abs_of_pos hpos]
  rcases F64.on_or_below_grid (g := g) hfin hcan with ⟨k, hk⟩ | ⟨hmin, hbelow⟩
  · obtain ⟨hle, htie⟩ := h.le_of_int k
    rw [hk, hscale, hscale]
    exact ⟨mul_le_mul_of_nonneg_right hle hpos.le, fun hne heq =>
      htie (fun hkq => hne (by rw [hkq])) (mul_right_cancel₀ hpos.ne' heq)⟩
  · have hw : 2 ^ 52 ≤ w := hlow.resolve_right (by omega)
    have hq := (h.le_of_int (2 ^ 52)).1
    have hw' : 2 ^ 52 * (2 : ℚ) ^ g ≤ w * 2 ^ g := mul_le_mul_of_nonneg_right hw hpos.le
    have hlt : |q * (2 : ℚ) ^ g - w * 2 ^ g| < |r.value - w * 2 ^ g| := by
      calc |q * (2 : ℚ) ^ g - w * 2 ^ g| = |q - w| * 2 ^ g := hscale _
        _ ≤ |((2 ^ 52 : Int) : ℚ) - w| * 2 ^ g := mul_le_mul_of_nonneg_right hq hpos.le
        _ = w * 2 ^ g - 2 ^ 52 * 2 ^ g := by
          rw [abs_sub_comm, abs_of_nonneg (by push_cast; linarith), sub_mul]; norm_num
        _ < w * 2 ^ g - r.value := by linarith
        _ = |r.value - w * 2 ^ g| := by rw [abs_sub_comm, abs_of_pos (by linarith)]
    exact ⟨hlt.le, fun _ heq => absurd heq hlt.ne'⟩

theorem overflowThreshold_eq : overflowThreshold = (2 ^ 53 - 1 / 2) * (2 : ℚ) ^ (971 : Int) := by
  have h970 : (2 : ℚ) ^ (970 : Int) = 2 ^ 970 := zpow_natCast 2 970
  rw [overflowThreshold, show (971 : Int) = 970 + 1 by norm_num, zpow_add_one₀ (by norm_num), h970]
  generalize (2 : ℚ) ^ 970 = t
  ring

/-- The exact number reaches the overflow threshold exactly when its significand leaves the greatest grid. -/
theorem NearestEven.overflow_iff {w : ℚ} {q : Nat} {g : Int} (h : NearestEven w q) (hq : q ≤ 2 ^ 53)
    (hlow : 2 ^ 52 ≤ w ∨ g = F64.minExp) :
    overflowThreshold ≤ w * 2 ^ g ↔ 971 < g ∨ (g = 971 ∧ q = 2 ^ 53) := by
  have hpos : (0 : ℚ) < 2 ^ g := by positivity
  have h971 : (0 : ℚ) < 2 ^ (971 : Int) := by positivity
  obtain ⟨hnear_lo, hnear_hi⟩ := abs_le.mp h.near
  rw [overflowThreshold_eq]
  constructor
  · intro hover
    by_contra hin
    push Not at hin
    obtain ⟨hg, hne⟩ := hin
    rcases eq_or_lt_of_le hg with rfl | hlt
    · have hw : 2 ^ 53 - 1 / 2 ≤ w := le_of_mul_le_mul_right hover h971
      clear hover h971 hpos
      have hq_lt : q + 1 ≤ 2 ^ 53 := by have := hne rfl; omega
      have hq_ltQ : (q : ℚ) + 1 ≤ 2 ^ 53 := by exact_mod_cast hq_lt
      have hq_eq : q + 1 = 2 ^ 53 := by exact_mod_cast (show (q : ℚ) + 1 = 2 ^ 53 by linarith)
      have := h.even_of_tie (by rw [show w = q + 1 / 2 by linarith, abs_sub_comm, add_sub_cancel_left]; norm_num)
      omega
    · have hqQ : (q : ℚ) ≤ 2 ^ 53 := by exact_mod_cast hq
      have hstep : (2 : ℚ) ^ g * 2 ≤ 2 ^ (971 : Int) := by
        rw [← zpow_add_one₀ (by norm_num)]
        exact zpow_le_zpow_right₀ (by norm_num) (by omega)
      have hw : w * (2 : ℚ) ^ g ≤ (2 ^ 53 + 1 / 2) * 2 ^ g := mul_le_mul_of_nonneg_right (by linarith) hpos.le
      generalize (2 : ℚ) ^ (971 : Int) = top at *
      linarith
  · rintro (hg | ⟨rfl, rfl⟩)
    · have hw : 2 ^ 52 * (2 : ℚ) ^ g ≤ w * 2 ^ g :=
        mul_le_mul_of_nonneg_right (hlow.resolve_right (by unfold F64.minExp; omega)) hpos.le
      have hstep : (2 : ℚ) ^ (971 : Int) * 2 ≤ 2 ^ g := by
        rw [← zpow_add_one₀ (by norm_num)]
        exact zpow_le_zpow_right₀ (by norm_num) (by omega)
      generalize (2 : ℚ) ^ (971 : Int) = top at *
      linarith
    · refine mul_le_mul_of_nonneg_right ?_ h971.le
      clear h971 hpos
      push_cast at hnear_hi
      linarith

/-- What rounding answers: an infinity beyond the greatest grid, else a number that is the significand on the grid. -/
theorem F64.round_cases (n : Bool) (m : Nat) (e : Int) (hm : m ≠ 0) :
    let g := gridExp m e
    let q := onGrid m e g
    (if 971 < g ∨ (g = 971 ∧ q = 2 ^ 53) then F64.round n m e = .inf n
     else ∃ m' e', F64.round n m e = .fin n m' e' ∧ (m' : ℚ) * 2 ^ e' = q * (2 : ℚ) ^ g ∧
      (q % 2 = 0 → m' % 2 = 0)) := by
  dsimp only
  unfold F64.round
  rw [if_neg hm]
  dsimp only [F64.maxExp]
  generalize gridExp m e = g
  by_cases hc : onGrid m e g = 2 ^ 53
  · simp only [hc, decide_true, if_true, and_true]
    split
    · rw [if_pos (by omega)]
    · rw [if_neg (by omega)]
      exact ⟨_, _, rfl, by rw [zpow_add_one₀ (by norm_num)]; push_cast; ring, fun _ => by norm_num⟩
  · simp only [hc, decide_false, Bool.false_eq_true, if_false, and_false, or_false]
    split
    · rfl
    · exact ⟨_, _, rfl, rfl, id⟩

theorem StandsFor.round_isRN_of_pos {m : Nat} {z : ℚ} (e : Int) (hm : m ≠ 0) (h : StandsFor m z) :
    IsRN (z * 2 ^ e) (F64.round false m e) := by
  have hz : 0 < z := lt_of_lt_of_le (by positivity) (h.two_pow_log2_le hm)
  have hx : 0 < z * (2 : ℚ) ^ e := by positivity
  have hnearest := onGrid_nearestEven e hm h
  have hlow := exact_significand_ge e hm h
  have hcases := F64.round_cases false m e hm
  have hover := hnearest.overflow_iff (onGrid_bounds m e hm).1 hlow
  have hcan := F64.round_canonical false m e
  have hgrid : z * 2 ^ e = z * 2 ^ e / 2 ^ gridExp m e * (2 : ℚ) ^ gridExp m e :=
    (div_mul_cancel₀ _ (by positivity)).symm
  unfold IsRN
  rw [abs_of_pos hx, decide_eq_false hx.not_gt]
  generalize z * 2 ^ e / 2 ^ gridExp m e = w at *
  rw [hgrid]
  simp only [hover]
  dsimp only at hcases
  split at hcases
  · next hbig => rw [if_pos hbig, hcases]
  · next hsmall =>
    rw [if_neg hsmall]
    obtain ⟨m', e', hround, hvalue, heven⟩ := hcases
    refine ⟨m', e', hround, hcan, fun r' hfin' hcan' => ?_⟩
    have hv : (F64.round false m e).value = onGrid m e (gridExp m e) * (2 : ℚ) ^ gridExp m e := by
      rw [hround, ← hvalue]; simp [F64.value]
    obtain ⟨hle, htie⟩ := hnearest.le_of_canonical hlow hfin' hcan'
    rw [hv]
    refine ⟨hle, fun hne heq => ?_⟩
    rw [hround]
    exact decide_eq_true (heven (htie hne heq))

/-- Rounding the significand that stands for an exact number is rounding that number. -/
theorem StandsFor.round_isRN {m : Nat} {z : ℚ} (n : Bool) (e : Int) (hm : m ≠ 0) (h : StandsFor m z) :
    IsRN ((if n then -1 else 1) * z * (2 : ℚ) ^ e) (F64.round n m e) := by
  have hpos := h.round_isRN_of_pos e hm
  have hz : 0 < z := lt_of_lt_of_le (by positivity) (h.two_pow_log2_le hm)
  cases n
  · simpa using hpos
  · have hneg := hpos.neg (by positivity)
    rw [← F64.round_not] at hneg
    simpa using hneg

/-- Settles O42: the significand stands for itself. -/
theorem roundIsNearestTiesToEven : Obligations.RoundIsNearestTiesToEven :=
  fun n _ e hm => StandsFor.round_isRN n e hm (.inl rfl)

/-! ### The four operations on finite numbers -/

theorem round_signedInt_isRN {v : Int} (e : Int) (hv : v ≠ 0) :
    IsRN ((v : ℚ) * (2 : ℚ) ^ e) (F64.round (decide (v < 0)) v.natAbs e) := by
  have hsigned : (if decide (v < 0) = true then -1 else 1) * (v.natAbs : ℚ) = v := by
    rcases lt_or_ge v 0 with hneg | hpos
    · simp [hneg, Nat.cast_natAbs, abs_of_neg hneg]
    · simp [hpos.not_gt, Nat.cast_natAbs, abs_of_nonneg hpos]
  rw [← hsigned]
  exact StandsFor.round_isRN _ e (Int.natAbs_ne_zero.mpr hv) (.inl rfl)

theorem fadd_fin_rounds (na nb : Bool) (ma mb : Nat) (ea eb : Int) :
    let a := F64.fin na ma ea
    let b := F64.fin nb mb eb
    if a.value + b.value = 0 then fadd a b = .zero (na && nb) else IsRN (a.value + b.value) (fadd a b) := by
  dsimp only [fadd, addFinite]
  rw [F64.value_on_grid (min_le_left ea eb), F64.value_on_grid (min_le_right ea eb), ← add_mul, ← Int.cast_add]
  have hpow : (2 : ℚ) ^ min ea eb ≠ 0 := by positivity
  split
  · next hsum => rw [if_pos (Int.cast_eq_zero.mp ((mul_eq_zero.mp hsum).resolve_right hpow))]
  · next hsum =>
    have hv := Int.cast_ne_zero.mp (left_ne_zero_of_mul hsum)
    rw [if_neg hv]
    exact round_signedInt_isRN _ hv

theorem fsub_fin_rounds (na nb : Bool) (ma mb : Nat) (ea eb : Int) :
    let a := F64.fin na ma ea
    let b := F64.fin nb mb eb
    if a.value - b.value = 0 then fsub a b = .zero (na && !nb) else IsRN (a.value - b.value) (fsub a b) := by
  have h := fadd_fin_rounds na (!nb) ma mb ea eb
  have hneg : F64.fin (!nb) mb eb = (F64.fin nb mb eb).neg := rfl
  simpa only [fsub, hneg, F64.value_neg, ← sub_eq_add_neg] using h

/-- The magnitude of a product or a quotient carries the combined sign. -/
theorem sign_bne (na nb : Bool) :
    (if (na != nb) = true then (-1 : ℚ) else 1) = (if na then -1 else 1) * (if nb then -1 else 1) := by
  cases na <;> cases nb <;> norm_num

theorem fmul_fin_rounds (na nb : Bool) (ma mb : Nat) (ea eb : Int) :
    let a := F64.fin na ma ea
    let b := F64.fin nb mb eb
    if a.value * b.value = 0 then fmul a b = .zero (na != nb) else IsRN (a.value * b.value) (fmul a b) := by
  dsimp only [fmul]
  split
  · next hzero =>
    have hm : ma * mb = 0 := by simpa [F64.value_eq_zero_iff] using hzero
    rw [hm, F64.round_zero, F64.zero]
  · next hne =>
    have hm : ma * mb ≠ 0 := by simpa [F64.value_eq_zero_iff] using hne
    have hvalue : (F64.fin na ma ea).value * (F64.fin nb mb eb).value =
        (if (na != nb) = true then -1 else 1) * ((ma * mb : Nat) : ℚ) * (2 : ℚ) ^ (ea + eb) := by
      rw [sign_bne, zpow_add₀ (by norm_num), F64.value, F64.value]
      push_cast; ring
    rw [hvalue]
    exact StandsFor.round_isRN _ _ hm (.inl rfl)

/-- The quotient's last bit is sticky: it says whether a remainder is left. -/
theorem quotient_standsFor {a b : Nat} (hb : b ≠ 0) (hlong : 2 ^ 53 * b ≤ a) :
    StandsFor (2 * (a / b) + if a % b = 0 then 0 else 1) (2 * (a / b : ℚ)) := by
  have hbQ : (0 : ℚ) < b := by exact_mod_cast Nat.pos_of_ne_zero hb
  have hdiv : (a : ℚ) / b = (a / b : Nat) + (a % b : Nat) / b := by
    rw [eq_comm, ← mul_right_cancel_iff_of_pos hbQ, add_mul, div_mul_cancel₀ _ hbQ.ne', div_mul_cancel₀ _ hbQ.ne']
    exact_mod_cast Nat.div_add_mod' a b
  by_cases hr : a % b = 0
  · refine .inl ?_
    rw [hdiv, hr]
    push_cast; simp
  · have hq : 2 ^ 53 ≤ a / b := (Nat.le_div_iff_mul_le (Nat.pos_of_ne_zero hb)).mpr hlong
    have hfrac_pos : 0 < ((a % b : Nat) : ℚ) / b := by
      have : 0 < a % b := Nat.pos_of_ne_zero hr
      positivity
    have hfrac_lt : ((a % b : Nat) : ℚ) / b < 1 := by
      rw [div_lt_one hbQ]
      exact_mod_cast Nat.mod_lt a (Nat.pos_of_ne_zero hb)
    refine .inr ⟨by rw [if_neg hr]; omega, by rw [if_neg hr]; omega, ?_⟩
    rw [hdiv, if_neg hr, abs_lt]
    push_cast
    constructor <;> linarith

theorem divFinite_isRN (n : Bool) {ma mb : Nat} (ea eb : Int) (hma : ma ≠ 0) (hmb : mb ≠ 0) (hb : mb < 2 ^ 53) :
    IsRN ((if n then -1 else 1) * ((ma : ℚ) / mb) * (2 : ℚ) ^ (ea - eb)) (divFinite n ma ea mb eb) := by
  have hlong : 2 ^ 53 * mb ≤ ma * 2 ^ 110 := by
    have : 1 ≤ ma := Nat.one_le_iff_ne_zero.mpr hma
    omega
  have hstands := quotient_standsFor hmb hlong
  have hne : 2 * (ma * 2 ^ 110 / mb) + (if ma * 2 ^ 110 % mb = 0 then 0 else 1) ≠ 0 := by
    have := (Nat.le_div_iff_mul_le (Nat.pos_of_ne_zero hmb)).mpr hlong
    omega
  have hscale : ((ma : ℚ) / mb) * (2 : ℚ) ^ (ea - eb) =
      2 * (((ma * 2 ^ 110 : Nat) : ℚ) / mb) * (2 : ℚ) ^ (ea - eb - 111) := by
    rw [← scale_down (show ea - eb - 111 ≤ ea - eb by omega), show (ea - eb - (ea - eb - 111)).toNat = 111 by omega]
    push_cast; ring
  rw [mul_assoc, hscale, ← mul_assoc]
  exact hstands.round_isRN n _ hne

theorem fdiv_fin_rounds (na nb : Bool) (ma mb : Nat) (ea eb : Int) (hb : (F64.fin nb mb eb).canonical = true) :
    let a := F64.fin na ma ea
    let b := F64.fin nb mb eb
    if b.value = 0 then fdiv a b = (if a.value = 0 then .nan else .inf (na != nb))
    else if a.value = 0 then fdiv a b = .zero (na != nb) else IsRN (a.value / b.value) (fdiv a b) := by
  dsimp only [fdiv]
  simp only [F64.value_eq_zero_iff]
  by_cases hmb : mb = 0
  · simp only [hmb, if_true]
  by_cases hma : ma = 0
  · subst hma
    simp [hmb, divFinite, F64.zero]
  simp only [hmb, hma, if_false]
  have hvalue : (F64.fin na ma ea).value / (F64.fin nb mb eb).value =
      (if (na != nb) = true then -1 else 1) * ((ma : ℚ) / mb) * (2 : ℚ) ^ (ea - eb) := by
    have hself : ((if nb then -1 else 1 : ℚ))⁻¹ = if nb then -1 else 1 := by cases nb <;> norm_num
    rw [sign_bne, zpow_sub₀ (by norm_num), F64.value, F64.value, div_eq_mul_inv, mul_inv, mul_inv, hself]
    ring
  rw [hvalue]
  exact divFinite_isRN _ ea eb hma hmb ((F64.canonical_fin_iff nb mb eb).mp hb).1

/-- Settles O43: the finite operands by the rounding of the exact result, the others by the cases of the operations. -/
theorem arithmeticRoundsTheExactResult : Obligations.ArithmeticRoundsTheExactResult := by
  refine ⟨fun na nb ma mb ea eb _ hb => ?_, fun n nb mb eb => ?_, fun n n' => ?_, fun v => ?_⟩
  · exact ⟨fadd_fin_rounds na nb ma mb ea eb, fsub_fin_rounds na nb ma mb ea eb, fmul_fin_rounds na nb ma mb ea eb,
      fdiv_fin_rounds na nb ma mb ea eb hb⟩
  · simp only [F64.value_eq_zero_iff]
    exact ⟨rfl, rfl, rfl, rfl, rfl, rfl, rfl, rfl⟩
  · cases n <;> cases n' <;> decide
  · simp [fsub, F64.neg]

end Sys2Proof.Machine
end

