-- ==== Sys2Proof/Proofs/StateRules.lean ====
section
/-!
PROOFS. The items of state, the sticky flags, the interrupt output and the read shadows (R30 to R61). A step is first
read as one of five events (`StepBy`), in which a write to CMD is a bus write like any other; each statement over every
step then asks only what the engine's turn, a read, a write, a supply of draws and the reset input do to one field.
-/

namespace Sys2Proof.Machine

open Sys2Proof.Claims

/-! ### The event at the head of the inputs -/

theorem nextWrite_iff (s : State) (addr : Addr) (d : Word) :
    NextWrite s addr d ↔ s.inputs.head? = some (.host ⟨true, addr, d⟩) := by
  cases h : s.inputs <;> simp [NextWrite, h]

theorem nextPowerOn_iff (s : State) : NextPowerOn s ↔ s.inputs.head? = some .powerOn := by
  cases h : s.inputs <;> simp [NextPowerOn, h]

theorem nextEngine_iff (s : State) : NextEngine s ↔ s.inputs.head? = none ∨ s.inputs.head? = some .engine := by
  cases h : s.inputs <;> simp [NextEngine, h]

theorem not_nextWrite_of_nextEngine {s : State} (h : NextEngine s) (addr : Addr) (d : Word) :
    ¬ NextWrite s addr d := by
  rw [nextWrite_iff]
  rcases (nextEngine_iff s).mp h with hhead | hhead <;> simp [hhead]

theorem not_nextPowerOn_of_nextEngine {s : State} (h : NextEngine s) : ¬ NextPowerOn s := by
  rw [nextPowerOn_iff]
  rcases (nextEngine_iff s).mp h with hhead | hhead <;> simp [hhead]

theorem exists_nextWrite_iff {s : State} {addr : Addr} {d : Word} (h : NextWrite s addr d) (addr' : Addr)
    (P : Word → Prop) : (∃ c, NextWrite s addr' c ∧ P c) ↔ addr = addr' ∧ P d := by
  rw [nextWrite_iff] at h
  simp only [nextWrite_iff, h, Option.some.injEq, Event.host.injEq, BusCycle.mk.injEq, true_and]
  exact ⟨fun ⟨c, ⟨ha, hd⟩, hP⟩ => ⟨ha, hd ▸ hP⟩, fun ⟨ha, hP⟩ => ⟨d, ⟨ha, rfl⟩, hP⟩⟩

theorem not_nextEngine_of_nextWrite {s : State} {addr : Addr} {d : Word} (h : NextWrite s addr d) :
    ¬ NextEngine s := fun hengine => not_nextWrite_of_nextEngine hengine addr d h

theorem not_nextPowerOn_of_nextWrite {s : State} {addr : Addr} {d : Word} (h : NextWrite s addr d) :
    ¬ NextPowerOn s := by
  rw [nextWrite_iff] at h
  simp [nextPowerOn_iff, h]

/-- The state once the event at the head of its inputs is taken. -/
def State.dropInput (s : State) : State := { s with inputs := s.inputs.tail }

@[simp] theorem State.dropInput_done (s : State) : s.dropInput.done = s.done := rfl
@[simp] theorem State.dropInput_stepsLeft (s : State) : s.dropInput.stepsLeft = s.stepsLeft := rfl
@[simp] theorem State.dropInput_mem (s : State) : s.dropInput.mem = s.mem := rfl
@[simp] theorem State.dropInput_powerOns (s : State) : s.dropInput.powerOns = s.powerOns := rfl
@[simp] theorem State.dropInput_mfLoaded (s : State) : s.dropInput.mfLoaded = s.mfLoaded := rfl
@[simp] theorem State.dropInput_rsLoaded (s : State) : s.dropInput.rsLoaded = s.rsLoaded := rfl
@[simp] theorem State.dropInput_sampleEnabled (s : State) : s.dropInput.sampleEnabled = s.sampleEnabled := rfl
@[simp] theorem errBit_dropInput (s : State) (e : ErrFlag) : errBit s.dropInput e = errBit s e := rfl

/-! ### The address map, read backwards -/

theorem locate_eq_status {addr : Addr} (h : locate addr = some .status) : addr = 0x0004 := by
  obtain ⟨-, ⟨-, hl⟩ | ⟨-, hrow⟩⟩ := locate_cases addr _ h
  · cases hl
  · exact BitVec.eq_of_toNat_eq (by simpa [registerMap] using hrow)

theorem locate_eq_cmd {addr : Addr} (h : locate addr = some .cmd) : addr = 0x0008 := by
  obtain ⟨-, ⟨-, hl⟩ | ⟨-, hrow⟩⟩ := locate_cases addr _ h
  · cases hl
  · exact BitVec.eq_of_toNat_eq (by simpa [registerMap] using hrow)

theorem locate_of_coefficientAddress {addr : Addr} (h : CoefficientAddress addr) :
    locate addr = some (.coef addr.toNat) :=
  locate_coefficient addr h.1 ((inCoefficients_iff _).mpr h.2)

theorem coefficientAddress_of_locate {addr : Addr} {a : Nat} (h : locate addr = some (.coef a)) :
    CoefficientAddress addr ∧ a = addr.toNat := by
  obtain ⟨rfl, haligned, hrange⟩ := locate_coef_inv addr a h
  exact ⟨⟨haligned, (inCoefficients_iff _).mp hrange⟩, rfl⟩

/-! ### A transaction at a known location -/

theorem exec_busRead_of_locate {addr : Addr} {l : Loc} (h : locate addr = some l) (s : State) :
    exec (.busRead addr) s = .next ((s.readEffect l).answer (s.readValue l)) := by
  simp [exec, execBusRead, State.busRead, h]

theorem State.busWrite_of_locate {addr : Addr} {l : Loc} (h : locate addr = some l) (s : State) (d : Word) :
    s.busWrite addr d = if l.readOnly then s.flag .addr
      else if s.busy && l.lockedWhileBusy d then s.flag .busy else s.writeAccepted d l := by
  simp [State.busWrite, h]

theorem State.busWrite_status (s : State) (d : Word) : s.busWrite 0x0004 d = s.clearFlags d := by
  rw [State.busWrite_of_locate (l := .status) rfl]
  simp [Loc.readOnly, Loc.lockedWhileBusy, State.writeAccepted]

theorem State.busWrite_irqEn (s : State) (d : Word) :
    s.busWrite 0x000C d = { s with irqEn := d &&& Config.irqMask } := by
  rw [State.busWrite_of_locate (l := .irqEn) rfl]
  simp [Loc.readOnly, Loc.lockedWhileBusy, State.writeAccepted]

theorem State.busWrite_cmd (s : State) (c : Word) :
    s.busWrite 0x0008 c = if lockedCommand c then s.unlessBusy (s.command c) else s.command c := by
  rw [State.busWrite_of_locate (l := .cmd) rfl]
  cases hlocked : lockedCommand c <;>
    simp [Loc.readOnly, Loc.lockedWhileBusy, State.writeAccepted, State.unlessBusy, hlocked]

theorem State.busWrite_coefficient {addr : Addr} (h : CoefficientAddress addr) (s : State) (d : Word) :
    s.busWrite addr d = s.unlessBusy { s with mem := s.mem.setWord addr.toNat d } := by
  rw [State.busWrite_of_locate (locate_of_coefficientAddress h)]
  simp [Loc.readOnly, Loc.lockedWhileBusy, State.writeAccepted, State.unlessBusy]

theorem lockedCommand_reserved {c : Word} (h : 4 ≤ (opcOf c).toNat) : lockedCommand c = false := by
  simp only [lockedCommand, Bool.or_eq_false_iff, decide_eq_false_iff_not]
  omega

theorem State.command_reserved {c : Word} (h : 4 ≤ (opcOf c).toNat) (s : State) : s.command c = s.flag .cmd := by
  rw [State.command]
  split <;> [omega; omega; omega; omega; rfl]

/-- A decoded command has the meaning of the bus write of its word to CMD (R119, R150). -/
theorem nextOf_decodeCommand (c : Word) (s : State) : nextOf (decodeCommand c) s = s.busWrite 0x0008 c := by
  rw [State.busWrite_cmd]
  rcases decodeCommand_cases c with ⟨hopc, hdec⟩ | ⟨hopc, hdec⟩ | ⟨hopc, hdec⟩ | ⟨hopc, hdec⟩ | ⟨hopc, hdec⟩
  · simp [hdec, nextOf, lockedCommand, State.command, hopc]
  · simp [hdec, nextOf, lockedCommand, State.command, hopc]
  · simp [hdec, nextOf, lockedCommand, State.command, hopc]
  · simp [hdec, nextOf, lockedCommand, State.command, hopc]
  · simp [hdec, nextOf, lockedCommand_reserved hopc, State.command_reserved hopc]

theorem nextOf_decode (b : BusCycle) (s : State) :
    nextOf (decode b) s = if b.write then s.busWrite b.addr b.data else s.busRead b.addr := by
  unfold decode
  split
  · split
    · next hcmd => rw [nextOf_decodeCommand, hcmd]; rfl
    · rfl
  · rfl

/-! ### A step, by its event -/

/-- How a step from `s` comes to `t`: the event that it answers, and what that event does. -/
inductive StepBy (s t : State) : Prop where
  | engine (hnext : NextEngine s) (ht : t = s.dropInput.engineTurn)
  | read (addr : Addr) (d : Word) (hhead : s.inputs.head? = some (.host ⟨false, addr, d⟩))
      (ht : t = s.dropInput.busRead addr)
  | write (addr : Addr) (d : Word) (hnext : NextWrite s addr d) (ht : t = s.dropInput.busWrite addr d)
  | supply (ds : List Draw) (hhead : s.inputs.head? = some (.supply ds)) (ht : t = s.dropInput.supplyDraws ds)
  | powerOn (hnext : NextPowerOn s) (ht : t = s.dropInput.powerOn)

theorem stepBy_of_step {s t : State} (h : step s = .next t) : StepBy s t := by
  rcases step_cases s t h with ⟨hin, ht⟩ | ⟨⟨w, addr, d⟩, rest, hin, ht⟩ | ⟨rest, hin, ht⟩ | ⟨ds, rest, hin, ht⟩ |
    ⟨rest, hin, ht⟩
  · refine .engine (.inl hin) ?_
    rw [ht, State.dropInput, hin, List.tail_nil, ← hin]
  · rw [nextOf_decode] at ht
    cases w with
    | false => exact .read addr d (by rw [hin]; rfl) (by rw [ht, State.dropInput, hin]; rfl)
    | true => exact .write addr d ⟨rest, hin⟩ (by rw [ht, State.dropInput, hin]; rfl)
  · exact .engine (.inr ⟨rest, hin⟩) (by rw [ht, State.dropInput, hin]; rfl)
  · exact .supply ds (by rw [hin]; rfl) (by rw [ht, State.dropInput, hin]; rfl)
  · exact .powerOn ⟨rest, hin⟩ (by rw [ht, State.dropInput, hin]; rfl)

theorem step_of_nextWrite {s : State} {addr : Addr} {d : Word} (h : NextWrite s addr d) :
    step s = .next (s.dropInput.busWrite addr d) := by
  obtain ⟨rest, hin⟩ := h
  simp only [step, hin, exec_eq_nextOf, nextOf_decode, State.dropInput, List.tail_cons, if_true]

theorem step_of_nextPowerOn {s : State} (h : NextPowerOn s) : step s = .next s.dropInput.powerOn := by
  obtain ⟨rest, hin⟩ := h
  simp only [step, hin, State.withoutHost, State.dropInput, List.tail_cons]

/-! ### The error flags -/

@[simp] theorem errBit_flag (s : State) (e f : ErrFlag) :
    errBit (s.flag f) e = (errBit s e || decide (e = f)) := by
  cases f <;> cases e <;> simp [errBit]

@[simp] theorem errBit_answer (s : State) (w : Word) (e : ErrFlag) : errBit (s.answer w) e = errBit s e := rfl

@[simp] theorem errBit_setCfg (s : State) (r : CfgReg) (p : Pattern) (e : ErrFlag) :
    errBit (s.setCfg r p) e = errBit s e := by cases e <;> simp [errBit]

@[simp] theorem errBit_setShadow (s : State) (r : PowerReg) (w : Word) (e : ErrFlag) :
    errBit (s.setShadow r w) e = errBit s e := by cases e <;> simp [errBit]

@[simp] theorem errBit_supplyDraws (s : State) (ds : List Draw) (e : ErrFlag) :
    errBit (s.supplyDraws ds) e = errBit s e := rfl

@[simp] theorem errBit_initRun (s : State) (e : ErrFlag) : errBit s.initRun e = errBit s e := rfl

theorem errBit_clearFlags (s : State) (d : Word) (e : ErrFlag) :
    errBit (s.clearFlags d) e = (errBit s e && !d.getLsbD (errBitNumber e)) := by cases e <;> rfl

section
variable {s : State} {e : ErrFlag} (h : errBit s e = true)
include h

theorem errBit_command_of_set (c : Word) : errBit (s.command c) e = true := by
  rcases s.command_cases c with ⟨-, hc⟩ | ⟨-, hc⟩ | ⟨-, hc⟩ | ⟨-, hc⟩ | ⟨-, hc⟩ <;> rw [hc]
  · exact h
  · exact h
  · rcases s.startStep_cases (argOf c) with ⟨-, hs⟩ | ⟨-, -, -, hs⟩ | ⟨-, -, -, hs⟩ <;> rw [hs]
    · simp [h]
    · exact h
    · exact h
  · rcases s.abortRun_cases with ⟨-, ha⟩ | ⟨-, ha⟩ <;> rw [ha] <;> exact h
  · simp [h]

theorem errBit_writeAccepted_of_set (d : Word) {l : Loc} (hl : l ≠ .status) :
    errBit (s.writeAccepted d l) e = true := by
  cases l with
  | status => exact absurd rfl hl
  | cmd => exact errBit_command_of_set h d
  | cfg r half => simpa [State.writeAccepted] using h
  | _ => exact h

/-- Only a write of 1 to its bit of STATUS clears an error flag (R146). -/
theorem errBit_busWrite_of_set (addr : Addr) (d : Word) :
    errBit (s.busWrite addr d) e = true ∨ (addr = 0x0004 ∧ d.getLsbD (errBitNumber e) = true) := by
  rcases s.busWrite_cases addr d with ⟨-, hw⟩ | ⟨-, -, -, -, -, hw⟩ | ⟨l, hl, -, -, hw⟩ <;> rw [hw]
  · simp [h]
  · simp [h]
  · by_cases hstatus : l = .status
    · subst hstatus
      cases hd : d.getLsbD (errBitNumber e) with
      | true => exact .inr ⟨locate_eq_status hl, rfl⟩
      | false => exact .inl (by simp [State.writeAccepted, errBit_clearFlags, h, hd])
    · exact .inl (errBit_writeAccepted_of_set h d hstatus)

theorem errBit_busRead_of_set (addr : Addr) : errBit (s.busRead addr) e = true := by
  rcases s.busRead_cases addr with ⟨-, hr⟩ | ⟨l, -, hr⟩ <;> rw [hr, errBit_answer]
  · simp [h]
  · rcases s.readEffect_cases l with he | ⟨-, he⟩ | ⟨r, -, he⟩ <;> rw [he]
    · exact h
    · rcases s.popFifo_cases with ⟨-, hp⟩ | ⟨w, rest, -, hp⟩ <;> rw [hp]
      · simp [h]
      · exact h
    · simpa using h

theorem errBit_sampleStep_of_set : errBit s.sampleStep e = true := by
  cases e with
  | ovf =>
    have hovf : s.errOvf = true := h
    simp [errBit, State.sampleStep, hovf]
  | sat =>
    have hsat : s.errSat = true := h
    simp [errBit, State.sampleStep, hsat]
  | _ => exact h

theorem errBit_engineTurn_of_set : errBit s.engineTurn e = true := by
  rcases s.engineTurn_cases with ⟨-, ht⟩ | ⟨-, ht⟩ <;> rw [ht]
  · exact errBit_sampleStep_of_set h
  · exact h

end

/-- Settles O25: of the five events only a STATUS write and the reset input clear a flag. -/
theorem errorFlagsAreSticky : Obligations.ErrorFlagsAreSticky := by
  intro s t e hstep h
  rw [← errBit_dropInput] at h
  cases stepBy_of_step hstep with
  | engine _ ht => exact .inl (ht ▸ errBit_engineTurn_of_set h)
  | read addr _ _ ht => exact .inl (ht ▸ errBit_busRead_of_set h addr)
  | write addr d hnext ht =>
    rcases errBit_busWrite_of_set h addr d with hkept | ⟨rfl, hbit⟩
    · exact .inl (ht ▸ hkept)
    · exact .inr (.inl ⟨d, hnext, hbit⟩)
  | supply ds _ ht => exact .inl (by rw [ht, errBit_supplyDraws, h])
  | powerOn hnext _ => exact .inr (.inr hnext)

/-! ### DONE -/

theorem loaded_iff (s : State) : Loaded s ↔ s.mfLoaded = true ∧ s.rsLoaded = true := by
  rw [s.mfLoaded_iff, s.rsLoaded_iff]
  exact ⟨fun h => ⟨h.mf, h.rs⟩, fun ⟨hmf, hrs⟩ => ⟨hmf, hrs⟩⟩

theorem loaded_dropInput (s : State) : Loaded s.dropInput ↔ Loaded s := by simp [loaded_iff]

theorem State.busRead_done (s : State) (addr : Addr) : (s.busRead addr).done = s.done := by
  rcases s.busRead_cases addr with ⟨-, hr⟩ | ⟨l, -, hr⟩ <;> rw [hr, State.answer_done]
  · exact s.flag_done _
  · rcases s.readEffect_cases l with he | ⟨-, he⟩ | ⟨r, -, he⟩ <;> rw [he]
    · rcases s.popFifo_cases with ⟨-, hp⟩ | ⟨w, rest, -, hp⟩ <;> rw [hp]
      exact s.flag_done _
    · exact s.setShadow_done _ _

theorem State.engineTurn_done (s : State) :
    s.engineTurn.done = (s.done || (s.sampleEnabled && decide (s.stepsLeft = 1))) := by
  rcases s.engineTurn_cases with ⟨hen, ht⟩ | ⟨hen, ht⟩ <;> simp [ht, hen, State.sampleStep]

/-- STEP clears DONE exactly where it starts a run (R151, R152). -/
theorem State.startStep_done (s : State) (n : BitVec 24) :
    (s.startStep n).done = (s.done && !(s.mfLoaded && s.rsLoaded && decide (n ≠ 0))) := by
  rcases s.startStep_cases n with ⟨hm | hr, hs⟩ | ⟨hm, hr, hn, hs⟩ | ⟨hm, hr, hn, hs⟩ <;> rw [hs]
  · simp [hm]
  · simp [hr]
  · simp [hn]
  · rw [hm, hr, decide_eq_true hn]
    simp

/-- ABORT sets DONE exactly where it ends a run (R154). -/
theorem State.abortRun_done (s : State) : s.abortRun.done = (s.done || s.busy) := by
  rcases s.abortRun_cases with ⟨hb, ha⟩ | ⟨hb, ha⟩ <;> simp [ha, hb]

theorem State.unlessBusy_done (s t : State) : (s.unlessBusy t).done = if s.busy then s.done else t.done := by
  rcases s.unlessBusy_cases t with ⟨hb, hu⟩ | ⟨hb, hu⟩ <;> simp [hu, hb]

/-- Of the locations only STATUS and CMD reach DONE. -/
theorem State.busWrite_done_of_other (s : State) {addr : Addr} (d : Word) (hstatus : addr ≠ 0x0004)
    (hcmd : addr ≠ 0x0008) : (s.busWrite addr d).done = s.done := by
  rcases s.busWrite_cases addr d with ⟨-, hw⟩ | ⟨-, -, -, -, -, hw⟩ | ⟨l, hl, -, -, hw⟩ <;> rw [hw]
  · exact s.flag_done _
  · exact s.flag_done _
  · cases l with
    | status => exact absurd (locate_eq_status hl) hstatus
    | cmd => exact absurd (locate_eq_cmd hl) hcmd
    | cfg r half => exact s.setCfg_done _ _
    | _ => rfl

/-- DONE after a write to CMD: set by an ABORT of a running command, cleared by an accepted STEP with a nonzero count. -/
theorem State.busWrite_cmd_done (s : State) (c : Word) :
    (s.busWrite 0x0008 c).done =
      ((s.done || (decide (opcOf c = 3) && s.busy)) &&
        !(decide (opcOf c = 2) && !s.busy && (s.mfLoaded && s.rsLoaded && decide (argOf c ≠ 0)))) := by
  rw [State.busWrite_cmd]
  rcases s.command_cases c with ⟨hopc, hc⟩ | ⟨hopc, hc⟩ | ⟨hopc, hc⟩ | ⟨hopc, hc⟩ | ⟨hopc, hc⟩
  · simp [hc, hopc, lockedCommand]
  · simp [hc, hopc, lockedCommand, State.unlessBusy_done]
  · cases hb : s.busy <;> simp [hc, hopc, lockedCommand, State.unlessBusy_done, State.startStep_done, hb]
  · simp [hc, hopc, lockedCommand, State.abortRun_done]
  · have h2 : opcOf c ≠ 2 := fun h => by rw [h] at hopc; exact absurd hopc (by decide)
    have h3 : opcOf c ≠ 3 := fun h => by rw [h] at hopc; exact absurd hopc (by decide)
    rw [hc, lockedCommand_reserved hopc, decide_eq_false h2, decide_eq_false h3]
    simp

theorem State.busWrite_cmd_sets_done {s : State} (h : s.done = false) (c : Word) :
    (s.busWrite 0x0008 c).done = true ↔ opcOf c = 3 ∧ s.stepsLeft ≠ 0 := by
  rw [State.busWrite_cmd_done, h, ← State.busy_iff]
  by_cases h3 : opcOf c = 3
  · simp [h3]
  · exact iff_of_false (by rw [decide_eq_false h3]; simp) fun hset => h3 hset.1

theorem State.busWrite_cmd_clears_done {s : State} (h : s.done = true) (c : Word) :
    (s.busWrite 0x0008 c).done = false ↔ opcOf c = 2 ∧ s.stepsLeft = 0 ∧ Loaded s ∧ argOf c ≠ 0 := by
  rw [State.busWrite_cmd_done, h, ← State.busy_eq_false_iff, loaded_iff]
  simp [and_assoc]

/-- Settles O26: what each of the five events does to DONE. -/
theorem doneChangesOnlyAsStated : Obligations.DoneChangesOnlyAsStated := by
  intro s t hstep
  cases stepBy_of_step hstep with
  | engine hnext ht =>
    have hdone : t.done = (s.done || (s.sampleEnabled && decide (s.stepsLeft = 1))) := by
      rw [ht, State.engineTurn_done]; rfl
    have hwrite := not_nextWrite_of_nextEngine hnext
    have hpower := not_nextPowerOn_of_nextEngine hnext
    exact ⟨fun h => by simp [hdone, h, hnext, hwrite], fun h => by simp [hdone, h, hwrite, hpower]⟩
  | read addr d hhead ht =>
    have hdone : t.done = s.done := by rw [ht, State.busRead_done]; rfl
    simp only [nextEngine_iff, nextWrite_iff, nextPowerOn_iff, hhead]
    exact ⟨fun h => by simp [hdone, h], fun h => by simp [hdone, h]⟩
  | write addr d hnext ht =>
    simp only [exists_nextWrite_iff hnext, not_nextEngine_of_nextWrite hnext, not_nextPowerOn_of_nextWrite hnext,
      false_and, false_or, or_false]
    by_cases hcmd : addr = 0x0008
    · subst hcmd
      refine ⟨fun h => ?_, fun h => ?_⟩
      · rw [ht, State.busWrite_cmd_sets_done (by exact h)]
        exact ⟨fun hset => ⟨rfl, hset⟩, fun hset => hset.2⟩
      · rw [ht, State.busWrite_cmd_clears_done (by exact h), loaded_dropInput]
        exact ⟨fun hclear => .inl ⟨rfl, hclear⟩,
          fun hclear => (hclear.resolve_right fun hs => absurd hs.1 (by decide)).2⟩
    · by_cases hstatus : addr = 0x0004
      · subst hstatus
        have hdone : t.done = (s.done && !d.getLsbD 1) := by rw [ht, State.busWrite_status]; rfl
        exact ⟨fun h => by simp [hdone, h], fun h => by simp [hdone, h]⟩
      · have hdone : t.done = s.done := by rw [ht, State.busWrite_done_of_other _ _ hstatus hcmd]; rfl
        simp only [hdone, hcmd, hstatus, false_and, or_false, iff_false]
        exact ⟨fun h => by simp [h], fun h => by simp [h]⟩
  | supply ds hhead ht =>
    have hdone : t.done = s.done := by rw [ht]; rfl
    simp only [nextEngine_iff, nextWrite_iff, nextPowerOn_iff, hhead]
    exact ⟨fun h => by simp [hdone, h], fun h => by simp [hdone, h]⟩
  | powerOn hnext ht =>
    have hdone : t.done = false := by rw [ht]; rfl
    rw [nextPowerOn_iff] at hnext
    simp only [nextEngine_iff, nextWrite_iff, nextPowerOn_iff, hnext]
    exact ⟨fun h => by simp [hdone], fun h => by simp [hdone]⟩

/-! ### The coefficient memories -/

theorem State.busRead_mem (s : State) (addr : Addr) :
    (s.busRead addr).mem = s.mem ∧ (s.busRead addr).powerOns = s.powerOns := by
  rcases s.busRead_cases addr with ⟨-, hr⟩ | ⟨l, -, hr⟩ <;> rw [hr, State.answer_mem, State.answer_powerOns]
  · simp
  · rcases s.readEffect_cases l with he | ⟨-, he⟩ | ⟨r, -, he⟩ <;> rw [he]
    · exact ⟨rfl, rfl⟩
    · rcases s.popFifo_cases with ⟨-, hp⟩ | ⟨w, rest, -, hp⟩ <;> rw [hp]
      · simp
      · exact ⟨rfl, rfl⟩
    · simp

theorem State.engineTurn_mem (s : State) :
    s.engineTurn.mem = s.mem ∧ s.engineTurn.powerOns = s.powerOns := by
  rcases s.engineTurn_cases with ⟨-, ht⟩ | ⟨-, ht⟩ <;> rw [ht] <;> exact ⟨rfl, rfl⟩

theorem State.command_mem (s : State) (c : Word) :
    (s.command c).mem = s.mem ∧ (s.command c).powerOns = s.powerOns := by
  rcases s.command_cases c with ⟨-, hc⟩ | ⟨-, hc⟩ | ⟨-, hc⟩ | ⟨-, hc⟩ | ⟨-, hc⟩ <;> rw [hc]
  · exact ⟨rfl, rfl⟩
  · exact ⟨rfl, rfl⟩
  · rcases s.startStep_cases (argOf c) with ⟨-, hs⟩ | ⟨-, -, -, hs⟩ | ⟨-, -, -, hs⟩ <;> rw [hs] <;> exact ⟨rfl, rfl⟩
  · rcases s.abortRun_cases with ⟨-, ha⟩ | ⟨-, ha⟩ <;> rw [ha] <;> exact ⟨rfl, rfl⟩
  · exact ⟨rfl, rfl⟩

/-- The only bus write that reaches a coefficient memory is one of a coefficient to an idle block (R54, R145). -/
theorem State.busWrite_mem (s : State) (addr : Addr) (d : Word) :
    (s.busWrite addr d).powerOns = s.powerOns ∧
    ((s.busWrite addr d).mem = s.mem ∨
      (CoefficientAddress addr ∧ s.stepsLeft = 0 ∧ (s.busWrite addr d).mem = s.mem.setWord addr.toNat d)) := by
  rcases s.busWrite_cases addr d with ⟨-, hw⟩ | ⟨-, -, -, -, -, hw⟩ | ⟨l, hl, -, hidle, hw⟩ <;> rw [hw]
  · exact ⟨rfl, .inl rfl⟩
  · exact ⟨rfl, .inl rfl⟩
  · cases l with
    | cmd => exact ⟨(s.command_mem d).2, .inl (s.command_mem d).1⟩
    | cfg r half => exact ⟨s.setCfg_powerOns _ _, .inl (s.setCfg_mem _ _)⟩
    | coef a =>
      obtain ⟨hcoef, rfl⟩ := coefficientAddress_of_locate hl
      exact ⟨rfl, .inr ⟨hcoef, s.busy_eq_false_iff.mp (hidle.resolve_right (by simp [Loc.lockedWhileBusy])), rfl⟩⟩
    | _ => exact ⟨rfl, .inl rfl⟩

theorem State.busWrite_coefficient_mem {addr : Addr} (h : CoefficientAddress addr) {s : State} (hidle : s.stepsLeft = 0)
    (d : Word) : (s.busWrite addr d).mem = s.mem.setWord addr.toNat d := by
  rw [State.busWrite_coefficient h, State.unlessBusy, s.busy_eq_false_iff.mpr hidle]
  rfl

/-- A step other than power-on reset leaves the memories alone, or is the write of one coefficient to an idle block. -/
theorem step_mem_cases {s t : State} (hstep : step s = .next t) (hpower : ¬ NextPowerOn s) :
    t.powerOns = s.powerOns ∧
    (t.mem = s.mem ∨ ∃ addr d, NextWrite s addr d ∧ CoefficientAddress addr ∧ s.stepsLeft = 0 ∧
      t.mem = s.mem.setWord addr.toNat d) := by
  cases stepBy_of_step hstep with
  | engine _ ht =>
    obtain ⟨hmem, hgen⟩ := s.dropInput.engineTurn_mem
    exact ⟨ht ▸ hgen, .inl (ht ▸ hmem)⟩
  | read addr _ _ ht =>
    obtain ⟨hmem, hgen⟩ := s.dropInput.busRead_mem addr
    exact ⟨ht ▸ hgen, .inl (ht ▸ hmem)⟩
  | write addr d hnext ht =>
    obtain ⟨hgen, hmem | ⟨hcoef, hidle, hmem⟩⟩ := s.dropInput.busWrite_mem addr d
    · exact ⟨ht ▸ hgen, .inl (ht ▸ hmem)⟩
    · exact ⟨ht ▸ hgen, .inr ⟨addr, d, hnext, hcoef, hidle, ht ▸ hmem⟩⟩
  | supply ds _ ht => exact ⟨ht ▸ rfl, .inl (ht ▸ rfl)⟩
  | powerOn hnext _ => exact absurd hnext hpower

/-- Settles O18: the step writes another entry, which lies apart since both addresses are aligned, or none. -/
theorem onlyCoefficientWritesChangeEntries : Obligations.OnlyCoefficientWritesChangeEntries := by
  intro s t hstep
  refine ⟨fun hpower a => ?_, fun hpower addr hcoef => ⟨?_, fun hnot => ?_⟩⟩
  · rw [step_of_nextPowerOn hpower] at hstep
    obtain rfl := Host.Outcome.next.inj hstep
    rfl
  · rintro ⟨d, hnext, hidle⟩
    rw [step_of_nextWrite hnext] at hstep
    obtain rfl := Host.Outcome.next.inj hstep
    rw [State.busWrite_coefficient_mem hcoef (by exact hidle)]
    exact Memory.written_setWord_self _ _ _
  · obtain ⟨hgen, hmem | ⟨addr', d, hnext, hcoef', hidle, hmem⟩⟩ := step_mem_cases hstep hpower
    · simp [State.coefByte, hmem, hgen]
    · have hne : addr ≠ addr' := fun heq => hnot ⟨d, heq ▸ hnext, hidle⟩
      have hapart : addr.toNat + 4 ≤ addr'.toNat ∨ addr'.toNat + 4 ≤ addr.toNat := by
        have hneNat : addr.toNat ≠ addr'.toNat := fun heq => hne (BitVec.eq_of_toNat_eq heq)
        have halign := hcoef.1
        have halign' := hcoef'.1
        omega
      refine ⟨by rw [hmem, Memory.written_setWord_other _ _ _ _ hapart], fun i hi => ?_⟩
      rw [State.coefByte, hmem, hgen, Memory.readByte_setWord_other _ _ _ _ _ (by omega)]
      rfl

/-! ### The interrupt output -/

@[simp] theorem bitAt_getElem (i : Nat) (b : Bool) (j : Nat) (hj : j < 32) :
    (bitAt i b)[j] = (b && decide (i = j)) := by
  cases b
  · simp [bitAt]
  · rw [← BitVec.getLsbD_eq_getElem, bitAt, if_pos rfl, BitVec.getLsbD_ofNat, Nat.testBit_two_pow]
    simp [hj]

theorem State.statusWord_getLsbD_done (s : State) : s.statusWord.getLsbD 1 = s.done := by
  simp [State.statusWord]

theorem State.statusWord_getLsbD_fifoNe (s : State) : s.statusWord.getLsbD 4 = s.fifoNe := by
  simp [State.statusWord]

theorem State.statusWord_getLsbD_errBit (s : State) (e : ErrFlag) :
    s.statusWord.getLsbD (errBitNumber e) = errBit s e := by
  cases e <;> simp [State.statusWord, errBitNumber, errBit]

/-- The sources of IRQ are DONE, FIFO_NE and the error flags (R37, R341). -/
theorem mem_interruptSources_iff (i : Nat) :
    i ∈ interruptSources ↔ i = 1 ∨ i = 4 ∨ ∃ e : ErrFlag, i = errBitNumber e := by
  constructor
  · intro h
    simp only [interruptSources, List.mem_cons, List.not_mem_nil, or_false] at h
    rcases h with h | h | h | h | h | h | h | h | h
    · exact .inl h
    · exact .inr (.inl h)
    · exact .inr (.inr ⟨.cmd, h⟩)
    · exact .inr (.inr ⟨.busy, h⟩)
    · exact .inr (.inr ⟨.coef, h⟩)
    · exact .inr (.inr ⟨.addr, h⟩)
    · exact .inr (.inr ⟨.fifo, h⟩)
    · exact .inr (.inr ⟨.ovf, h⟩)
    · exact .inr (.inr ⟨.sat, h⟩)
  · rintro (rfl | rfl | ⟨e, rfl⟩)
    · decide
    · decide
    · cases e <;> decide

theorem State.irq_iff (s : State) :
    s.irq = true ↔ (s.done = true ∧ s.irqEn.getLsbD 1 = true) ∨ (s.fifo ≠ [] ∧ s.irqEn.getLsbD 4 = true) ∨
      ∃ e : ErrFlag, errBit s e = true ∧ s.irqEn.getLsbD (errBitNumber e) = true := by
  have hfifo : s.fifoNe = true ↔ s.fifo ≠ [] := by simp [State.fifoNe]
  simp only [State.irq, List.any_eq_true, Bool.and_eq_true, mem_interruptSources_iff]
  rw [← hfifo, ← s.statusWord_getLsbD_done, ← s.statusWord_getLsbD_fifoNe]
  simp only [← s.statusWord_getLsbD_errBit]
  constructor
  · rintro ⟨i, rfl | rfl | ⟨e, rfl⟩, hsource⟩
    · exact .inl hsource
    · exact .inr (.inl hsource)
    · exact .inr (.inr ⟨e, hsource⟩)
  · rintro (hsource | hsource | ⟨e, hsource⟩)
    · exact ⟨1, .inl rfl, hsource⟩
    · exact ⟨4, .inr (.inl rfl), hsource⟩
    · exact ⟨_, .inr (.inr ⟨e, rfl⟩), hsource⟩

theorem State.irq_of_irqEn_zero {s : State} (h : s.irqEn = 0) : s.irq = false := by
  simp [State.irq, h]

/-- Settles O22: the write and the read of IRQ_EN by their location, IRQ by its sources. -/
theorem interruptOutputAndEnable : Obligations.InterruptOutputAndEnable := by
  refine ⟨rfl, State.irq_of_irqEn_zero rfl, fun s d => ⟨?_, ?_, s.irq_iff⟩⟩
  · exact congrArg _ (s.busWrite_irqEn d)
  · exact exec_busRead_of_locate (l := .irqEn) rfl s

/-! ### The read shadows -/

theorem exec_busRead_lo {addr : Addr} {r : PowerReg} (h : locate addr = some (.power r .lo)) (s : State) :
    exec (.busRead addr) s =
      .next ((s.setShadow r (halfOf (s.powerPattern r) .hi)).answer (halfOf (s.powerPattern r) .lo)) :=
  exec_busRead_of_locate h s

theorem exec_busRead_hi {addr : Addr} {r : PowerReg} (h : locate addr = some (.power r .hi)) (s : State) :
    exec (.busRead addr) s = .next (s.answer (s.shadow r)) :=
  exec_busRead_of_locate h s

theorem State.sampleStep_shadow (s : State) (r : PowerReg) : s.sampleStep.shadow r = s.shadow r := by cases r <;> rfl

theorem halfOf_append (p : Pattern) : halfOf p .hi ++ halfOf p .lo = p := by
  apply BitVec.eq_of_getLsbD_eq
  intro i hi
  simp only [halfOf, BitVec.getLsbD_append, BitVec.getLsbD_extractLsb']
  by_cases hlow : i < 32
  · simp [hlow]
  · simp [hlow, show i - 32 < 32 by omega, show 32 + (i - 32) = i by omega]

/-- The two reads give the halves of one value, that of the LO read, though a sample step comes between (R51). -/
theorem lo_sampleStep_hi {lo hi : Addr} {r : PowerReg} (hlo : locate lo = some (.power r .lo))
    (hhi : locate hi = some (.power r .hi)) {s t u : State} (ht : exec (.busRead lo) s = .next t)
    (hu : exec (.busRead hi) t.sampleStep = .next u) : u.readData ++ t.readData = s.powerPattern r := by
  rw [exec_busRead_lo hlo] at ht
  rw [exec_busRead_hi hhi, State.sampleStep_shadow] at hu
  obtain rfl := Host.Outcome.next.inj ht
  obtain rfl := Host.Outcome.next.inj hu
  have hshadow : ∀ w v : Word, ((s.setShadow r w).answer v).shadow r = w := fun w v => by cases r <;> rfl
  rw [State.answer_readData, State.answer_readData, hshadow, halfOf_append]

theorem State.unlessBusy_initRun_shadow (s : State) (r : PowerReg) :
    (s.unlessBusy s.initRun).shadow r = s.shadow r := by
  rcases s.unlessBusy_cases s.initRun with ⟨-, h⟩ | ⟨-, h⟩ <;> rw [h] <;> cases r <;> rfl

/-- Settles O14: one read rule for the three registers, and the shadows through a sample step and through INIT. -/
theorem loReadsCaptureTheHighHalf : Obligations.LoReadsCaptureTheHighHalf := by
  refine ⟨rfl, rfl, rfl, fun s => ⟨?_, ?_, ?_, ?_, ?_, ?_, fun arg t hinit => ?_, fun t u => ?_, fun t u => ?_,
    fun t u => ?_⟩⟩
  · exact exec_busRead_lo (r := .carrier) rfl s
  · exact exec_busRead_lo (r := .noise) rfl s
  · exact exec_busRead_lo (r := .snrRatio) rfl s
  · exact exec_busRead_hi (r := .carrier) rfl s
  · exact exec_busRead_hi (r := .noise) rfl s
  · exact exec_busRead_hi (r := .snrRatio) rfl s
  · obtain rfl := Host.Outcome.next.inj hinit
    have hkept := s.unlessBusy_initRun_shadow
    exact ⟨hkept .carrier, hkept .noise, hkept .snrRatio⟩
  · exact lo_sampleStep_hi (r := .carrier) rfl rfl
  · exact lo_sampleStep_hi (r := .noise) rfl rfl
  · exact lo_sampleStep_hi (r := .snrRatio) rfl rfl

/-! ### The output FIFO -/

/-- Settles O13: the read's effect and its word, each by whether the FIFO is empty. -/
theorem outFifoReadPopsOrFlags : Obligations.OutFifoReadPopsOrFlags := by
  intro s w rest
  have hread := exec_busRead_of_locate (addr := 0x002C) (l := .outFifo) rfl s
  rw [hread, State.readEffect, State.readValue]
  refine ⟨fun hempty => ?_, fun hcons => ?_⟩
  · have hpop : s.popFifo = s.flag .fifo := by simp [State.popFifo, hempty]
    have hword : s.fifo.headD 0 = 0 := by rw [hempty]; rfl
    rw [hpop, hword]; rfl
  · have hpop : s.popFifo = { s with fifo := rest } := by simp [State.popFifo, hcons]
    have hword : s.fifo.headD 0 = w := by rw [hcons]; rfl
    rw [hpop, hword]; rfl

/-! ### The delay lines -/

/-- A state with other contents in its four delay lines. -/
def State.withDelayLines (s : State) (mi mq : List (BitVec 8)) (ri rq : List Word) : State :=
  { s with mfdlI := mi, mfdlQ := mq, rsdlI := ri, rsdlQ := rq }

section
variable (s : State) (mi mq : List (BitVec 8)) (ri rq : List Word)

theorem State.readValue_withDelayLines (l : Loc) : (s.withDelayLines mi mq ri rq).readValue l = s.readValue l := by
  cases l with
  | cfg r h => cases r <;> rfl
  | power r h => cases h <;> cases r <;> rfl
  | _ => rfl

theorem State.readEffect_withDelayLines (l : Loc) :
    (s.withDelayLines mi mq ri rq).readEffect l = (s.readEffect l).withDelayLines mi mq ri rq := by
  cases l with
  | outFifo =>
    have hfifo : (s.withDelayLines mi mq ri rq).fifo = s.fifo := rfl
    simp only [State.readEffect, State.popFifo, hfifo]
    split <;> rfl
  | power r h => cases h <;> cases r <;> rfl
  | _ => rfl

theorem State.busRead_withDelayLines (addr : Addr) :
    (s.withDelayLines mi mq ri rq).busRead addr = (s.busRead addr).withDelayLines mi mq ri rq := by
  unfold State.busRead
  cases locate addr with
  | none => rfl
  | some l =>
    dsimp only
    rw [State.readEffect_withDelayLines, State.readValue_withDelayLines]
    rfl

end

/-- Settles O28: a read commutes with a change of the delay lines. -/
theorem delayLinesAreNotReadable : Obligations.DelayLinesAreNotReadable := fun s addr mi mq ri rq =>
  ⟨s.busRead addr, rfl, congrArg _ (s.busRead_withDelayLines mi mq ri rq addr)⟩

/-! ### Power-on reset -/

theorem cadenceOf_replicate_zero (n : Word) (len : Nat) : CadenceOf n (List.replicate len 0) := fun _ _ hne =>
  absurd (by simp) hne

theorem inv_reset : Inv State.reset where
  memory := Memory.wf_reset
  irqReserved := rfl
  mfdlILength := List.length_replicate
  mfdlQLength := List.length_replicate
  rsdlILength := List.length_replicate
  rsdlQLength := List.length_replicate
  mfdlISymbols _ hd := .inl (List.eq_of_mem_replicate hd)
  mfdlQSymbols _ hd := .inl (List.eq_of_mem_replicate hd)
  fifoCapacity := Nat.zero_le _
  busyLoaded hbusy := absurd hbusy (by decide)

theorem symbolCadence_reset : SymbolCadence State.reset where
  mfdlILength := List.length_replicate
  mfdlQLength := List.length_replicate
  cadenceI := cadenceOf_replicate_zero _ _
  cadenceQ := cadenceOf_replicate_zero _ _

theorem accumulatorsNonNegative_reset : AccumulatorsNonNegative State.reset where
  carrier := Nat.zero_le _
  noise := Nat.zero_le _

/-- Settles O54, one invariant at a time. -/
theorem resetMeetsTheInvariants : Obligations.ResetMeetsTheInvariants :=
  ⟨inv_reset, symbolCadence_reset, accumulatorsNonNegative_reset⟩

/-- Settles O55: the two kinds of state differ in the ports' fields only. -/
theorem powerOnResetValues : Obligations.PowerOnResetValues := by
  intro s t ht
  have hreset : ∃ r ds i p, t = { State.reset with readData := r, draws := ds, inputs := i, powerOns := p } := by
    rcases ht with rfl | ⟨rest, hin, hstep⟩
    · exact ⟨_, _, _, _, rfl⟩
    · rw [step_of_nextPowerOn ⟨rest, hin⟩] at hstep
      exact ⟨_, _, _, _, (Host.Outcome.next.inj hstep).symm⟩
  obtain ⟨r, ds, i, p, rfl⟩ := hreset
  refine ⟨exec_busRead_of_locate (l := .id) rfl _, rfl, fun e => by cases e <;> rfl, rfl, rfl, rfl, rfl, rfl, rfl, rfl,
    rfl, rfl, rfl, rfl, rfl, rfl, rfl, rfl, rfl, rfl, rfl, rfl, rfl, rfl, fun a => ⟨rfl, rfl⟩, rfl, rfl, rfl, rfl, rfl,
    State.irq_of_irqEn_zero rfl⟩

end Sys2Proof.Machine
end

