-- ==== Sys2Proof/Proofs/Invariant.lean ====
section
/-!
PROOFS. The invariant of every reachable state (`Inv`; R55, R56, R58, R85, R152, R203). It speaks of the coefficient
memory, IRQ_EN, the four delay lines, the FIFO and STEPS_LEFT only, so an operation that writes none of them keeps it
clause by clause, and one that does owes the clauses about what it writes.
-/

namespace Sys2Proof.Machine

open Sys2Proof.Claims

/-! ### What the clauses of the invariant rest on -/

/-- A coefficient write unloads nothing: a written entry stays written (R54). -/
theorem Memory.allWritten_setWord {n b : Nat} {m : Memory} (h : Memory.allWritten n b m = true) (a : Nat) (w : Word) :
    Memory.allWritten n b (m.setWord a w) = true := by
  rw [Memory.allWritten_iff] at h ⊢
  exact fun k hk => Memory.written_setWord_of_written m a w _ (h k hk)

theorem and_irqMask_reserved (d : Word) : (d &&& Config.irqMask) &&& ~~~Config.irqMask = 0 := by
  have hdisjoint : Config.irqMask &&& ~~~Config.irqMask = 0 := by decide
  simp [BitVec.and_assoc, hdisjoint]

theorem mem_insertSample {w : Nat} {x d : BitVec w} {dl : List (BitVec w)} (h : d ∈ insertSample x dl) :
    d = x ∨ d ∈ dl :=
  List.mem_cons.mp (List.mem_of_mem_dropLast h)

theorem sym_cases (d : Draw) : sym d = 64 ∨ sym d = -64 := by
  unfold sym
  split
  · exact .inl rfl
  · exact .inr rfl

/-- A symbol pair holds only −64, 0 and 64 (R202, R203). -/
theorem symbolPair_cases (n : Word) (ds : List Draw) :
    ((symbolPair n ds).i = 0 ∨ (symbolPair n ds).i = 64 ∨ (symbolPair n ds).i = -64) ∧
    ((symbolPair n ds).q = 0 ∨ (symbolPair n ds).q = 64 ∨ (symbolPair n ds).q = -64) := by
  unfold symbolPair
  split
  · exact ⟨.inr (sym_cases _), .inr (sym_cases _)⟩
  · exact ⟨.inl rfl, .inl rfl⟩

/-! ### The delay lines after a sample step (R182) -/

theorem State.sampleStep_mfdlI (s : State) : s.sampleStep.mfdlI = insertSample s.nextSymbol.i s.mfdlI := rfl

theorem State.sampleStep_mfdlQ (s : State) : s.sampleStep.mfdlQ = insertSample s.nextSymbol.q s.mfdlQ := rfl

theorem State.sampleStep_rsdlI (s : State) :
    s.sampleStep.rsdlI = insertSample s.sampleValues.truncated.i.value s.rsdlI := rfl

theorem State.sampleStep_rsdlQ (s : State) :
    s.sampleStep.rsdlQ = insertSample s.sampleValues.truncated.q.value s.rsdlQ := rfl

/-! ### Each operation keeps the invariant -/

section
variable {s : State} (h : Inv s)
include h

theorem Inv.dropInput : Inv s.dropInput := { h with }

theorem Inv.supplyDraws (ds : List Draw) : Inv (s.supplyDraws ds) := { h with }

theorem Inv.answer (w : Word) : Inv (s.answer w) := { h with }

theorem Inv.clearFlags (d : Word) : Inv (s.clearFlags d) := { h with }

theorem Inv.flag (e : ErrFlag) : Inv (s.flag e) := by cases e <;> exact { h with }

theorem Inv.setCfg (r : CfgReg) (p : Pattern) : Inv (s.setCfg r p) := by cases r <;> exact { h with }

theorem Inv.setShadow (r : PowerReg) (w : Word) : Inv (s.setShadow r w) := by cases r <;> exact { h with }

theorem Inv.initRun : Inv s.initRun := { h with
  mfdlILength := List.length_replicate
  mfdlQLength := List.length_replicate
  rsdlILength := List.length_replicate
  rsdlQLength := List.length_replicate
  mfdlISymbols := fun _ hd => .inl (List.eq_of_mem_replicate hd)
  mfdlQSymbols := fun _ hd => .inl (List.eq_of_mem_replicate hd)
  fifoCapacity := Nat.zero_le _ }

/-- STEP starts a run only where both memories are loaded (R152). -/
theorem Inv.startStep (n : BitVec 24) : Inv (s.startStep n) := by
  rcases s.startStep_cases n with ⟨-, hs⟩ | ⟨-, -, -, hs⟩ | ⟨hmf, hrs, -, hs⟩ <;> rw [hs]
  · exact h.flag _
  · exact h
  · exact { h with busyLoaded := fun _ => ⟨hmf, hrs⟩ }

theorem Inv.abortRun : Inv s.abortRun := by
  rcases s.abortRun_cases with ⟨-, ha⟩ | ⟨-, ha⟩ <;> rw [ha]
  · exact { h with busyLoaded := fun hbusy => absurd rfl ((State.busy_iff _).mp hbusy) }
  · exact h

theorem Inv.command (c : Word) : Inv (s.command c) := by
  rcases s.command_cases c with ⟨-, hc⟩ | ⟨-, hc⟩ | ⟨-, hc⟩ | ⟨-, hc⟩ | ⟨-, hc⟩ <;> rw [hc]
  · exact h
  · exact h.initRun
  · exact h.startStep _
  · exact h.abortRun
  · exact h.flag _

/-- A coefficient write keeps the memory canonical, and a loaded memory loaded. -/
theorem Inv.setWord {addr : Addr} (hcoef : CoefficientAddress addr) (d : Word) :
    Inv { s with mem := s.mem.setWord addr.toNat d } := by
  have hwf := Memory.wf_setWord s.mem addr.toNat d h.memory hcoef.1 ((inCoefficients_iff _).mpr hcoef.2)
  refine { h with memory := hwf, busyLoaded := fun hbusy => ?_ }
  obtain ⟨hmf, hrs⟩ := h.busyLoaded hbusy
  exact ⟨Memory.allWritten_setWord hmf _ _, Memory.allWritten_setWord hrs _ _⟩

theorem Inv.writeAccepted {addr : Addr} {l : Loc} (hl : locate addr = some l) (d : Word) :
    Inv (s.writeAccepted d l) := by
  cases l with
  | status => exact h.clearFlags d
  | cmd => exact h.command d
  | irqEn => exact { h with irqReserved := and_irqMask_reserved d }
  | cfg r half => exact h.setCfg r _
  | coef a =>
    obtain ⟨hcoef, rfl⟩ := coefficientAddress_of_locate hl
    exact h.setWord hcoef d
  | _ => exact { h with }

theorem Inv.busWrite (addr : Addr) (d : Word) : Inv (s.busWrite addr d) := by
  rcases s.busWrite_cases addr d with ⟨-, hw⟩ | ⟨-, -, -, -, -, hw⟩ | ⟨l, hl, -, -, hw⟩ <;> rw [hw]
  · exact h.flag _
  · exact h.flag _
  · exact h.writeAccepted hl d

theorem Inv.popFifo : Inv s.popFifo := by
  rcases s.popFifo_cases with ⟨-, hp⟩ | ⟨w, rest, hfifo, hp⟩ <;> rw [hp]
  · exact h.flag _
  · have hroom : (w :: rest).length ≤ Config.outFifoDepth := hfifo ▸ h.fifoCapacity
    exact { h with fifoCapacity := (Nat.le_succ _).trans hroom }

theorem Inv.busRead (addr : Addr) : Inv (s.busRead addr) := by
  rcases s.busRead_cases addr with ⟨-, hr⟩ | ⟨l, -, hr⟩ <;> rw [hr]
  · exact (h.flag _).answer _
  · refine Inv.answer ?_ _
    rcases s.readEffect_cases l with he | ⟨-, he⟩ | ⟨r, -, he⟩ <;> rw [he]
    · exact h
    · exact h.popFifo
    · exact h.setShadow r _

/-- A sample is taken only where two FIFO entries are free, and only while the block is busy (R313). -/
theorem Inv.sampleStep (henabled : s.sampleEnabled = true) : Inv s.sampleStep := by
  obtain ⟨hsteps, hroom, -⟩ := s.sampleEnabled_iff.mp henabled
  obtain ⟨hsymI, hsymQ⟩ := symbolPair_cases s.sampleCount s.draws
  have hloaded := h.busyLoaded (s.busy_iff.mpr hsteps)
  exact { h with
    mfdlILength := by rw [State.sampleStep_mfdlI, insertSample_length, h.mfdlILength]
    mfdlQLength := by rw [State.sampleStep_mfdlQ, insertSample_length, h.mfdlQLength]
    rsdlILength := by rw [State.sampleStep_rsdlI, insertSample_length, h.rsdlILength]
    rsdlQLength := by rw [State.sampleStep_rsdlQ, insertSample_length, h.rsdlQLength]
    mfdlISymbols := fun d hd => (mem_insertSample hd).elim (fun hnew => hnew ▸ hsymI) (h.mfdlISymbols d)
    mfdlQSymbols := fun d hd => (mem_insertSample hd).elim (fun hnew => hnew ▸ hsymQ) (h.mfdlQSymbols d)
    fifoCapacity := List.length_append.trans_le hroom
    busyLoaded := fun _ => hloaded }

theorem Inv.engineTurn : Inv s.engineTurn := by
  rcases s.engineTurn_cases with ⟨henabled, ht⟩ | ⟨-, ht⟩ <;> rw [ht]
  · exact h.sampleStep henabled
  · exact h

end

/-- The reset input leaves what the invariant speaks of as it is in the reset state (R370). -/
theorem inv_powerOn (s : State) : Inv s.powerOn := { inv_reset with }

/-- Settles O52: each of the five events keeps the invariant. -/
theorem stepKeepsTheInvariant : Obligations.StepKeepsTheInvariant := by
  intro s t hstep h
  cases stepBy_of_step hstep with
  | engine _ ht => exact ht ▸ h.dropInput.engineTurn
  | read addr _ _ ht => exact ht ▸ h.dropInput.busRead addr
  | write addr d _ ht => exact ht ▸ h.dropInput.busWrite addr d
  | supply ds _ ht => exact ht ▸ h.dropInput.supplyDraws ds
  | powerOn _ ht => exact ht ▸ inv_powerOn _

end Sys2Proof.Machine
end

