-- ==== Sys2Proof/Proofs/BusAccess.lean ====
section
/-!
PROOFS. Which bus accesses are bad and what a read does (R81, R83, R84, R88). The address map is read once as the
ranges of the spec: an address names no location exactly if it is misaligned or reserved.
-/

namespace Sys2Proof.Machine

open Sys2Proof.Claims

/-! ### The address map, by ranges -/

/-- The register block has a row at every word address below 0x98 but those of its two reserved ranges (R81). -/
theorem registerMap_lookup_eq_none_iff (a : Nat) :
    registerMap.lookup a = none ↔
      a % 4 ≠ 0 ∨ (0x0038 ≤ a ∧ a < 0x0040) ∨ (0x0078 ≤ a ∧ a < 0x0080) ∨ 0x0098 ≤ a := by
  by_cases hblock : a % 4 = 0 ∧ a < 0x0098
  · obtain ⟨k, rfl⟩ := Nat.dvd_of_mod_eq_zero hblock.1
    have hwords : ∀ k < 38, registerMap.lookup (4 * k) = none ↔
        (0x0038 ≤ 4 * k ∧ 4 * k < 0x0040) ∨ (0x0078 ≤ 4 * k ∧ 4 * k < 0x0080) := by decide
    rw [hwords k (by omega)]
    omega
  · have hrows : ∀ row ∈ registerMap, row.1 % 4 = 0 ∧ row.1 < 0x0098 := by decide
    refine iff_of_true (List.lookup_eq_none_iff.mpr fun row hrow => ?_) (by omega)
    exact bne_iff_ne.mpr fun heq => hblock (heq ▸ hrows row hrow)

theorem locate_eq_none_iff (addr : Addr) : locate addr = none ↔ BadAddress addr := by
  by_cases haligned : addr.toNat % 4 = 0
  · by_cases hcoef : inCoefficients addr.toNat = true
    · rw [locate_coefficient addr haligned hcoef]
      rw [inCoefficients_iff] at hcoef
      simp only [BadAddress, Reserved, reduceCtorEq, false_iff]
      omega
    · rw [locate_register addr haligned (by simpa using hcoef), registerMap_lookup_eq_none_iff]
      rw [inCoefficients_iff] at hcoef
      simp only [BadAddress, Reserved]
      omega
  · exact iff_of_true (locate_misaligned addr haligned) (.inl haligned)

/-- The addresses marked RO name locations that no write is accepted at (R81, R84). -/
theorem locate_of_readOnly {addr : Addr} (h : ReadOnly addr) : ∃ l, locate addr = some l ∧ l.readOnly = true := by
  have hrows : ∀ a ∈ [0x0000, 0x001C, 0x0020, 0x0024, 0x0028, 0x002C, 0x0030, 0x0034, 0x0080, 0x0084, 0x0088, 0x008C,
      0x0090, 0x0094], a % 4 = 0 ∧ inCoefficients a = false ∧ (registerMap.lookup a).any Loc.readOnly = true := by
    decide
  obtain ⟨haligned, hregister, hro⟩ := hrows _ h
  rw [locate_register addr haligned hregister]
  exact (Option.any_eq_true _ _).mp hro

/-! ### Bad accesses -/

theorem State.busRead_bad {addr : Addr} (h : BadAddress addr) (s : State) :
    s.busRead addr = (s.flag .addr).answer 0 := by
  simp [State.busRead, (locate_eq_none_iff addr).mpr h]

theorem State.busWrite_bad {addr : Addr} (h : BadAddress addr) (s : State) (d : Word) :
    s.busWrite addr d = s.flag .addr := by
  simp [State.busWrite, (locate_eq_none_iff addr).mpr h]

theorem State.busWrite_readOnly {addr : Addr} (h : ReadOnly addr) (s : State) (d : Word) :
    s.busWrite addr d = s.flag .addr := by
  obtain ⟨l, hl, hro⟩ := locate_of_readOnly h
  rw [State.busWrite_of_locate hl, if_pos hro]

/-- Settles O10: the bad accesses by the address map, CMD and STATUS by their locations. -/
theorem badAccessOnlyFlags : Obligations.BadAccessOnlyFlags := by
  intro s addr data
  refine ⟨fun hbad => ?_, fun hbad => ?_, exec_busRead_of_locate (l := .cmd) rfl s,
    s.busWrite 0x0004 data, rfl, ?_⟩
  · exact congrArg Host.Outcome.next (s.busRead_bad hbad)
  · rcases hbad with hbad | hro
    · exact congrArg Host.Outcome.next (s.busWrite_bad hbad data)
    · exact congrArg Host.Outcome.next (s.busWrite_readOnly hro data)
  · rw [State.busWrite_status]
    rfl

/-! ### Reads without a side effect -/

/-- OUT_FIFO and the three LO words: the locations whose read does something (R88). -/
def Loc.readHasEffect : Loc → Bool
  | .outFifo => true
  | .power _ .lo => true
  | _ => false

theorem State.readEffect_eq_self {l : Loc} (h : l.readHasEffect = false) (s : State) : s.readEffect l = s := by
  rcases s.readEffect_cases l with he | ⟨rfl, -⟩ | ⟨r, rfl, -⟩
  · exact he
  · cases h
  · cases h

/-- The word last read is no part of what a read returns (log 5). -/
theorem State.readValue_answer (s : State) (w : Word) (l : Loc) : (s.answer w).readValue l = s.readValue l := by
  cases l with
  | cfg r half => cases r <;> rfl
  | power r half => cases half <;> cases r <;> rfl
  | _ => rfl

theorem readHasEffect_of_locate {addr : Addr} {l : Loc} (hl : locate addr = some l) (h : l.readHasEffect = true) :
    addr.toNat ∈ [0x002C, 0x0080, 0x0088, 0x0090] := by
  obtain ⟨-, ⟨-, rfl⟩ | ⟨-, hrow⟩⟩ := locate_cases addr l hl
  · cases h
  · have hrows : ∀ row ∈ registerMap, row.2.readHasEffect = true → row.1 ∈ [0x002C, 0x0080, 0x0088, 0x0090] := by
      decide
    exact hrows _ hrow h

/-- Settles O16: such a read names a location, has no effect on the state, and its word does not depend on the word last
read. -/
theorem otherReadsHaveNoSideEffect : Obligations.OtherReadsHaveNoSideEffect := by
  intro s addr hgood hother
  obtain ⟨l, hl⟩ := Option.ne_none_iff_exists'.mp (mt (locate_eq_none_iff addr).mp hgood)
  have hpure : l.readHasEffect = false := Bool.eq_false_iff.mpr (mt (readHasEffect_of_locate hl) hother)
  have hread : ∀ u : State, exec (.busRead addr) u = .next (u.answer (u.readValue l)) := fun u => by
    rw [exec_busRead_of_locate hl, State.readEffect_eq_self hpure]
  refine ⟨s.readValue l, hread s, ?_⟩
  calc exec (.busRead addr) (s.answer (s.readValue l))
      = .next ((s.answer (s.readValue l)).answer ((s.answer (s.readValue l)).readValue l)) := hread _
    _ = .next (s.answer (s.readValue l)) := by rw [State.readValue_answer]; rfl

end Sys2Proof.Machine
end

/-!
PROOFS. The encodings: the bus transaction of an instruction and the command word (R110 to R112, R119), and the pattern
of a binary64 datum (R114). A pattern is read once as its three fields (`patternOf`); each form of a datum then names
the fields it has, and the two directions of the correspondence rest on the same four equations.
-/

namespace Sys2Proof.Machine

/-! ### The bus transaction of an instruction (R111, R119) -/

/-- Settles O58, instruction by instruction. -/
theorem decodeInvertsEncode : Obligations.DecodeInvertsEncode := by
  intro i
  cases i with
  | nop arg => exact Laws.RoundTrip.nop arg
  | init arg => exact Laws.RoundTrip.init arg
  | step count => exact Laws.RoundTrip.step count
  | abort arg => exact Laws.RoundTrip.abort arg
  | reserved opc arg => exact Laws.RoundTrip.reserved opc arg
  | busRead addr => exact Laws.RoundTrip.busRead addr
  | busWrite addr data => exact Laws.RoundTrip.busWrite addr data

theorem commandWord_argOf {c : Word} {opc : BitVec 8} (hopc : opcOf c = opc) : commandWord opc (argOf c) = c := by
  rw [← hopc, commandWord_opcOf_argOf]

theorem encode_decodeCommand (c : Word) : encode (decodeCommand c) = commandCycle c := by
  rcases decodeCommand_cases c with ⟨hopc, hdec⟩ | ⟨hopc, hdec⟩ | ⟨hopc, hdec⟩ | ⟨hopc, hdec⟩ | ⟨-, hdec⟩
  · rw [hdec, encode, commandWord_argOf hopc]
  · rw [hdec, encode, commandWord_argOf hopc]
  · rw [hdec, encode, commandWord_argOf hopc]
  · rw [hdec, encode, commandWord_argOf hopc]
  · rw [hdec, encode, commandWord_opcOf_argOf]

theorem wellFormed_decodeCommand (c : Word) : (decodeCommand c).wellFormed = true := by
  rcases decodeCommand_cases c with ⟨-, hdec⟩ | ⟨-, hdec⟩ | ⟨-, hdec⟩ | ⟨-, hdec⟩ | ⟨hopc, hdec⟩ <;> rw [hdec]
  · rfl
  · rfl
  · rfl
  · rfl
  · exact decide_eq_true hopc

/-- Settles O59: a transaction is a read, a command written to CMD, or a write elsewhere. -/
theorem encodeInvertsDecode : Obligations.EncodeInvertsDecode := by
  rintro ⟨write, addr, data⟩
  cases write with
  | false => exact ⟨rfl, rfl⟩
  | true =>
    by_cases hcmd : addr = cmdAddr
    · subst hcmd
      exact ⟨wellFormed_decodeCommand data, encode_decodeCommand data⟩
    · rw [decode_write addr data hcmd]
      exact ⟨decide_eq_true hcmd, rfl⟩

/-! ### Command words (R110 to R112) -/

theorem commandWordOfBits_toNat (c : Word) : commandWordOfBits 32 c.toNat = .ok c := by
  simp [commandWordOfBits, Nat.mod_eq_of_lt c.isLt]

theorem decodeTableWord_toNat (c : Word) : decodeTableWord 32 c.toNat = some (decodeCommand c) := by
  simp only [decodeTableWord, commandWordOfBits_toNat, decode_command]

theorem State.withFetchWord_toNat (s : State) (c : Word) :
    s.withFetchWord 32 c.toNat = s.withNextCycle (commandCycle c) := by
  simp only [State.withFetchWord, cycleOfTableWord, commandWordOfBits_toNat]

theorem decodeCommand_step {c : Word} (hopc : opcOf c = 2) : decodeCommand c = .step (argOf c) := by
  simp [decodeCommand, hopc]

theorem argOf_toNat (c : Word) : (argOf c).toNat = c.toNat % 2 ^ 24 := by simp [argOf]

/-- STEP 0 has no effect on an idle, loaded block (R112, R151). -/
theorem exec_step_zero {s : State} (hidle : s.stepsLeft = 0) (hload : Loaded s) : exec (.step 0) s = .next s := by
  obtain ⟨hmf, hrs⟩ := (loaded_iff s).mp hload
  have hbusy : s.busy = false := s.busy_eq_false_iff.mpr hidle
  have hstart : s.startStep 0 = s := by simp [State.startStep, hmf, hrs]
  have haccept (t : State) : s.unlessBusy t = t := by simp [State.unlessBusy, hbusy]
  rw [exec_eq_nextOf, nextOf, haccept, hstart]

/-- Settles O9. -/
theorem commandOperands : Obligations.CommandOperands := fun _ c _ _ =>
  ⟨decodeCommand_step (c := c), argOf_toNat c, exec_step_zero, rfl, rfl, rfl⟩

/-- Settles O60. -/
theorem commandWordsDecode : Obligations.CommandWordsDecode :=
  ⟨decodeTableWord_toNat 0x00ABCDEF, decodeTableWord_toNat 0x01000000, decodeTableWord_toNat 0x02000104,
    decodeTableWord_toNat 0x02FFFFFF, decodeTableWord_toNat 0x03000000, decodeTableWord_toNat 0x04000000,
    decodeTableWord_toNat 0xFF000000, decode_read _ _, decode_write _ _ (by decide)⟩

theorem step_of_host {s : State} {b : BusCycle} {rest : List Event} (hin : s.inputs = .host b :: rest) :
    step s = exec (decode b) { s with inputs := rest } := by
  simp only [step, hin]

/-- Settles O57. -/
theorem stepRunsTheDecodedInstruction : Obligations.StepRunsTheDecodedInstruction :=
  ⟨fun _ _ _ hin => step_of_host hin, fun s c => by
    rw [State.withFetchWord_toNat, step_of_host (s.withNextCycle_inputs (commandCycle c))]
    rfl⟩

/-! ### The fields of a binary64 pattern (R114) -/

/-- The pattern with the given sign P[63], biased exponent P[62:52] and fraction P[51:0] (R114). -/
def patternOf (neg : Bool) (biased : BitVec 11) (frac : BitVec 52) : Pattern := BitVec.ofBool neg ++ biased ++ frac

@[simp] theorem msb_patternOf (n : Bool) (b : BitVec 11) (f : BitVec 52) : (patternOf n b f).msb = n :=
  calc (patternOf n b f).msb
    _ = (BitVec.ofBool n ++ b).msb := BitVec.msb_append
    _ = (BitVec.ofBool n).msb := BitVec.msb_append
    _ = n := BitVec.msb_ofBool n

@[simp] theorem biased_patternOf (n : Bool) (b : BitVec 11) (f : BitVec 52) :
    (patternOf n b f).extractLsb' 52 11 = b := by
  rw [patternOf, BitVec.extractLsb'_append_eq_of_le le_rfl]
  exact BitVec.extractLsb'_append_eq_right

@[simp] theorem frac_patternOf (n : Bool) (b : BitVec 11) (f : BitVec 52) : (patternOf n b f).extractLsb' 0 52 = f :=
  BitVec.extractLsb'_append_eq_right

theorem ofBool_msb_eq (s : BitVec 1) : BitVec.ofBool s.msb = s := by
  revert s; decide

theorem patternOf_fields (p : Pattern) : patternOf p.msb (p.extractLsb' 52 11) (p.extractLsb' 0 52) = p := by
  have hsign : BitVec.ofBool p.msb = p.extractLsb' 63 1 := by
    ext i hi
    simp [BitVec.msb_eq_getLsbD_last, show i = 0 by omega]
  rw [patternOf, hsign]
  calc p.extractLsb' 63 1 ++ p.extractLsb' 52 11 ++ p.extractLsb' 0 52
    _ = p.extractLsb' 52 12 ++ p.extractLsb' 0 52 := by
      rw [BitVec.extractLsb'_append_extractLsb'_eq_extractLsb' (start₁ := 52) (start₂ := 63) rfl]
    _ = p.extractLsb' 0 64 := BitVec.extractLsb'_append_extractLsb'_eq_extractLsb' rfl
    _ = p := BitVec.extractLsb'_eq_self

theorem F64.ofBits_patternOf (n : Bool) (b : BitVec 11) (f : BitVec 52) :
    F64.ofBits (patternOf n b f) =
      if b.toNat = 2047 then (if f.toNat = 0 then .inf n else .nan)
      else if b.toNat = 0 then .fin n f.toNat F64.minExp
      else .fin n (2 ^ 52 + f.toNat) ((b.toNat : Int) - 1075) := by
  simp only [F64.ofBits, msb_patternOf, biased_patternOf, frac_patternOf]

/-! ### The pattern of each form of a datum -/

theorem F64.toBits_inf (free : BitVec 52) (n : Bool) : (F64.inf n).toBits free = patternOf n 0x7FF#11 0#52 := rfl

theorem F64.toBits_subnormal (free : BitVec 52) (n : Bool) (f : BitVec 52) :
    (F64.fin n f.toNat F64.minExp).toBits free = patternOf n 0#11 f := by
  rw [F64.toBits, if_pos f.isLt, BitVec.ofNat_toNat, BitVec.setWidth_eq]
  rfl

theorem F64.toBits_normal (free : BitVec 52) (n : Bool) (b : BitVec 11) (f : BitVec 52) :
    (F64.fin n (2 ^ 52 + f.toNat) ((b.toNat : Int) - 1075)).toBits free = patternOf n b f := by
  have hexp : ((b.toNat : Int) - 1075 + 1075).toNat = b.toNat := by omega
  rw [F64.toBits, if_neg (by omega), hexp, Nat.add_sub_cancel_left]
  simp [patternOf]

/-- The pattern of a NaN: its fraction is not 0, whatever the free value (log 4). -/
theorem F64.toBits_nan (free : BitVec 52) :
    ∃ (n : Bool) (f : BitVec 52), f.toNat ≠ 0 ∧ F64.nan.toBits free = patternOf n 0x7FF#11 f := by
  refine ⟨(free.extractLsb' 51 1).msb, 1#1 ++ free.extractLsb' 0 51, ?_, ?_⟩
  · have hquiet : (1#1 ++ free.extractLsb' 0 51).msb = true := BitVec.msb_append
    intro hzero
    rw [BitVec.eq_of_toNat_eq (y := 0#52) hzero] at hquiet
    exact absurd hquiet (by decide)
  · rw [patternOf, ofBool_msb_eq]
    exact BitVec.append_assoc

/-- A canonical finite number has a zero exponent field, or one between 1 and 2046 and the hidden bit. -/
theorem F64.canonical_fin_cases {n : Bool} {m : Nat} {e : Int} (h : (F64.fin n m e).canonical = true) :
    (∃ f : BitVec 52, m = f.toNat ∧ e = F64.minExp) ∨
    ∃ (b : BitVec 11) (f : BitVec 52), b.toNat ≠ 0 ∧ b.toNat ≠ 2047 ∧ m = 2 ^ 52 + f.toNat ∧
      e = (b.toNat : Int) - 1075 := by
  obtain ⟨hm, hlo, hhi, hhidden⟩ := (F64.canonical_fin_iff n m e).mp h
  simp only [F64.minExp, F64.maxExp] at *
  by_cases hsub : m < 2 ^ 52
  · exact .inl ⟨BitVec.ofNatLT m hsub, rfl, by omega⟩
  · refine .inr ⟨BitVec.ofNatLT (e + 1075).toNat (by omega), BitVec.ofNatLT (m - 2 ^ 52) (by omega), ?_⟩
    simp only [BitVec.toNat_ofNatLT]
    omega

theorem F64.toBits_ofBits {p : Pattern} (hnan : F64.ofBits p ≠ .nan) (free : BitVec 52) :
    (F64.ofBits p).toBits free = p := by
  rw [← patternOf_fields p] at hnan ⊢
  generalize p.msb = n, p.extractLsb' 52 11 = b, p.extractLsb' 0 52 = f at hnan ⊢
  rw [F64.ofBits_patternOf] at hnan ⊢
  split_ifs at hnan ⊢ with htop hzero hbottom
  · rw [F64.toBits_inf, BitVec.eq_of_toNat_eq (y := 0x7FF#11) htop, BitVec.eq_of_toNat_eq (y := 0#52) hzero]
  · exact absurd rfl hnan
  · rw [F64.toBits_subnormal, BitVec.eq_of_toNat_eq (y := 0#11) hbottom]
  · exact F64.toBits_normal free n b f

theorem F64.ofBits_toBits {v : F64} (hcan : v.canonical = true) (free : BitVec 52) :
    F64.ofBits (v.toBits free) = v := by
  cases v with
  | nan =>
    obtain ⟨n, f, hf, hbits⟩ := F64.toBits_nan free
    simp [hbits, F64.ofBits_patternOf, hf]
  | inf n => simp [F64.toBits_inf, F64.ofBits_patternOf]
  | fin n m e =>
    rcases F64.canonical_fin_cases hcan with ⟨f, rfl, rfl⟩ | ⟨b, f, hpos, htop, rfl, rfl⟩
    · simp [F64.toBits_subnormal, F64.ofBits_patternOf]
    · rw [F64.toBits_normal, F64.ofBits_patternOf, if_neg htop, if_neg hpos]

/-- Settles O44. -/
theorem patternsRoundTrip : Obligations.PatternsRoundTrip :=
  ⟨fun _ free hnan => F64.toBits_ofBits hnan free, fun _ free hcan => F64.ofBits_toBits hcan free⟩

end Sys2Proof.Machine

/-!
PROOFS. The commands and the registers of the bus (R140 to R156). A word written to CMD is the command that its opcode
selects, and a write elsewhere is either refused as busy or stores into one location; each rule is said once. No sample
is computed from STEPS_LEFT or DONE (`State.withRun`), so a run leaves the rest of the state as the same number of
samples from any other point of a run would, and two runs are one longer run.
-/

namespace Sys2Proof.Machine

open Sys2Proof.Claims

/-! ### Refused or accepted (R145) -/

theorem State.unlessBusy_of_idle {s : State} (h : s.stepsLeft = 0) (t : State) : s.unlessBusy t = t := by
  simp [State.unlessBusy, s.busy_eq_false_iff.mpr h]

theorem State.unlessBusy_of_busy {s : State} (h : s.stepsLeft ≠ 0) (t : State) : s.unlessBusy t = s.flag .busy := by
  simp [State.unlessBusy, s.busy_iff.mpr h]

theorem exec_init_idle {s : State} (h : s.stepsLeft = 0) (arg : BitVec 24) : exec (.init arg) s = .next s.initRun := by
  rw [exec_eq_nextOf, nextOf, State.unlessBusy_of_idle h]

theorem exec_init_busy {s : State} (h : s.stepsLeft ≠ 0) (arg : BitVec 24) :
    exec (.init arg) s = .next (s.flag .busy) := by
  rw [exec_eq_nextOf, nextOf, State.unlessBusy_of_busy h]

theorem exec_step_idle {s : State} (h : s.stepsLeft = 0) (n : BitVec 24) :
    exec (.step n) s = .next (s.startStep n) := by
  rw [exec_eq_nextOf, nextOf, State.unlessBusy_of_idle h]

theorem exec_step_busy {s : State} (h : s.stepsLeft ≠ 0) (n : BitVec 24) :
    exec (.step n) s = .next (s.flag .busy) := by
  rw [exec_eq_nextOf, nextOf, State.unlessBusy_of_busy h]

/-- No location marked RO is a target of R86. -/
theorem Loc.readOnly_eq_false_of_locked {l : Loc} {d : Word} (h : l.lockedWhileBusy d = true) : l.readOnly = false := by
  revert h
  cases l <;> simp [Loc.lockedWhileBusy, Loc.readOnly]

theorem exec_busWrite_idle {addr : Addr} {l : Loc} (hl : locate addr = some l) (hro : l.readOnly = false) {s : State}
    (hidle : s.stepsLeft = 0) (d : Word) : exec (.busWrite addr d) s = .next (s.writeAccepted d l) := by
  simp [exec_eq_nextOf, nextOf, State.busWrite_of_locate hl, hro, s.busy_eq_false_iff.mpr hidle]

theorem exec_busWrite_busy {addr : Addr} {l : Loc} (hl : locate addr = some l) {s : State} (hbusy : s.stepsLeft ≠ 0)
    {d : Word} (hlocked : l.lockedWhileBusy d = true) : exec (.busWrite addr d) s = .next (s.flag .busy) := by
  simp [exec_eq_nextOf, nextOf, State.busWrite_of_locate hl, Loc.readOnly_eq_false_of_locked hlocked,
    s.busy_iff.mpr hbusy, hlocked]

/-! ### The command of a word (R150) -/

theorem decode_cmd (c : Word) : decode ⟨true, 0x0008, c⟩ = decodeCommand c := decode_command c

theorem exec_busWrite_cmd (c : Word) (s : State) : exec (.busWrite 0x0008 c) s = exec (decodeCommand c) s := by
  rw [exec_eq_nextOf, exec_eq_nextOf, nextOf_decodeCommand]
  rfl

theorem decodeCommand_nop {c : Word} (hopc : opcOf c = 0) : decodeCommand c = .nop (argOf c) := by
  simp [decodeCommand, hopc]

theorem decodeCommand_init {c : Word} (hopc : opcOf c = 1) : decodeCommand c = .init (argOf c) := by
  simp [decodeCommand, hopc]

theorem decodeCommand_abort {c : Word} (hopc : opcOf c = 3) : decodeCommand c = .abort (argOf c) := by
  simp [decodeCommand, hopc]

theorem decodeCommand_reserved {c : Word} (hopc : 4 ≤ (opcOf c).toNat) :
    decodeCommand c = .reserved (opcOf c) (argOf c) := by
  rw [decodeCommand]
  split <;> [omega; omega; omega; omega; rfl]

/-- Settles O8: the bus write runs the decoded command. -/
theorem writeToCmdRunsTheCommand : Obligations.WriteToCmdRunsTheCommand := by
  intro s c
  rw [exec_busWrite_cmd]
  exact ⟨fun h => congrArg (exec · s) (decodeCommand_nop h), fun h => congrArg (exec · s) (decodeCommand_init h),
    fun h => congrArg (exec · s) (decodeCommand_step h), fun h => congrArg (exec · s) (decodeCommand_abort h),
    fun h => congrArg (exec · s) (decodeCommand_reserved h)⟩

/-- Settles O1. -/
theorem nopChangesNothing : Obligations.NopChangesNothing := fun _ _ _ =>
  ⟨rfl, fun hopc => by rw [decode_cmd, decodeCommand_nop hopc]; rfl⟩

theorem State.abortRun_eq (s : State) :
    s.abortRun = if s.stepsLeft ≠ 0 then { s with stepsLeft := 0, done := true } else s := by
  simp only [State.abortRun, State.busy_iff]

/-- Settles O2. -/
theorem abortEndsTheRunningCommand : Obligations.AbortEndsTheRunningCommand := fun s _ _ =>
  ⟨congrArg _ s.abortRun_eq, fun hopc => by rw [decode_cmd, decodeCommand_abort hopc]; rfl⟩

/-- Settles O3. -/
theorem reservedOpcodeOnlyFlags : Obligations.ReservedOpcodeOnlyFlags := fun _ _ _ _ =>
  ⟨rfl, fun hopc => by rw [decode_cmd, decodeCommand_reserved hopc]; rfl⟩

/-- Settles O4: refused while busy, the reset of the run state while idle. -/
theorem initResetsTheRunState : Obligations.InitResetsTheRunState := fun _ arg _ =>
  ⟨fun hbusy => exec_init_busy hbusy arg, fun hidle => exec_init_idle hidle arg,
    fun hopc => by rw [decode_cmd, decodeCommand_init hopc]; rfl⟩

/-! ### STEP at BUSY = 0 (R151, R152) -/

theorem State.startStep_of_loaded {s : State} (h : Loaded s) (n : BitVec 24) :
    s.startStep n = if n = 0 then s else { s with stepsLeft := n, done := false } := by
  obtain ⟨hmf, hrs⟩ := (loaded_iff s).mp h
  simp only [State.startStep, hmf, hrs, Bool.and_self, if_true]

theorem State.startStep_of_not_loaded {s : State} (h : ¬ Loaded s) (n : BitVec 24) : s.startStep n = s.flag .coef := by
  rw [loaded_iff, ← Bool.and_eq_true] at h
  exact if_neg h

/-- Settles O5. -/
theorem stepStartsWhenLoaded : Obligations.StepStartsWhenLoaded := fun _ _ hidle hload => by
  rw [exec_step_idle hidle, State.startStep_of_loaded hload]

/-- Settles O6. -/
theorem stepRefusedUnloaded : Obligations.StepRefusedUnloaded := fun _ _ hidle hunloaded => by
  rw [exec_step_idle hidle, State.startStep_of_not_loaded hunloaded]
  rfl

/-! ### Register reads (R140, R147) -/

theorem exec_busRead_cfg {addr : Addr} {r : CfgReg} {half : Half} (h : locate addr = some (.cfg r half)) (s : State) :
    exec (.busRead addr) s = .next (s.answer (halfOf (s.cfg r) half)) :=
  exec_busRead_of_locate h s

/-- Settles O11, register by register. -/
theorem registerReads : Obligations.RegisterReads := fun s =>
  ⟨exec_busRead_of_locate (l := .id) rfl s, exec_busRead_of_locate (l := .irqEn) rfl s,
    exec_busRead_of_locate (l := .k) rfl s, exec_busRead_of_locate (l := .snrScale) rfl s,
    exec_busRead_of_locate (l := .delayIndex) rfl s, exec_busRead_of_locate (l := .stepsLeft) rfl s,
    exec_busRead_of_locate (l := .sampleCount) rfl s, exec_busRead_of_locate (l := .drawCount) rfl s,
    exec_busRead_of_locate (l := .fifoLevel) rfl s, exec_busRead_of_locate (l := .outLastI) rfl s,
    exec_busRead_of_locate (l := .outLastQ) rfl s,
    exec_busRead_cfg (r := .dcI) (half := .lo) rfl s, exec_busRead_cfg (r := .dcI) (half := .hi) rfl s,
    exec_busRead_cfg (r := .dcQ) (half := .lo) rfl s, exec_busRead_cfg (r := .dcQ) (half := .hi) rfl s,
    exec_busRead_cfg (r := .gainImb) (half := .lo) rfl s, exec_busRead_cfg (r := .gainImb) (half := .hi) rfl s,
    exec_busRead_cfg (r := .cosPhi) (half := .lo) rfl s, exec_busRead_cfg (r := .cosPhi) (half := .hi) rfl s,
    exec_busRead_cfg (r := .sinPhi) (half := .lo) rfl s, exec_busRead_cfg (r := .sinPhi) (half := .hi) rfl s,
    exec_busRead_cfg (r := .cosTheta) (half := .lo) rfl s, exec_busRead_cfg (r := .cosTheta) (half := .hi) rfl s,
    exec_busRead_cfg (r := .sinTheta) (half := .lo) rfl s, exec_busRead_cfg (r := .sinTheta) (half := .hi) rfl s⟩

theorem State.statusWord_getLsbD_busy (s : State) : s.statusWord.getLsbD 0 = s.busy := by simp [State.statusWord]

theorem State.statusWord_getLsbD_mfLoaded (s : State) : s.statusWord.getLsbD 2 = s.mfLoaded := by
  simp [State.statusWord]

theorem State.statusWord_getLsbD_rsLoaded (s : State) : s.statusWord.getLsbD 3 = s.rsLoaded := by
  simp [State.statusWord]

theorem bitAt_getLsbD_of_ne {i j : Nat} (h : i ≠ j) (b : Bool) : (bitAt i b).getLsbD j = false := by
  by_cases hj : j < 32
  · rw [BitVec.getLsbD_eq_getElem hj, bitAt_getElem, decide_eq_false h, Bool.and_false]
  · exact BitVec.getLsbD_of_ge _ _ (by omega)

/-- Bits 5 to 7 of STATUS and those from 15 on are reserved (R32). -/
theorem State.statusWord_getLsbD_reserved (s : State) {i : Nat} (h : (5 ≤ i ∧ i ≤ 7) ∨ 15 ≤ i) :
    s.statusWord.getLsbD i = false := by
  simp (disch := omega) only [State.statusWord, BitVec.getLsbD_or, bitAt_getLsbD_of_ne, Bool.or_self]

/-- Settles O12: the word is STATUS of the state read, bit by bit. -/
theorem statusReadsItsBits : Obligations.StatusReadsItsBits := by
  intro s
  refine ⟨s.statusWord, exec_busRead_of_locate (l := .status) rfl s, ?_, s.statusWord_getLsbD_done, ?_, ?_, ?_,
    s.statusWord_getLsbD_reserved (by omega), s.statusWord_getLsbD_reserved (by omega),
    s.statusWord_getLsbD_reserved (by omega), s.statusWord_getLsbD_errBit,
    fun i hi => s.statusWord_getLsbD_reserved (.inr hi)⟩
  · rw [s.statusWord_getLsbD_busy, s.busy_iff]
  · rw [s.statusWord_getLsbD_mfLoaded, s.mfLoaded_iff]
  · rw [s.statusWord_getLsbD_rsLoaded, s.rsLoaded_iff]
  · rw [s.statusWord_getLsbD_fifoNe]
    simp [State.fifoNe]

/-! ### Register writes (R142, R143, R146) -/

/-- Settles O19: the three locations are accepted while idle and refused while busy. -/
theorem integerConfigurationWrites : Obligations.IntegerConfigurationWrites := fun _ d =>
  ⟨fun hidle => ⟨exec_busWrite_idle (l := .k) rfl rfl hidle d, exec_busWrite_idle (l := .snrScale) rfl rfl hidle d,
      exec_busWrite_idle (l := .delayIndex) rfl rfl hidle d⟩,
    fun hbusy => ⟨exec_busWrite_busy (l := .k) rfl hbusy rfl, exec_busWrite_busy (l := .snrScale) rfl hbusy rfl,
      exec_busWrite_busy (l := .delayIndex) rfl hbusy rfl⟩⟩

theorem exec_busWrite_cfg {addr : Addr} {r : CfgReg} {half : Half} (h : locate addr = some (.cfg r half)) {s : State}
    (hidle : s.stepsLeft = 0) (d : Word) :
    exec (.busWrite addr d) s = .next (s.setCfg r (withHalf (s.cfg r) half d)) :=
  exec_busWrite_idle h rfl hidle d

/-- Settles O20: one write rule for the fourteen words. -/
theorem patternWritesReplaceOneHalf : Obligations.PatternWritesReplaceOneHalf := fun _ d h =>
  ⟨exec_busWrite_cfg (r := .dcI) (half := .lo) rfl h d, exec_busWrite_cfg (r := .dcI) (half := .hi) rfl h d,
    exec_busWrite_cfg (r := .dcQ) (half := .lo) rfl h d, exec_busWrite_cfg (r := .dcQ) (half := .hi) rfl h d,
    exec_busWrite_cfg (r := .gainImb) (half := .lo) rfl h d, exec_busWrite_cfg (r := .gainImb) (half := .hi) rfl h d,
    exec_busWrite_cfg (r := .cosPhi) (half := .lo) rfl h d, exec_busWrite_cfg (r := .cosPhi) (half := .hi) rfl h d,
    exec_busWrite_cfg (r := .sinPhi) (half := .lo) rfl h d, exec_busWrite_cfg (r := .sinPhi) (half := .hi) rfl h d,
    exec_busWrite_cfg (r := .cosTheta) (half := .lo) rfl h d, exec_busWrite_cfg (r := .cosTheta) (half := .hi) rfl h d,
    exec_busWrite_cfg (r := .sinTheta) (half := .lo) rfl h d, exec_busWrite_cfg (r := .sinTheta) (half := .hi) rfl h d⟩

/-- Settles O21. -/
theorem statusWriteClearsFlags : Obligations.StatusWriteClearsFlags := fun _ _ => by
  rw [exec_eq_nextOf, nextOf, State.busWrite_status]
  simp only [State.clearFlags, Bool.if_false_left, Bool.decide_eq_true, Bool.and_comm]

/-! ### Coefficient writes (R144, R54) -/

theorem exec_busRead_coefficient {addr : Addr} (h : CoefficientAddress addr) (s : State) :
    exec (.busRead addr) s = .next (s.answer (s.coefWord addr.toNat)) :=
  exec_busRead_of_locate (locate_of_coefficientAddress h) s

theorem Memory.readByte_setWord_self (g : Nat) (m : Memory) (a : Nat) (w : Word) {i : Nat} (hi : i < 4) :
    (m.setWord a w).readByte g (a + i) = byteOfWord w i := by
  simp [Memory.readByte, Memory.byte?_setWord, hi]

/-- Settles O17: the write is that of one entry of the memory, whose laws give the rest. -/
theorem coefficientWriteThenRead : Obligations.CoefficientWriteThenRead := by
  intro s addr d hcoef
  have hloc := locate_of_coefficientAddress hcoef
  refine ⟨fun hbusy => exec_busWrite_busy hloc hbusy rfl, exec_busRead_coefficient hcoef s, fun a ha => ?_,
    fun hidle => ⟨_, exec_busWrite_idle hloc rfl hidle d, rfl, Memory.written_setWord_self _ _ _,
      fun i hi => Memory.readByte_setWord_self _ _ _ _ hi, fun a ha => Memory.readByte_setWord_other _ _ _ _ _ ha,
      fun a ha hne => Memory.written_setWord_other _ _ _ _ ?_, ?_⟩⟩
  · rw [State.coefByte, Memory.readByte, ha, Option.getD_none]
  · have haligned := hcoef.1
    omega
  · rw [exec_busRead_coefficient hcoef]
    exact congrArg (fun w => Host.Outcome.next (State.answer _ w)) (Memory.readWord_setWord_self _ _ _ _)

/-! ### The locked writes (R86, R145) -/

theorem lockedCommand_iff (d : Word) : lockedCommand d = true ↔ opcOf d = 1 ∨ opcOf d = 2 := by
  simp [lockedCommand, BitVec.toNat_eq]

/-- Only at CMD does the word written matter; a NOP stands for the words that CMD is never locked for. -/
theorem Loc.lockedWhileBusy_iff (l : Loc) (d : Word) :
    l.lockedWhileBusy d = true ↔ l.lockedWhileBusy 0 = true ∨ (l = .cmd ∧ (opcOf d = 1 ∨ opcOf d = 2)) := by
  cases l with
  | cmd =>
    have hnop : lockedCommand 0 = false := rfl
    simp only [Loc.lockedWhileBusy, hnop, lockedCommand_iff, Bool.false_eq_true, false_or, true_and]
  | _ => simp [Loc.lockedWhileBusy]

/-- The rows of the register block that are locked whatever the word: K, SNR_SCALE, DELAY_INDEX and the binary64
configuration registers (R86). -/
theorem registerMap_locked_iff {a : Nat} {l : Loc} (h : (a, l) ∈ registerMap) :
    l.lockedWhileBusy 0 = true ↔ a ∈ [0x0010, 0x0014, 0x0018] ∨ (0x0040 ≤ a ∧ a < 0x0078) := by
  have hrows : ∀ row ∈ registerMap, row.2.lockedWhileBusy 0 = true ↔
      row.1 ∈ [0x0010, 0x0014, 0x0018] ∨ (0x0040 ≤ row.1 ∧ row.1 < 0x0078) := by decide
  exact hrows _ h

theorem locate_cmd_iff {addr : Addr} {l : Loc} (hl : locate addr = some l) : l = .cmd ↔ addr.toNat = 0x0008 := by
  refine ⟨fun h => congrArg BitVec.toNat (locate_eq_cmd (h ▸ hl)), fun h => ?_⟩
  · rw [show addr = 0x0008 from BitVec.eq_of_toNat_eq h] at hl
    exact (Option.some.inj hl).symm

/-- The model's locked locations are the targets of R86. -/
theorem locked_iff_busyTarget {addr : Addr} {l : Loc} (hl : locate addr = some l) (d : Word) :
    l.lockedWhileBusy d = true ↔ BusyTarget addr d := by
  rw [Loc.lockedWhileBusy_iff, locate_cmd_iff hl]
  obtain ⟨haligned, ⟨hcoef, rfl⟩ | ⟨hreg, hrow⟩⟩ := locate_cases addr l hl
  · exact iff_of_true (.inl rfl) ⟨haligned, .inl ((inCoefficients_iff _).mp hcoef)⟩
  · have hnotCoef : ¬ (0x2000 ≤ addr.toNat ∧ addr.toNat < 0x5200) := by
      rw [← inCoefficients_iff, hreg]; exact Bool.false_ne_true
    rw [registerMap_locked_iff hrow, or_assoc]
    exact ⟨fun h => ⟨haligned, .inr h⟩, fun h => h.2.resolve_left hnotCoef⟩

/-- A target of R86 is no bad access. -/
theorem not_badAddress_of_busyTarget {addr : Addr} {d : Word} (h : BusyTarget addr d) : ¬ BadAddress addr := by
  obtain ⟨haligned, h⟩ := h
  simp only [List.mem_cons, List.not_mem_nil, or_false] at h
  simp only [BadAddress, Reserved]
  omega

theorem State.command_errBusy (s : State) (c : Word) : (s.command c).errBusy = s.errBusy := by
  rcases s.command_cases c with ⟨-, hc⟩ | ⟨-, hc⟩ | ⟨-, hc⟩ | ⟨-, hc⟩ | ⟨-, hc⟩ <;> rw [hc]
  · rfl
  · rcases s.startStep_cases (argOf c) with ⟨-, hs⟩ | ⟨-, -, -, hs⟩ | ⟨-, -, -, hs⟩ <;> rw [hs]
    exact s.flag_coef_errBusy
  · rcases s.abortRun_cases with ⟨-, ha⟩ | ⟨-, ha⟩ <;> rw [ha]
  · exact s.flag_cmd_errBusy

/-- No accepted write raises ERR_BUSY. -/
theorem State.writeAccepted_errBusy {s : State} (h : s.errBusy = false) (d : Word) (l : Loc) :
    (s.writeAccepted d l).errBusy = false := by
  cases l with
  | status => simp [State.writeAccepted, State.clearFlags, h]
  | cmd => exact (s.command_errBusy d).trans h
  | cfg r half => exact (s.setCfg_errBusy _ _).trans h
  | _ => exact h

/-- Settles O23: a busy block refuses a write exactly where its location is locked, and the locked locations are the
targets of R86. -/
theorem busyRefusesExactlyTheLockedWrites : Obligations.BusyRefusesExactlyTheLockedWrites := by
  intro s addr data arg
  refine ⟨fun hbusy htarget => ?_, fun hbusy => ⟨exec_init_busy hbusy arg, exec_step_busy hbusy arg⟩,
    fun hclear hfree => ⟨s.busWrite addr data, rfl, ?_⟩⟩
  · obtain ⟨l, hl⟩ := Option.ne_none_iff_exists'.mp
      (mt (locate_eq_none_iff addr).mp (not_badAddress_of_busyTarget htarget))
    exact exec_busWrite_busy hl hbusy ((locked_iff_busyTarget hl data).mpr htarget)
  · rcases s.busWrite_cases addr data with ⟨-, hw⟩ | ⟨l, hl, -, hbusy, hlocked, -⟩ | ⟨l, -, -, -, hw⟩
    · rw [hw, State.flag_addr_errBusy, hclear]
    · exact absurd ⟨s.busy_iff.mp hbusy, (locked_iff_busyTarget hl data).mp hlocked⟩ hfree
    · rw [hw, State.writeAccepted_errBusy hclear]

/-! ### A run of samples (R151, R311) -/

/-- A state at another point of a run: with other STEPS_LEFT and DONE. -/
def State.withRun (s : State) (n : BitVec 24) (d : Bool) : State := { s with stepsLeft := n, done := d }

/-- A sample computes on neither STEPS_LEFT nor DONE; it counts the one down and sets the other at the last. -/
theorem State.sampleStep_withRun (s : State) (n : BitVec 24) (d : Bool) :
    (s.withRun n d).sampleStep = s.sampleStep.withRun (n - 1) (d || decide (n = 1)) := rfl

theorem sampleSteps_add (m n : Nat) (s : State) : sampleSteps (m + n) s = sampleSteps n (sampleSteps m s) := by
  induction m generalizing s with
  | zero => rw [Nat.zero_add, sampleSteps]
  | succ m ih => rw [Nat.succ_add, sampleSteps, sampleSteps, ih]

/-- A run of n ≠ 0 samples ends with STEPS_LEFT = 0 and DONE = 1, and it leaves the rest of the state as n samples from
any other STEPS_LEFT and DONE would. -/
theorem sampleSteps_withRun {n : BitVec 24} (hn : n ≠ 0) (s : State) (d : Bool) :
    sampleSteps n.toNat (s.withRun n d) = (sampleSteps n.toNat s).withRun 0 true := by
  induction hm : n.toNat generalizing n s d with
  | zero => exact absurd (BitVec.eq_of_toNat_eq hm) hn
  | succ m ih =>
    rw [sampleSteps, sampleSteps, State.sampleStep_withRun]
    by_cases hlast : n = 1
    · subst hlast
      obtain rfl : m = 0 := by simpa using hm.symm
      simp [sampleSteps]
    · have hne : n - 1 ≠ 0 := fun h => hlast (by bv_omega)
      rw [ih hne _ _ (by bv_omega)]

theorem State.startStep_eq_withRun {s : State} (h : Loaded s) {n : BitVec 24} (hn : n ≠ 0) :
    s.startStep n = s.withRun n false := by
  rw [State.startStep_of_loaded h, if_neg hn]
  rfl

theorem sampleSteps_mem (n : Nat) (s : State) : (sampleSteps n s).mem = s.mem := by
  induction n generalizing s with
  | zero => rfl
  | succ n ih => rw [sampleSteps, ih]; rfl

/-- Loading is of the coefficient memory only (R35). -/
theorem Loaded.of_mem_eq {s t : State} (h : Loaded s) (hmem : t.mem = s.mem) : Loaded t := ⟨hmem ▸ h.mf, hmem ▸ h.rs⟩

/-- Settles O7: both ways lead to the samples of the idle state, a and then b of them, with STEPS_LEFT = 0 and
DONE = 1. -/
theorem stepCommandsCompose : Obligations.StepCommandsCompose := by
  intro s a b hidle hload ha hb hsum
  have hab : (a + b).toNat = a.toNat + b.toNat := by rw [BitVec.toNat_add, Nat.mod_eq_of_lt hsum]
  have hab0 : a + b ≠ 0 := by bv_omega
  have hafter : sampleSteps a.toNat (s.startStep a) = (sampleSteps a.toNat s).withRun 0 true := by
    rw [State.startStep_eq_withRun hload ha, sampleSteps_withRun ha]
  have hload' : Loaded ((sampleSteps a.toNat s).withRun 0 true) := hload.of_mem_eq (sampleSteps_mem _ s)
  refine ⟨_, _, _, exec_step_idle hidle a, by rw [hafter]; exact exec_step_idle rfl b,
    exec_step_idle hidle (a + b), ?_⟩
  calc sampleSteps b.toNat (((sampleSteps a.toNat s).withRun 0 true).startStep b)
      = sampleSteps b.toNat ((sampleSteps a.toNat s).withRun b false) := by
        rw [State.startStep_eq_withRun hload' hb]; rfl
    _ = (sampleSteps (a.toNat + b.toNat) s).withRun 0 true := by rw [sampleSteps_withRun hb, sampleSteps_add]
    _ = sampleSteps (a.toNat + b.toNat) (s.startStep (a + b)) := by
        rw [State.startStep_eq_withRun hload hab0, ← hab, sampleSteps_withRun hab0]

/-! ### The engine runs a command to its end (R313) -/

theorem State.drawsNeeded_le (s : State) : s.drawsNeeded ≤ 22 := by
  unfold State.drawsNeeded symbolDraws
  split <;> decide

theorem sampleSteps_sampleCount (n : Nat) (s : State) :
    (sampleSteps n s).sampleCount = s.sampleCount + BitVec.ofNat 32 n := by
  induction n generalizing s with
  | zero => simp [sampleSteps]
  | succ n ih =>
    rw [sampleSteps, ih, State.sampleStep, State.commitSample_sampleCount, BitVec.add_assoc,
      Nat.add_comm n 1, BitVec.ofNat_add]
    rfl

theorem State.sampleStep_fifo_length (s : State) : s.sampleStep.fifo.length = s.fifo.length + 2 := by
  simp [State.sampleStep]

theorem sampleSteps_fifo_length (n : Nat) (s : State) :
    (sampleSteps n s).fifo.length = s.fifo.length + 2 * n := by
  induction n generalizing s with
  | zero => rfl
  | succ n ih => rw [sampleSteps, ih, State.sampleStep_fifo_length]; omega

theorem run_succ_of_step {M : Host.Core} {s t : M.State} (h : M.step s = .next t) (n : Nat) :
    M.run (n + 1) s = M.run n t := by
  rw [Host.Core.run, h]

theorem step_of_sampleEnabled {s : State} (hin : s.inputs = []) (h : s.sampleEnabled = true) :
    step s = .next s.sampleStep := by
  simp only [step, hin, State.withoutHost, State.engineTurn, h, if_true]

/-- With nothing pending, the machine takes samples as long as the command, the FIFO's room and the draws last. -/
theorem run_eq_sampleSteps (n : Nat) (s : State) (hin : s.inputs = []) (hsteps : n ≤ s.stepsLeft.toNat)
    (hroom : s.fifo.length + 2 * n ≤ 32) (hdraws : 22 * n ≤ s.draws.length) :
    Host.Core.run Sys2Proof.core n s = .next (sampleSteps n s) := by
  induction n generalizing s with
  | zero => rfl
  | succ n ih =>
    have hneed := s.drawsNeeded_le
    have henabled : s.sampleEnabled = true :=
      s.sampleEnabled_iff.mpr ⟨by bv_omega, by omega, by omega⟩
    have hleft : s.sampleStep.stepsLeft = s.stepsLeft - 1 := rfl
    have hlength : s.sampleStep.draws.length = s.draws.length - s.drawsNeeded := List.length_drop
    calc Host.Core.run Sys2Proof.core (n + 1) s
        = Host.Core.run Sys2Proof.core n s.sampleStep := run_succ_of_step (step_of_sampleEnabled hin henabled) n
      _ = .next (sampleSteps n s.sampleStep) :=
        ih s.sampleStep hin (by rw [hleft]; bv_omega) (by rw [State.sampleStep_fifo_length]; omega)
          (by rw [hlength]; omega)

/-- Settles O31: the started run meets the bounds, and its samples end it. -/
theorem stepCommandRunsToItsEnd : Obligations.StepCommandRunsToItsEnd := by
  intro s n hidle hload hn hin hroom hdraws
  have hstart : s.startStep n = s.withRun n false := State.startStep_eq_withRun hload hn
  have hend : sampleSteps n.toNat (s.withRun n false) = (sampleSteps n.toNat s).withRun 0 true :=
    sampleSteps_withRun hn s false
  refine ⟨s.withRun n false, _, hstart ▸ exec_step_idle hidle n,
    run_eq_sampleSteps n.toNat (s.withRun n false) hin le_rfl hroom hdraws, rfl, ?_, ?_, ?_, ?_⟩
  · rw [hend]; rfl
  · rw [hend]; rfl
  · exact sampleSteps_sampleCount _ _
  · exact sampleSteps_fifo_length _ _

end Sys2Proof.Machine

/-!
PROOFS. The FIR engine (R180 to R188). The exact sum is said once as a sum over positions. The delay line after an
insert, and so after any number of calls, holds the first entries of the reversed inputs followed by the old delay line.
The circular buffer is compared position by position, and the matched filter's bound rests on counting the positions
of one residue modulo 256.
-/

namespace Sys2Proof.Machine

/-! ### The exact sum and the integer primitives (R14, R180) -/

@[simp] theorem firSum_nil {w : Nat} (dl : List (BitVec w)) : firSum [] dl = 0 := rfl

@[simp] theorem firSum_nil_right {w : Nat} (c : List Word) : firSum c ([] : List (BitVec w)) = 0 := by simp [firSum]

theorem firSum_cons {w : Nat} (a : Word) (c : List Word) (d : BitVec w) (dl : List (BitVec w)) :
    firSum (a :: c) (d :: dl) = a.toInt * d.toInt + firSum c dl := rfl

/-- Coefficient k always meets position k (R181), so the sum runs over positions. -/
theorem firSum_eq_sum {w : Nat} {c : List Word} {dl : List (BitVec w)} (h : c.length = dl.length) :
    firSum c dl = ∑ k ∈ Finset.range c.length, (c.getD k 0).toInt * (dl.getD k 0).toInt := by
  induction c generalizing dl with
  | nil => rfl
  | cons a c ih =>
    cases dl with
    | nil => simp at h
    | cons d dl =>
      have hlength : c.length = dl.length := by simpa using h
      rw [firSum_cons, ih hlength, List.length_cons, Finset.sum_range_succ', add_comm]
      rfl

theorem wrap32_toInt (z : Int) : (wrap32 z).toInt = Int.bmod z (2 ^ 32) := BitVec.toInt_ofInt z

theorem wrap32_toInt_word (d : Word) : wrap32 d.toInt = d := BitVec.ofInt_toInt

theorem outsideInt32_iff (z : Int) : outsideInt32 z = true ↔ z < -2 ^ 31 ∨ 2 ^ 31 - 1 < z := by
  simp [outsideInt32]

/-! ### The delay line after an insert (R182) -/

theorem insertSample_eq_take {w : Nat} (x : BitVec w) (dl : List (BitVec w)) :
    insertSample x dl = (x :: dl).take dl.length := by
  rw [insertSample, List.dropLast_eq_take, List.length_cons, Nat.add_sub_cancel]

theorem getD_take_of_lt {α : Type} {l : List α} {n k : Nat} (h : k < n) (d : α) :
    (l.take n).getD k d = l.getD k d := by
  simp [List.getD_eq_getElem?_getD, List.getElem?_take_of_lt h]

theorem insertSample_getD {w k : Nat} {dl : List (BitVec w)} (h : k < dl.length) (x : BitVec w) :
    (insertSample x dl).getD k 0 = (x :: dl).getD k 0 := by
  rw [insertSample_eq_take, getD_take_of_lt h]

/-- Settles O36: the fields of one call, each by its own rule. -/
theorem firOutputIsTheWrappedSum : Obligations.FirOutputIsTheWrappedSum := by
  intro w c dl x hlength total
  have hsum : firSum c dl = total := firSum_eq_sum hlength
  refine ⟨hsum ▸ wrap32_toInt _, hsum ▸ outsideInt32_iff _, insertSample_length x dl, fun hpos => ?_,
    fun k hk hlt => ?_⟩
  · exact insertSample_getD hpos x
  · obtain ⟨j, rfl⟩ := Nat.exists_eq_succ_of_ne_zero hk.ne'
    exact insertSample_getD hlt x

/-! ### Successive calls (R182) -/

/-- Call m sees the inputs of the calls before it, newest first, then the delay line of the first call. -/
theorem firOutputs_getD {w m : Nat} (c : List Word) (dl : List (BitVec w)) {xs : List (BitVec w)}
    (h : m < xs.length) :
    (firOutputs c dl xs).getD m 0 = wrap32 (firSum c (((xs.take m).reverse ++ dl).take dl.length)) := by
  induction xs generalizing dl m with
  | nil => simp at h
  | cons x xs ih =>
    cases m with
    | zero => simp [firOutputs, fir]
    | succ m =>
      have hlt : m < xs.length := by simpa using h
      calc (firOutputs c dl (x :: xs)).getD (m + 1) 0
          = (firOutputs c (insertSample x dl) xs).getD m 0 := rfl
        _ = wrap32 (firSum c (((xs.take m).reverse ++ (x :: dl).take dl.length).take dl.length)) := by
          rw [ih _ hlt, insertSample_length, insertSample_eq_take]
        _ = wrap32 (firSum c (((x :: xs).take (m + 1)).reverse ++ dl |>.take dl.length)) := by
          simp [List.take_append, List.take_take]

/-- From an empty history, position k at call m holds the input of call m − 1 − k, or 0 before the first input. -/
theorem history_getD {w n m k : Nat} {xs : List (BitVec w)} (hm : m < xs.length) (hk : k < n) :
    (((xs.take m).reverse ++ List.replicate n 0).take n).getD k 0 = if k < m then xs.getD (m - 1 - k) 0 else 0 := by
  have hlength : (xs.take m).length = m := List.length_take_of_le hm.le
  have hreverse : (xs.take m).reverse.length = m := by rw [List.length_reverse, hlength]
  rw [getD_take_of_lt hk]
  split
  case isTrue hlt =>
    rw [List.getD_append _ _ _ _ (by omega), List.getD_reverse _ (by omega), hlength, getD_take_of_lt (by omega)]
  case isFalse hge =>
    rw [List.getD_append_right _ _ _ _ (by omega), List.getD_replicate _ (by omega)]

theorem firOutputs_zeros_getD {w m : Nat} (c : List Word) {xs : List (BitVec w)} (hm : m < xs.length) :
    (firOutputs c (List.replicate c.length 0) xs).getD m 0 =
      wrap32 (∑ k ∈ Finset.range c.length,
        if k < m then (c.getD k 0).toInt * (xs.getD (m - 1 - k) 0).toInt else 0) := by
  rw [firOutputs_getD _ _ hm, List.length_replicate, firSum_eq_sum (by simp)]
  refine congrArg wrap32 (Finset.sum_congr rfl fun k hk => ?_)
  rw [history_getD hm (Finset.mem_range.mp hk)]
  split <;> simp

/-- The coefficient vector with 1 at position p alone (R182). -/
def oneHot (taps p : Nat) : List Word := (List.range taps).map fun k => if k = p then 1 else 0

@[simp] theorem oneHot_length (taps p : Nat) : (oneHot taps p).length = taps := by simp [oneHot]

theorem oneHot_getD {taps p k : Nat} (h : k < taps) : (oneHot taps p).getD k 0 = if k = p then 1 else 0 := by
  simp [oneHot, h]

theorem firOutputs_oneHot_getD {taps p m : Nat} {xs : List Word} (hp : p < taps) (hm : m < xs.length) :
    (firOutputs (oneHot taps p) (List.replicate taps 0) xs).getD m 0 = if p < m then xs.getD (m - p - 1) 0 else 0 := by
  have hterm : ∀ k ∈ Finset.range taps,
      (if k < m then ((oneHot taps p).getD k 0).toInt * (xs.getD (m - 1 - k) 0).toInt else 0) =
        if k = p then (if p < m then xs.getD (m - p - 1) 0 else 0).toInt else 0 := by
    intro k hk
    rw [oneHot_getD (Finset.mem_range.mp hk)]
    by_cases hkp : k = p
    · subst hkp
      rw [Nat.sub_right_comm m 1 k]
      split <;> simp
    · simp [hkp]
  have hsum := firOutputs_zeros_getD (oneHot taps p) hm
  rw [oneHot_length, Finset.sum_congr rfl hterm, Finset.sum_ite_eq', if_pos (Finset.mem_range.mpr hp),
    wrap32_toInt_word] at hsum
  exact hsum

/-- Settles O37, by what call m finds in the delay line. -/
theorem firDependsOnEarlierInputsOnly : Obligations.FirDependsOnEarlierInputsOnly :=
  ⟨fun _ c _ _ hm => firOutputs_zeros_getD c hm, fun _ _ _ _ hp hm => firOutputs_oneHot_getD hp hm⟩

/-! ### The circular buffer (R181) -/

/-- No other position of a full turn falls on the front. -/
theorem add_mod_ne_self {f k n : Nat} (hf : f < n) (hk : 0 < k) (hkn : k < n) : (f + k) % n ≠ f := by
  rcases Nat.lt_or_ge (f + k) n with hlt | hge
  · rw [Nat.mod_eq_of_lt hlt]; omega
  · rw [Nat.mod_eq_sub_mod hge, Nat.mod_eq_of_lt (by omega)]; omega

section
variable {w : Nat} (r : RingDelayLine w)

@[simp] theorem RingDelayLine.view_length : r.view.length = r.buf.length := by simp [RingDelayLine.view]

theorem RingDelayLine.view_getD {k : Nat} (h : k < r.buf.length) :
    r.view.getD k 0 = r.buf.getD ((r.front + k) % r.buf.length) 0 := by
  simp [RingDelayLine.view, h]

theorem RingDelayLine.sum_eq_firSum_view {c : List Word} (h : c.length = r.buf.length) :
    r.sum c = firSum c r.view := by
  have hterm : ∀ k ∈ Finset.range r.buf.length,
      (c.getD k 0).toInt * (r.buf.getD ((r.front + k) % r.buf.length) 0).toInt =
        (c.getD k 0).toInt * (r.view.getD k 0).toInt := fun k hk => by
    rw [r.view_getD (Finset.mem_range.mp hk)]
  calc r.sum c
      = ∑ k ∈ Finset.range r.buf.length,
          (c.getD k 0).toInt * (r.buf.getD ((r.front + k) % r.buf.length) 0).toInt := rfl
    _ = ∑ k ∈ Finset.range c.length, (c.getD k 0).toInt * (r.view.getD k 0).toInt := by
      rw [Finset.sum_congr rfl hterm, h]
    _ = firSum c r.view := (firSum_eq_sum (by rw [h, r.view_length])).symm

@[simp] theorem RingDelayLine.insert_buf_length (x : BitVec w) : (r.insert x).buf.length = r.buf.length := by
  simp [RingDelayLine.insert]

theorem RingDelayLine.insert_buf (x : BitVec w) : (r.insert x).buf = r.buf.set (r.insert x).front x := rfl

theorem RingDelayLine.insert_front_lt (x : BitVec w) (h : 0 < r.buf.length) :
    (r.insert x).front < r.buf.length := Nat.mod_lt _ h

/-- The buffer index of a position after an insert: the new front, then the old positions one place later. -/
theorem RingDelayLine.insert_index (x : BitVec w) (hpos : 0 < r.buf.length) (k : Nat) :
    ((r.insert x).front + (k + 1)) % r.buf.length = (r.front + k) % r.buf.length := by
  have hback : r.front + r.buf.length - 1 + (k + 1) = r.front + k + r.buf.length := by omega
  rw [RingDelayLine.insert, Nat.mod_add_mod, hback, Nat.add_mod_right]

theorem RingDelayLine.insert_view (x : BitVec w) : (r.insert x).view = insertSample x r.view := by
  refine List.ext_getElem (by simp) fun k hk hk' => ?_
  have hlt : k < r.buf.length := by simpa using hk
  have hpos : 0 < r.buf.length := by omega
  have hfront := r.insert_front_lt x hpos
  rw [← List.getD_eq_getElem _ 0, ← List.getD_eq_getElem _ 0, insertSample_getD (by simpa using hlt),
    view_getD _ (by simpa using hlt), insert_buf_length, insert_buf]
  cases k with
  | zero => simp [Nat.mod_eq_of_lt hfront, hfront]
  | succ k =>
    have hne := add_mod_ne_self hfront k.succ_pos hlt
    rw [r.insert_index x hpos] at hne ⊢
    rw [List.getD_cons_succ, r.view_getD (by omega)]
    simp [List.getD_eq_getElem?_getD, List.getElem?_set_ne hne.symm]

end

/-- Settles O38: each clause is the buffer's own rule. -/
theorem ringBufferComputesTheSame : Obligations.RingBufferComputesTheSame := by
  intro w c r x hlength hfront
  refine ⟨fun k hk => r.view_getD hk, firSum_eq_sum (by rw [hlength, r.view_length]), r.sum_eq_firSum_view hlength,
    r.insert_view x, ?_, r.insert_buf_length x⟩
  rw [r.insert_buf_length]
  exact r.insert_front_lt x (by omega)

/-! ### The bound of the matched-filter sum (R188) -/

theorem length_filter_ne_zero {w : Nat} (dl : List (BitVec w)) :
    (dl.filter (· ≠ 0)).length = Nat.count (fun k => dl.getD k 0 ≠ 0) dl.length := by
  have hpositions : dl = (List.range dl.length).map fun k => dl.getD k 0 :=
    List.ext_getElem (by simp) fun k hk _ => by simp [hk]
  calc (dl.filter (· ≠ 0)).length
      = (((List.range dl.length).map fun k => dl.getD k 0).filter (· ≠ 0)).length := by rw [← hpositions]
    _ = Nat.count (fun k => dl.getD k 0 ≠ 0) dl.length := by
      rw [← List.countP_eq_length_filter, List.countP_map]; rfl

/-- Each residue modulo 256 has 2048 / 256 positions. -/
theorem count_modEq_taps (v : Nat) : Nat.count (· ≡ v [MOD 256]) 2048 = 8 := by
  rw [Nat.count_modEq_card 2048 (by decide)]
  simp

/-- The nonzero entries stand at positions of one residue modulo 256, and 2048 positions hold 8 of them. -/
theorem CadenceOf.nonzero_le {n : Word} {dl : List (BitVec 8)} (h : CadenceOf n dl)
    (hlength : dl.length = Config.mfTaps) : (dl.filter (· ≠ 0)).length ≤ 8 := by
  have htaps : dl.length = 2048 := hlength
  have hresidue : ∀ k < 2048, dl.getD k 0 ≠ 0 → k ≡ n.toNat + 2 ^ 32 - 1 [MOD 256] := fun k hk hne => by
    have hcadence : (n.toNat + 2 ^ 32 - 1 - k) % 256 = 0 := h k (htaps ▸ hk) hne
    unfold Nat.ModEq
    omega
  calc (dl.filter (· ≠ 0)).length
      = Nat.count (fun k => dl.getD k 0 ≠ 0) 2048 := by rw [length_filter_ne_zero, htaps]
    _ ≤ Nat.count (· ≡ n.toNat + 2 ^ 32 - 1 [MOD 256]) 2048 := Nat.count_mono_left hresidue
    _ = 8 := count_modEq_taps _

theorem word_abs_toInt_le (a : Word) : |a.toInt| ≤ 2 ^ 31 :=
  abs_le.mpr ⟨BitVec.le_toInt a, BitVec.toInt_lt.le⟩

theorem symbol_abs_toInt_le {d : BitVec 8} (h : d = 0 ∨ d = 64 ∨ d = -64) : |d.toInt| ≤ 64 := by
  rcases h with rfl | rfl | rfl <;> decide

/-- Only the nonzero entries of the delay line count toward the sum, each with at most 64 · 2^31. -/
theorem abs_firSum_le {c : List Word} {dl : List (BitVec 8)} (h : ∀ d ∈ dl, d = 0 ∨ d = 64 ∨ d = -64) :
    |firSum c dl| ≤ 2 ^ 37 * (dl.filter (· ≠ 0)).length := by
  induction c generalizing dl with
  | nil => simp
  | cons a c ih =>
    cases dl with
    | nil => simp
    | cons d dl =>
      obtain ⟨hd, hrest⟩ := List.forall_mem_cons.mp h
      have htail := ih hrest
      rw [firSum_cons]
      by_cases hzero : d = 0
      · rw [List.filter_cons_of_neg (by simpa using hzero), hzero]
        simpa using htail
      · have hproduct : |a.toInt * d.toInt| ≤ 2 ^ 31 * 64 := by
          rw [abs_mul]
          exact mul_le_mul (word_abs_toInt_le a) (symbol_abs_toInt_le hd) (abs_nonneg _) (by positivity)
        rw [List.filter_cons_of_pos (by simpa using hzero), List.length_cons, Nat.cast_succ]
        linarith [abs_add_le (a.toInt * d.toInt) (firSum c dl)]

theorem CadenceOf.abs_firSum_le {n : Word} {dl : List (BitVec 8)} (h : CadenceOf n dl)
    (hlength : dl.length = Config.mfTaps) (hsymbols : ∀ d ∈ dl, d = 0 ∨ d = 64 ∨ d = -64) (c : List Word) :
    |firSum c dl| ≤ 2 ^ 40 := by
  have hbound := Machine.abs_firSum_le (c := c) hsymbols
  have hcount := h.nonzero_le hlength
  omega

/-- Settles O39, channel by channel. -/
theorem matchedSumIsBounded : Obligations.MatchedSumIsBounded := fun _ hinv hcad =>
  ⟨hcad.cadenceI.nonzero_le hcad.mfdlILength, hcad.cadenceQ.nonzero_le hcad.mfdlQLength,
    hcad.cadenceI.abs_firSum_le hcad.mfdlILength hinv.mfdlISymbols _,
    hcad.cadenceQ.abs_firSum_le hcad.mfdlQLength hinv.mfdlQSymbols _⟩

end Sys2Proof.Machine

/-!
PROOFS. The symbol source and its cadence in the matched-filter delay lines (R188, R200 to R203). The cadence speaks of
SAMPLE_COUNT and of MFDL only, and a step leaves these three as they are, clears them, or takes one sample. A sample
moves every symbol on by one position and SAMPLE_COUNT by one, so the number of the sample that inserted a symbol stays
the same modulo 2^32, and modulo 256 too, which is why the wrap of SAMPLE_COUNT does no harm.
-/

namespace Sys2Proof.Machine

/-! ### The symbols (R202, R203) -/

/-- Settles O35, by the side of 2^30 that the draw is on. -/
theorem symbolThreshold : Obligations.SymbolThreshold := fun d => by
  refine ⟨fun hlow => ?_, fun hhigh => ?_⟩
  · rw [sym, if_pos hlow]; rfl
  · rw [sym, if_neg hhigh.not_gt]; rfl

theorem decisionInstant_iff (n : Word) : decisionInstant n = true ↔ n.toNat % 256 = 0 := decide_eq_true_iff

/-- Between decision instants the pair is (0, 0) (R203). -/
theorem symbolPair_of_not_decisionInstant {n : Word} (h : ¬ decisionInstant n = true) (ds : List Draw) :
    symbolPair n ds = ⟨0, 0⟩ := if_neg h

/-! ### The cadence of one delay line -/

theorem cadenceOf_iff (n : Word) (dl : List (BitVec 8)) :
    CadenceOf n dl ↔ ∀ k < dl.length, dl.getD k 0 ≠ 0 → (n.toNat + 2 ^ 32 - 1 - k) % 256 = 0 := Iff.rfl

/-- A delay line keeps the cadence when sample `n` inserts a symbol only at a decision instant, n = 2^32 − 1 included,
after which SAMPLE_COUNT is 0. -/
theorem CadenceOf.insertSample {n : Word} {dl : List (BitVec 8)} (h : CadenceOf n dl) (hlength : dl.length ≤ 2 ^ 32)
    {x : BitVec 8} (hx : x ≠ 0 → decisionInstant n = true) : CadenceOf (n + 1) (insertSample x dl) := by
  rw [cadenceOf_iff] at h ⊢
  intro k hk hne
  rw [insertSample_length] at hk
  rw [insertSample_getD hk] at hne
  have hn := n.isLt
  have hnext : (n + 1).toNat = (n.toNat + 1) % 2 ^ 32 := BitVec.toNat_add n 1
  cases k with
  | zero =>
    have hinstant := (decisionInstant_iff n).mp (hx hne)
    omega
  | succ j =>
    have hold := h j (by omega) hne
    omega

/-! ### What the cadence rests on -/

/-- SAMPLE_COUNT and the two matched-filter delay lines. -/
def State.symbolHistory (s : State) : Word × List (BitVec 8) × List (BitVec 8) := (s.sampleCount, s.mfdlI, s.mfdlQ)

theorem SymbolCadence.of_symbolHistory_eq {s t : State} (h : SymbolCadence s)
    (heq : t.symbolHistory = s.symbolHistory) : SymbolCadence t := by
  obtain ⟨hcount, hlines⟩ := Prod.mk.inj heq
  obtain ⟨hI, hQ⟩ := Prod.mk.inj hlines
  exact ⟨hI ▸ h.mfdlILength, hQ ▸ h.mfdlQLength, hcount ▸ hI ▸ h.cadenceI, hcount ▸ hQ ▸ h.cadenceQ⟩

/-- One sample inserts the symbol pair of its own number in each delay line (R188, R200). -/
theorem SymbolCadence.sampleStep {s : State} (h : SymbolCadence s) : SymbolCadence s.sampleStep := by
  have hinstant : s.nextSymbol ≠ ⟨0, 0⟩ → decisionInstant s.sampleCount = true := fun hne =>
    by_contra fun hbetween => hne (symbolPair_of_not_decisionInstant hbetween s.draws)
  have hI : s.nextSymbol.i ≠ 0 → decisionInstant s.sampleCount = true := fun hne =>
    hinstant fun hzero => hne (congrArg IQ.i hzero)
  have hQ : s.nextSymbol.q ≠ 0 → decisionInstant s.sampleCount = true := fun hne =>
    hinstant fun hzero => hne (congrArg IQ.q hzero)
  have htaps : Config.mfTaps ≤ 2 ^ 32 := by decide
  exact {
    mfdlILength := by rw [State.sampleStep_mfdlI, insertSample_length, h.mfdlILength]
    mfdlQLength := by rw [State.sampleStep_mfdlQ, insertSample_length, h.mfdlQLength]
    cadenceI := h.cadenceI.insertSample (h.mfdlILength.trans_le htaps) hI
    cadenceQ := h.cadenceQ.insertSample (h.mfdlQLength.trans_le htaps) hQ }

/-! ### What a step does to it -/

@[simp] theorem State.symbolHistory_flag (s : State) (e : ErrFlag) : (s.flag e).symbolHistory = s.symbolHistory := by
  simp [State.symbolHistory]

@[simp] theorem State.symbolHistory_answer (s : State) (w : Word) : (s.answer w).symbolHistory = s.symbolHistory := rfl

@[simp] theorem State.symbolHistory_setCfg (s : State) (r : CfgReg) (p : Pattern) :
    (s.setCfg r p).symbolHistory = s.symbolHistory := by simp [State.symbolHistory]

@[simp] theorem State.symbolHistory_setShadow (s : State) (r : PowerReg) (w : Word) :
    (s.setShadow r w).symbolHistory = s.symbolHistory := by simp [State.symbolHistory]

theorem State.symbolHistory_initRun (s : State) : s.initRun.symbolHistory = State.reset.symbolHistory := rfl

theorem State.symbolHistory_powerOn (s : State) : s.powerOn.symbolHistory = State.reset.symbolHistory := rfl

theorem State.symbolHistory_busRead (s : State) (addr : Addr) : (s.busRead addr).symbolHistory = s.symbolHistory := by
  rcases s.busRead_cases addr with ⟨-, hr⟩ | ⟨l, -, hr⟩ <;> rw [hr, State.symbolHistory_answer]
  · exact s.symbolHistory_flag _
  · rcases s.readEffect_cases l with he | ⟨-, he⟩ | ⟨r, -, he⟩ <;> rw [he]
    · rcases s.popFifo_cases with ⟨-, hp⟩ | ⟨w, rest, -, hp⟩ <;> rw [hp]
      · exact s.symbolHistory_flag _
      · rfl
    · exact s.symbolHistory_setShadow r _

/-- Of the commands only INIT writes it (R150, R153). -/
theorem State.symbolHistory_command (s : State) (c : Word) :
    (s.command c).symbolHistory = s.symbolHistory ∨ (s.command c).symbolHistory = State.reset.symbolHistory := by
  rcases s.command_cases c with ⟨-, hc⟩ | ⟨-, hc⟩ | ⟨-, hc⟩ | ⟨-, hc⟩ | ⟨-, hc⟩ <;> rw [hc]
  · exact .inl rfl
  · exact .inr s.symbolHistory_initRun
  · rcases s.startStep_cases (argOf c) with ⟨-, hs⟩ | ⟨-, -, -, hs⟩ | ⟨-, -, -, hs⟩ <;> rw [hs] <;> exact .inl rfl
  · rcases s.abortRun_cases with ⟨-, ha⟩ | ⟨-, ha⟩ <;> rw [ha] <;> exact .inl rfl
  · exact .inl (s.symbolHistory_flag _)

theorem State.symbolHistory_busWrite (s : State) (addr : Addr) (d : Word) :
    (s.busWrite addr d).symbolHistory = s.symbolHistory ∨
    (s.busWrite addr d).symbolHistory = State.reset.symbolHistory := by
  rcases s.busWrite_cases addr d with ⟨-, hw⟩ | ⟨-, -, -, -, -, hw⟩ | ⟨l, -, -, -, hw⟩ <;> rw [hw]
  · exact .inl (s.symbolHistory_flag _)
  · exact .inl (s.symbolHistory_flag _)
  · cases l with
    | cmd => exact s.symbolHistory_command d
    | cfg r half => exact .inl (s.symbolHistory_setCfg r _)
    | _ => exact .inl rfl

/-- A step leaves SAMPLE_COUNT and the matched-filter delay lines alone, clears them (INIT, power-on), or is one
sample. -/
theorem step_symbolHistory_cases {s t : State} (hstep : step s = .next t) :
    t.symbolHistory = s.symbolHistory ∨ t.symbolHistory = State.reset.symbolHistory ∨
    t.symbolHistory = s.sampleStep.symbolHistory := by
  cases stepBy_of_step hstep with
  | engine _ ht =>
    rcases s.dropInput.engineTurn_cases with ⟨-, he⟩ | ⟨-, he⟩
    · exact .inr (.inr (by rw [ht, he]; rfl))
    · exact .inl (by rw [ht, he]; rfl)
  | read addr _ _ ht => exact .inl (ht ▸ s.dropInput.symbolHistory_busRead addr)
  | write addr d _ ht =>
    rcases s.dropInput.symbolHistory_busWrite addr d with hkept | hcleared
    · exact .inl (ht ▸ hkept)
    · exact .inr (.inl (ht ▸ hcleared))
  | supply ds _ ht => exact .inl (ht ▸ rfl)
  | powerOn _ ht => exact .inr (.inl (ht ▸ s.dropInput.symbolHistory_powerOn))

/-- Settles O53: what a step leaves keeps the cadence, what it clears has no symbol, and a sample inserts one in time. -/
theorem stepKeepsTheSymbolCadence : Obligations.StepKeepsTheSymbolCadence := by
  intro s t hstep h
  rcases step_symbolHistory_cases hstep with hkept | hcleared | hsample
  · exact h.of_symbolHistory_eq hkept
  · exact symbolCadence_reset.of_symbolHistory_eq hcleared
  · exact h.sampleStep.of_symbolHistory_eq hsample

end Sys2Proof.Machine

/-!
PROOFS. The exact sum of the centred draws (R220 to R223). An integer multiple of a power of two is rounded to the same
datum on whatever grid it is written (`F64.dyadic`), and below 2^53 units it is that datum's exact value. So long as the
operands stay below 2^53 units, addition on one grid is then addition of the integers, and the noise source, whose unit
is 2^−31, needs only 10 · 2^30 of them.
-/

namespace Sys2Proof.Machine

/-! ### Rounding does not depend on the grid the number is written on (R15) -/

theorem roundedShift_double (m n : Nat) : roundedShift (2 * m) (n + 1) = roundedShift m n := by
  have hquot : 2 * m / 2 ^ (n + 1) = m / 2 ^ n := by rw [pow_succ', Nat.mul_div_mul_left _ _ two_pos]
  have hrem : 2 * m % 2 ^ (n + 1) = 2 * (m % 2 ^ n) := by rw [pow_succ', Nat.mul_mod_mul_left]
  have hpow : 2 ^ (n + 1) = 2 * 2 ^ n := pow_succ' 2 n
  simp only [roundedShift, hquot, hrem]
  simp only [hpow, Nat.mul_lt_mul_left two_pos, Nat.mul_right_inj two_ne_zero]

theorem onGrid_double (m : Nat) (e g : Int) : onGrid (2 * m) e g = onGrid m (e + 1) g := by
  rcases lt_trichotomy g (e + 1) with hlow | rfl | hhigh
  · have hshift : (e + 1 - g).toNat = (e - g).toNat + 1 := by omega
    rw [onGrid, onGrid, if_pos (by omega), if_pos (by omega), hshift, pow_succ]
    ring
  · simp [onGrid, roundedShift]
  · have hshift : (g - e).toNat = (g - (e + 1)).toNat + 1 := by omega
    rw [onGrid, onGrid, if_neg (by omega), if_neg (by omega), hshift, roundedShift_double]

theorem gridExp_double {m : Nat} (hm : m ≠ 0) (e : Int) : gridExp (2 * m) e = gridExp m (e + 1) := by
  rw [gridExp, gridExp, Nat.log2_two_mul hm]
  push_cast
  congr 1; ring

theorem F64.round_double (n : Bool) (m : Nat) (e : Int) : F64.round n (2 * m) e = F64.round n m (e + 1) := by
  by_cases hm : m = 0
  · simp [hm]
  · rw [F64.round, F64.round, if_neg (by omega), if_neg hm]
    simp only [gridExp_double hm, onGrid_double]

theorem F64.round_mul_two_pow (n : Bool) (m k : Nat) (e : Int) :
    F64.round n (m * 2 ^ k) e = F64.round n m (e + k) := by
  induction k generalizing e with
  | zero => simp
  | succ k ih =>
    rw [pow_succ', Nat.mul_left_comm, F64.round_double, ih]
    congr 1; push_cast; ring

/-- Rounding depends on the number only. -/
theorem F64.round_congr (n : Bool) {m m' : Nat} {e f : Int} (h : (m : ℚ) * (2 : ℚ) ^ e = m' * (2 : ℚ) ^ f) :
    F64.round n m e = F64.round n m' f := by
  wlog hle : e ≤ f generalizing m m' e f
  · exact (this h.symm (by omega)).symm
  · have hm : m = m' * 2 ^ (f - e).toNat := by
      rw [← scale_down hle] at h
      exact_mod_cast mul_right_cancel₀ (by positivity) h
    rw [hm, F64.round_mul_two_pow]
    congr 1; omega

/-- A significand below 2^53 is rounded to the number it is. -/
theorem F64.round_exact (n : Bool) {m : Nat} {e : Int} (hm : m < 2 ^ 53) (hlo : F64.minExp ≤ e) (hhi : e < F64.maxExp) :
    ∃ m' e', F64.round n m e = .fin n m' e' ∧ (m' : ℚ) * 2 ^ e' = m * (2 : ℚ) ^ e := by
  by_cases hzero : m = 0
  · exact ⟨0, F64.minExp, by rw [hzero, F64.round_zero], by simp [hzero]⟩
  · have hlog : m.log2 < 53 := (Nat.log2_lt hzero).mpr hm
    have hgrid : gridExp m e ≤ e := by unfold gridExp; omega
    have hcases := F64.round_cases n m e hzero
    dsimp only at hcases
    rw [if_neg (by unfold F64.maxExp at hhi; omega)] at hcases
    obtain ⟨m', e', hround, hvalue, -⟩ := hcases
    refine ⟨m', e', hround, ?_⟩
    rw [hvalue, onGrid, if_pos hgrid, ← scale_down hgrid]
    push_cast; rfl

/-! ### The datum of v · 2^e -/

/-- RN(v · 2^e), a zero being +0.0. -/
def F64.dyadic (v e : Int) : F64 := .round (decide (v < 0)) v.natAbs e

theorem i2f_eq_dyadic (v : Int) : i2f v = .dyadic v 0 := rfl

@[simp] theorem F64.dyadic_zero (e : Int) : F64.dyadic 0 e = .zero false := F64.round_zero false e

theorem F64.neg_dyadic {v : Int} (hv : v ≠ 0) (e : Int) : (F64.dyadic v e).neg = .dyadic (-v) e := by
  have hsign : decide (-v < 0) = !decide (v < 0) := by
    rw [← decide_not, decide_eq_decide]; omega
  rw [F64.dyadic, F64.dyadic, hsign, Int.natAbs_neg, F64.round_not]

/-- The datum depends on the number only. -/
theorem F64.dyadic_congr {v w e f : Int} (h : (v : ℚ) * (2 : ℚ) ^ e = w * (2 : ℚ) ^ f) :
    F64.dyadic v e = .dyadic w f := by
  have hneg : ∀ u g : Int, (u : ℚ) * (2 : ℚ) ^ g < 0 ↔ u < 0 := fun u g => by
    have hpow : (0 : ℚ) < 2 ^ g := by positivity
    simp [mul_neg_iff, hpow, hpow.not_gt]
  have habs : ∀ u g : Int, |(u : ℚ) * (2 : ℚ) ^ g| = u.natAbs * (2 : ℚ) ^ g := fun u g => by
    rw [abs_mul, abs_of_pos (show (0 : ℚ) < 2 ^ g by positivity), Nat.cast_natAbs, Int.cast_abs]
  have hsign : v < 0 ↔ w < 0 := by rw [← hneg v e, h, hneg]
  simp only [F64.dyadic, hsign]
  exact F64.round_congr _ (by rw [← habs, h, habs])

theorem signedInt_natAbs (v : Int) : signedInt (decide (v < 0)) v.natAbs = v := by
  simp only [signedInt, decide_eq_true_eq]
  split <;> omega

theorem F64.value_fin (n : Bool) (m : Nat) (e : Int) : (F64.fin n m e).value = signedInt n m * (2 : ℚ) ^ e := by
  simpa using F64.value_on_grid (le_refl e) n m

/-- Below 2^53 units the datum is exact. -/
theorem F64.dyadic_exact {v e : Int} (hv : v.natAbs < 2 ^ 53) (hlo : F64.minExp ≤ e) (hhi : e < F64.maxExp) :
    ∃ m e', F64.dyadic v e = .fin (decide (v < 0)) m e' ∧
      (F64.fin (decide (v < 0)) m e').value = v * (2 : ℚ) ^ e := by
  obtain ⟨m, e', hround, hvalue⟩ := F64.round_exact (decide (v < 0)) hv hlo hhi
  refine ⟨m, e', hround, ?_⟩
  have hscale : (F64.fin (decide (v < 0)) m e').value = (F64.fin (decide (v < 0)) v.natAbs e).value := by
    rw [F64.value, F64.value, mul_assoc, mul_assoc, hvalue]
  rw [hscale, F64.value_fin, signedInt_natAbs]

section
variable {v w e : Int} (hlo : F64.minExp ≤ e) (hhi : e < F64.maxExp) (hv : v.natAbs < 2 ^ 53) (hw : w.natAbs < 2 ^ 53)
include hlo hhi hv

theorem F64.value_dyadic : (F64.dyadic v e).value = v * (2 : ℚ) ^ e := by
  obtain ⟨m, e', hdatum, hvalue⟩ := F64.dyadic_exact hv hlo hhi
  rw [hdatum, hvalue]

include hw

/-- Addition on one grid is addition of the integers, rounded once. -/
theorem fadd_dyadic : fadd (F64.dyadic v e) (F64.dyadic w e) = .dyadic (v + w) e := by
  obtain ⟨ma, ea, ha, hav⟩ := F64.dyadic_exact hv hlo hhi
  obtain ⟨mb, eb, hb, hbv⟩ := F64.dyadic_exact hw hlo hhi
  have hsum : (F64.fin (decide (v < 0)) ma ea).value + (F64.fin (decide (w < 0)) mb eb).value =
      ((v + w : Int) : ℚ) * (2 : ℚ) ^ e := by rw [hav, hbv]; push_cast; ring
  rw [F64.value_on_grid (min_le_left ea eb), F64.value_on_grid (min_le_right ea eb), ← add_mul, ← Int.cast_add] at hsum
  have hround := F64.dyadic_congr hsum
  rw [ha, hb, fadd, addFinite]
  split
  · next hzero =>
    have hvw : v + w = 0 := by
      rw [hzero, Int.cast_zero, zero_mul, eq_comm, mul_eq_zero] at hsum
      exact_mod_cast hsum.resolve_right (by positivity)
    have hsign : (decide (v < 0) && decide (w < 0)) = false := by
      rw [Bool.and_eq_false_iff, decide_eq_false_iff_not, decide_eq_false_iff_not]; omega
    rw [hvw, hsign, F64.dyadic_zero]
  · exact hround

theorem fsub_dyadic (hne : w ≠ 0) : fsub (F64.dyadic v e) (F64.dyadic w e) = .dyadic (v - w) e := by
  rw [fsub, F64.neg_dyadic hne, fadd_dyadic hlo hhi hv (by rwa [Int.natAbs_neg]), sub_eq_add_neg]

end

/-- A product with a positive power of two moves the exponent. -/
theorem fmul_dyadic_two_pow {v e : Int} (hlo : F64.minExp ≤ e) (hhi : e < F64.maxExp) (hv : v.natAbs < 2 ^ 53)
    (k : Nat) (f : Int) : fmul (F64.dyadic v e) (.fin false (2 ^ k) f) = .dyadic v (e + (f + k)) := by
  obtain ⟨m, e', hround, hvalue⟩ := F64.round_exact (decide (v < 0)) hv hlo hhi
  rw [F64.dyadic, hround, fmul, F64.round_mul_two_pow, Bool.bne_false]
  refine F64.round_congr _ ?_
  have htwo : (2 : ℚ) ≠ 0 := two_ne_zero
  rw [add_assoc, zpow_add₀ htwo, zpow_add₀ htwo e, ← mul_assoc, ← mul_assoc, hvalue]

/-! ### The centred draws (R220 to R222) -/

theorem oneHalf_eq_dyadic : oneHalf = .dyadic (2 ^ 30) (-31) := by decide

/-- The product with 2^−31 is exact (R221). -/
theorem uniformOf_eq_dyadic (d : Draw) : uniformOf d = .dyadic d.toNat (-31) := by
  have hunit : F64.ofBits 0x3E00000000000000 = .fin false (2 ^ 52) (-83) := by decide
  have hd := d.isLt
  rw [uniformOf, hunit, i2f_eq_dyadic, fmul_dyadic_two_pow (by decide) (by decide) (by omega)]
  rfl

theorem centred_eq_dyadic (d : Draw) : fsub (uniformOf d) oneHalf = .dyadic (d.toNat - 2 ^ 30) (-31) := by
  have hd := d.isLt
  rw [uniformOf_eq_dyadic, oneHalf_eq_dyadic, fsub_dyadic (by decide) (by decide) (by omega) (by decide) (by decide)]

/-- The centred sum in units of 2^−31: D − n · 2^30 for n draws (R222). -/
def centredUnits (ds : List Draw) : Int := (ds.map fun x => (x.toNat : Int)).sum - ds.length * 2 ^ 30

@[simp] theorem centredUnits_nil : centredUnits [] = 0 := rfl

theorem centredUnits_cons (d : Draw) (ds : List Draw) :
    centredUnits (d :: ds) = d.toNat - 2 ^ 30 + centredUnits ds := by
  simp only [centredUnits, List.map_cons, List.sum_cons, List.length_cons]
  push_cast; ring

/-- Each centred draw lies in [−2^30, 2^30 − 1]. -/
theorem centredUnits_bounds (ds : List Draw) :
    -(ds.length * 2 ^ 30 : Int) ≤ centredUnits ds ∧ centredUnits ds ≤ ds.length * (2 ^ 30 - 1) := by
  induction ds with
  | nil => simp
  | cons d ds ih =>
    have hd := d.isLt
    rw [centredUnits_cons, List.length_cons]
    push_cast
    omega

/-- From any sum on the grid, while no partial sum can reach 2^53 units, adding the draws is exact. -/
theorem foldl_centred_eq_dyadic (ds : List Draw) (v : Int) (h : v.natAbs + ds.length * 2 ^ 30 < 2 ^ 53) :
    ds.foldl (fun acc d => fadd acc (fsub (uniformOf d) oneHalf)) (F64.dyadic v (-31)) =
      .dyadic (v + centredUnits ds) (-31) := by
  induction ds generalizing v with
  | nil => simp
  | cons d ds ih =>
    have hd := d.isLt
    rw [List.length_cons] at h
    rw [List.foldl_cons, centred_eq_dyadic, fadd_dyadic (by decide) (by decide) (by omega) (by omega),
      ih _ (by omega), centredUnits_cons, add_assoc]

section
variable {ds : List Draw} (h : ds.length ≤ 10)
include h

theorem centredSum_eq_dyadic : centredSum ds = .dyadic (centredUnits ds) (-31) := by
  have hfold := foldl_centred_eq_dyadic ds 0 (by omega)
  rwa [F64.dyadic_zero, zero_add] at hfold

theorem centredSum_value : (centredSum ds).value = (centredUnits ds : ℚ) / 2 ^ 31 := by
  have hbounds := centredUnits_bounds ds
  rw [centredSum_eq_dyadic h, F64.value_dyadic (by decide) (by decide) (by omega), div_eq_mul_inv]
  rfl

end

/-- Settles O45: the sum is that of the integers on the grid of 2^−31, and the bounds are theirs. -/
theorem noiseSumIsExact : Obligations.NoiseSumIsExact := by
  intro ds hlength
  obtain ⟨hlower, hupper⟩ := centredUnits_bounds ds
  have hsum := centredSum_eq_dyadic hlength
  have hvalue := centredSum_value hlength
  refine ⟨hsum, hvalue, ?_, fun hten => ⟨?_, ?_, fun hzero => ?_⟩⟩
  · have hunits : (-10 * 2 ^ 30 : ℚ) ≤ centredUnits ds := by exact_mod_cast (show -10 * 2 ^ 30 ≤ centredUnits ds by omega)
    rw [hvalue]
    linarith
  · have hunits : (centredUnits ds : ℚ) ≤ 10 * (2 ^ 30 - 1) := by
      exact_mod_cast (show centredUnits ds ≤ 10 * (2 ^ 30 - 1) by omega)
    rw [hvalue]
    linarith
  · rw [noise, hsum]; rfl
  · have hunits : centredUnits ds = 0 := hzero
    rw [noise, hsum, hunits, F64.dyadic_zero]
    decide

end Sys2Proof.Machine

/-!
PROOFS. The impairment model (R240 to R251). Multiplying by a power of two is exact and undoes dividing by its inverse,
so a normalised value is a/2^K, held as the datum of an integer on the grid of 2^−K. Such a datum is no −0.0
(`F64.IsNormalised`), and so every stage with neutral parameters, which multiplies by 1.0 and adds zeros of either sign,
gives it back. Truncation is compared with the integer part toward zero of the rational value (`towardZero`).
-/

namespace Sys2Proof.Machine

open Sys2Proof.Claims

/-! ### Powers of two (R240) -/

theorem twoPow_eq_fin {p : Int} (hlo : -1022 ≤ p) (hhi : p ≤ 1023) : twoPow p = .fin false (2 ^ 52) (p - 52) := by
  have hcanonical : (F64.fin false (2 ^ 52) (p - 52)).canonical = true :=
    (F64.canonical_fin_iff _ _ _).mpr
      ⟨by norm_num, by unfold F64.minExp; omega, by unfold F64.maxExp; omega, .inl le_rfl⟩
  have hscale := F64.round_mul_two_pow false 1 52 (p - 52)
  rw [one_mul, F64.round_of_canonical _ _ _ hcanonical] at hscale
  rw [hscale, twoPow]
  congr 1; omega

theorem i2f_two_pow (k : Nat) : i2f (2 ^ k) = twoPow k := by
  have hnatAbs : ((2 : Int) ^ k).natAbs = 1 * 2 ^ k := by rw [Int.natAbs_pow, one_mul]; rfl
  have hsign : ¬ (2 : Int) ^ k < 0 := (pow_pos two_pos k).not_gt
  rw [i2f, hnatAbs, decide_eq_false hsign, F64.round_mul_two_pow, zero_add, twoPow]

/-- Dividing any datum by a power of two is multiplying it by the inverse, the last bit of the wide quotient never
set. -/
theorem fdiv_twoPow {p : Int} (hlo : -1022 ≤ p) (hhi : p ≤ 1022) (x : F64) :
    fdiv x (twoPow p) = fmul x (twoPow (-p)) := by
  rw [twoPow_eq_fin hlo (by omega), twoPow_eq_fin (by omega) (by omega)]
  rcases x with _ | n | ⟨n, m, e⟩
  · rfl
  · rfl
  · have hwide : m * 2 ^ 110 = m * 2 ^ 58 * 2 ^ 52 := by ring
    have hquotient : 2 * (m * 2 ^ 58) + 0 = m * 2 ^ 59 := by ring
    rw [fdiv, if_neg (by norm_num), divFinite, hwide, Nat.mul_mod_left, if_pos rfl,
      Nat.mul_div_cancel _ (by norm_num), hquotient, fmul, F64.round_mul_two_pow, F64.round_mul_two_pow]
    congr 1; push_cast; ring

/-! ### Normalisation (R240) -/

/-- The normalised value is the integer on the grid of 2^−K. -/
theorem normalise_eq_dyadic (k : BitVec 5) (a : Word) : normalise k a = .dyadic a.toInt (-k.toNat) := by
  have ha := a.toInt_lt
  have ha' := a.le_toInt
  have hk := k.isLt
  rw [normalise, i2f_eq_dyadic, twoPow_eq_fin (by omega) (by omega),
    fmul_dyadic_two_pow (by decide) (by decide) (by omega)]
  congr 1; omega

/-- Settles O46: the value is that of the integer on the grid of 2^−K, which the division by 2^K gives as well. -/
theorem normalisationIsExact : Obligations.NormalisationIsExact := by
  intro k a
  have ha := a.toInt_lt
  have ha' := a.le_toInt
  have hk := k.isLt
  obtain ⟨m, e, hdatum, hvalue⟩ := F64.dyadic_exact (v := a.toInt) (e := -k.toNat) (by omega)
    (by unfold F64.minExp; omega) (by unfold F64.maxExp; omega)
  rw [← hdatum, ← normalise_eq_dyadic] at hvalue
  refine ⟨by rw [normalise_eq_dyadic, hdatum]; rfl, ?_, rfl, ?_, fun hzero => ?_⟩
  · rw [hvalue, zpow_neg, zpow_natCast, div_eq_mul_inv]
  · rw [i2f_two_pow, fdiv_twoPow (by omega) (by omega), normalise]
  · rw [normalise_eq_dyadic, hzero]
    exact F64.dyadic_zero _

/-! ### Arithmetic with 1.0 and with zeros (R15) -/

theorem fadd_comm (a b : F64) : fadd a b = fadd b a := by
  rcases a with _ | na | ⟨na, ma, ea⟩ <;> rcases b with _ | nb | ⟨nb, mb, eb⟩
  case inf.inf => cases na <;> cases nb <;> rfl
  case fin.fin => simp only [fadd, addFinite, min_comm, add_comm, Bool.and_comm]
  all_goals rfl

theorem F64.one_eq_fin : F64.one = .fin false (2 ^ 52) (-52) := by decide

theorem fmul_one {x : F64} (h : x.canonical = true) : fmul x .one = x := by
  rw [F64.one_eq_fin]
  rcases x with _ | n | ⟨n, m, e⟩
  · rfl
  · simp [fmul]
  · rw [fmul, Bool.bne_false, F64.round_mul_two_pow, ← F64.round_of_canonical n m e h]
    congr 1; omega

section
variable {x : F64} (h : x.isFinite = true)
include h

theorem fmul_zero_of_isFinite (b : Bool) : ∃ b', fmul x (.zero b) = .zero b' := by
  rcases x with _ | n | ⟨n, m, e⟩
  · cases h
  · cases h
  · exact ⟨n != b, F64.round_zero _ _⟩

theorem zero_fmul_of_isFinite (b : Bool) : ∃ b', fmul (.zero b) x = .zero b' := by
  rcases x with _ | n | ⟨n, m, e⟩
  · cases h
  · cases h
  · exact ⟨b != n, by rw [F64.zero, fmul, zero_mul, F64.round_zero, F64.zero]⟩

end

/-- A finite binary64 number that is no −0.0: what a normalised value is (R240), and what adding a zero of either sign
gives back. -/
structure F64.IsNormalised (x : F64) : Prop where
  finite : x.isFinite = true
  canonical : x.canonical = true
  ne_negZero : x ≠ .zero true

theorem normalise_isNormalised (k : BitVec 5) (a : Word) : (normalise k a).IsNormalised := by
  obtain ⟨hfinite, hvalue, -, -, hzero⟩ := normalisationIsExact k a
  refine ⟨hfinite, fmul_canonical _ _, fun hneg => ?_⟩
  have ha : a = 0 := by
    have hquotient : (a.toInt : ℚ) / 2 ^ k.toNat = 0 := by
      rw [← hvalue, hneg]; exact (F64.value_eq_zero_iff _ _ _).mpr rfl
    exact BitVec.eq_of_toInt_eq (by simpa using hquotient)
  rw [hzero ha] at hneg
  exact absurd hneg (by decide)

theorem F64.round_signedInt (n : Bool) {m : Nat} (hm : m ≠ 0) (e : Int) :
    F64.round (decide (signedInt n m < 0)) (signedInt n m).natAbs e = F64.round n m e := by
  have hsign : signedInt n m < 0 ↔ n = true := by
    cases n <;> simp [signedInt, Nat.pos_of_ne_zero hm, (Int.natCast_nonneg m).not_gt]
  have hnatAbs : (signedInt n m).natAbs = m := by cases n <;> simp [signedInt]
  simp only [hsign, hnatAbs, Bool.decide_eq_true]

section
variable {x : F64} (h : x.IsNormalised)
include h

theorem F64.IsNormalised.fadd_zero (b : Bool) : fadd x (.zero b) = x := by
  obtain ⟨hfinite, hcanonical, hne⟩ := h
  rcases x with _ | n | ⟨n, m, e⟩
  · cases hfinite
  · cases hfinite
  obtain ⟨-, hlo, -, hbits⟩ := (F64.canonical_fin_iff n m e).mp hcanonical
  by_cases hm : m = 0
  · have he : e = F64.minExp := hbits.resolve_left (by omega)
    subst hm he
    cases n
    · cases b <;> rfl
    · exact absurd rfl hne
  · have hscaled : m * 2 ^ (e - F64.minExp).toNat ≠ 0 := by positivity
    have hzero : signedInt b 0 = 0 := by cases b <;> rfl
    have hsum : signedInt n (m * 2 ^ (e - F64.minExp).toNat) ≠ 0 := by
      cases n <;> simpa [signedInt] using hm
    rw [F64.zero, fadd, addFinite]
    simp only [min_eq_right hlo, zero_mul, hzero, add_zero]
    rw [if_neg hsum, F64.round_signedInt n hscaled, F64.round_mul_two_pow]
    calc F64.round n m (F64.minExp + ((e - F64.minExp).toNat : Int))
        = F64.round n m e := by congr 1; omega
      _ = .fin n m e := F64.round_of_canonical n m e hcanonical

theorem F64.IsNormalised.zero_fadd (b : Bool) : fadd (.zero b) x = x := by rw [fadd_comm, h.fadd_zero]

theorem F64.IsNormalised.fsub_zero (b : Bool) : fsub x (.zero b) = x := h.fadd_zero (!b)

end

/-! ### The noise is finite (R222, R223) -/

theorem fmul_isFinite {a b : F64} (ha : a.isFinite = true) (hb : b.isFinite = true)
    (h : |a.value * b.value| < overflowThreshold) : (fmul a b).isFinite = true := by
  rcases a with _ | na | ⟨na, ma, ea⟩
  · cases ha
  · cases ha
  rcases b with _ | nb | ⟨nb, mb, eb⟩
  · cases hb
  · cases hb
  have hrounds := fmul_fin_rounds na nb ma mb ea eb
  dsimp only at hrounds
  split at hrounds
  · rw [hrounds]; rfl
  · rw [IsRN, if_neg h.not_ge] at hrounds
    obtain ⟨m, e, hfin, -⟩ := hrounds
    rw [hfin]; rfl

theorem two_pow_53_lt_overflowThreshold : 2 ^ 53 < overflowThreshold :=
  calc (2 ^ 53 : ℚ)
      < 2 ^ 54 - 1 := by norm_num
    _ ≤ overflowThreshold := le_mul_of_one_le_right (by norm_num) (one_le_pow₀ one_le_two)

/-- The centred sum is within ±5, and NOISE_K below 2. -/
theorem noise_isFinite {ds : List Draw} (h : ds.length ≤ 10) : (noise ds).isFinite = true := by
  obtain ⟨hlower, hupper⟩ := centredUnits_bounds ds
  have hsum : (centredSum ds).isFinite = true := by
    obtain ⟨m, e, hdatum, -⟩ := F64.dyadic_exact (v := centredUnits ds) (e := -31) (by omega) (by decide) (by decide)
    rw [centredSum_eq_dyadic h, hdatum]; rfl
  have hbound : |(centredSum ds).value| ≤ 5 := by
    have hunits : |(centredUnits ds : ℚ)| ≤ 5 * 2 ^ 31 := by
      exact_mod_cast (show |centredUnits ds| ≤ 5 * 2 ^ 31 by rw [abs_le]; omega)
    rw [centredSum_value h, abs_div, abs_of_pos (show (0 : ℚ) < 2 ^ 31 by positivity)]
    exact (div_le_iff₀ (by positivity)).mpr hunits
  have hnoiseK : F64.ofBits Config.noiseK = .fin false 4933446211765362 (-52) := by decide
  have hfactor : |(F64.ofBits Config.noiseK).value| ≤ 2 := by rw [hnoiseK]; norm_num [F64.value]
  refine fmul_isFinite hsum (by rw [hnoiseK]; rfl) ?_
  calc |(centredSum ds).value * (F64.ofBits Config.noiseK).value|
      = |(centredSum ds).value| * |(F64.ofBits Config.noiseK).value| := abs_mul _ _
    _ ≤ 5 * 2 := mul_le_mul hbound hfactor (abs_nonneg _) (by norm_num)
    _ < overflowThreshold := lt_trans (by norm_num) two_pow_53_lt_overflowThreshold

/-- With SNR_SCALE = 0 both scaled noise values are zeros, of a sign that the draws decide (R242). -/
theorem State.nextNoise_of_snrScale_zero {s : State} (h : s.snrScale = 0) :
    ∃ b b', s.nextNoise = ⟨.zero b, .zero b'⟩ := by
  have hscale : i2f s.snrScale.toInt = .zero false := by rw [h]; rfl
  have hzero : ∀ ds : List Draw, ∃ b, fmul (i2f s.snrScale.toInt) (noise (ds.take Config.noiseDraws)) = .zero b :=
    fun ds => hscale ▸ zero_fmul_of_isFinite (noise_isFinite (List.length_take_le _ _)) false
  obtain ⟨b, hi⟩ := hzero (s.draws.drop (symbolDraws s.sampleCount))
  obtain ⟨b', hq⟩ := hzero ((s.draws.drop (symbolDraws s.sampleCount)).drop Config.noiseDraws)
  exact ⟨b, b', congrArg₂ IQ.mk hi hq⟩

/-! ### Each stage with its neutral parameters (R251) -/

section
variable {x : IQ F64} (hi : x.i.IsNormalised) (hq : x.q.IsNormalised)
include hi hq

theorem rotate_neutral : rotate .one (.zero false) x = x := by
  obtain ⟨b, hiz⟩ := fmul_zero_of_isFinite hi.finite false
  obtain ⟨b', hqz⟩ := fmul_zero_of_isFinite hq.finite false
  rw [rotate, fmul_one hi.canonical, fmul_one hq.canonical, hiz, hqz, hi.fsub_zero, hq.zero_fadd]

theorem addPair_zeros (b b' : Bool) : addPair x ⟨.zero b, .zero b'⟩ = x :=
  congrArg₂ IQ.mk (hi.fadd_zero b) (hq.fadd_zero b')

theorem phaseImbalance_neutral : phaseImbalance .one (.zero false) x = x := by
  obtain ⟨b, hiz⟩ := fmul_zero_of_isFinite hi.finite false
  obtain ⟨b', hqz⟩ := fmul_zero_of_isFinite hq.finite false
  rw [phaseImbalance, fmul_one hi.canonical, fmul_one hq.canonical, hiz, hqz, hi.fadd_zero, hq.zero_fadd]

theorem gainImbalance_neutral : gainImbalance (.zero false) x = x := by
  have hone : F64.one.IsNormalised := ⟨by decide, by decide, by decide⟩
  rw [gainImbalance, hone.fadd_zero, hone.fsub_zero, fmul_one hi.canonical, fmul_one hq.canonical]

/-- R251: stage by stage, whatever the draws. -/
theorem impair_neutral {s : State} (h : Neutral s) : impair s x s.nextNoise = x := by
  have hzero : F64.ofBits 0 = .zero false := by decide
  have hone : F64.ofBits 0x3FF0000000000000 = .one := rfl
  obtain ⟨hdcI, hdcQ, hgain, hsinPhi, hsinTheta, hcosPhi, hcosTheta, hsnr⟩ := h
  obtain ⟨b, b', hnoise⟩ := State.nextNoise_of_snrScale_zero hsnr
  rw [impair, hdcI, hdcQ, hgain, hsinPhi, hsinTheta, hcosPhi, hcosTheta, hnoise, hzero, hone,
    rotate_neutral hi hq, addPair_zeros hi hq, addPair_zeros hi hq, phaseImbalance_neutral hi hq,
    gainImbalance_neutral hi hq]

end

theorem State.drawsNeeded_eq (s : State) : s.drawsNeeded = if s.sampleCount.toNat % 256 = 0 then 22 else 20 := by
  simp only [State.drawsNeeded, symbolDraws, decisionInstant_iff]
  split <;> rfl

/-- Settles O47: a normalised pair passes every neutral stage, and the draws are counted in any case. -/
theorem neutralParametersGiveTheIdentity : Obligations.NeutralParametersGiveTheIdentity := by
  intro s h
  have hidentity : ∀ a : IQ Word, impair s (a.map (normalise s.k)) s.nextNoise = a.map (normalise s.k) := fun a =>
    impair_neutral (normalise_isNormalised _ a.i) (normalise_isNormalised _ a.q) h
  refine ⟨hidentity, congrArg (IQ.map f2i) (hidentity (s.sampleValues.matched.map FirResult.y)), ?_⟩
  rw [State.sampleStep, State.commitSample_drawCount, State.drawsNeeded_eq]
  split <;> rfl

/-! ### Truncation (R250) -/

/-- The integer part of a number, toward zero. -/
def towardZero (v : ℚ) : Int := if 0 ≤ v then ⌊v⌋ else ⌈v⌉

theorem towardZero_of_nonneg {v : ℚ} (h : 0 ≤ v) : towardZero v = ⌊v⌋ := if_pos h

theorem towardZero_neg (v : ℚ) : towardZero (-v) = -towardZero v := by
  rcases lt_trichotomy v 0 with hneg | rfl | hpos
  · rw [towardZero, towardZero, if_pos (by linarith), if_neg hneg.not_ge, Int.floor_neg]
  · simp [towardZero]
  · rw [towardZero, towardZero, if_neg (by linarith), if_pos hpos.le, Int.ceil_neg]

theorem floor_eq_truncMagnitude (m : Nat) (e : Int) : ⌊(m : ℚ) * (2 : ℚ) ^ e⌋ = truncMagnitude m e := by
  rw [truncMagnitude]
  split
  · next hint =>
    have hvalue : (m : ℚ) * (2 : ℚ) ^ e = ((m * 2 ^ e.toNat : Nat) : ℚ) := by
      rw [← scale_down hint]; simp
    rw [hvalue, Int.floor_natCast]
  · next hfrac =>
    have hvalue : (m : ℚ) * (2 : ℚ) ^ e = (m : ℚ) / ((2 ^ (-e).toNat : Nat) : ℚ) := by
      have hexp : e = -((-e).toNat : Int) := by omega
      conv_lhs => rw [hexp, zpow_neg, zpow_natCast]
      push_cast
      exact (div_eq_mul_inv _ _).symm
    rw [hvalue, Rat.floor_natCast_div_natCast, Int.natCast_ediv]

theorem towardZero_value (n : Bool) (m : Nat) (e : Int) :
    towardZero (F64.fin n m e).value = signedInt n (truncMagnitude m e) := by
  have hmagnitude : towardZero ((m : ℚ) * (2 : ℚ) ^ e) = truncMagnitude m e := by
    rw [towardZero_of_nonneg (by positivity), floor_eq_truncMagnitude]
  cases n
  · simpa [F64.value, signedInt] using hmagnitude
  · simpa [F64.value, signedInt, towardZero_neg] using hmagnitude

theorem f2i_fin (n : Bool) (m : Nat) (e : Int) : f2i (.fin n m e) = saturate (towardZero (F64.fin n m e).value) := by
  rw [towardZero_value, f2i]

theorem saturate_of_gt {t : Int} (h : 2147483647 < t) : saturate t = ⟨0x7FFFFFFF, true⟩ := if_pos h

theorem saturate_of_lt {t : Int} (h : t < -2147483648) : saturate t = ⟨0x80000000, true⟩ := by
  rw [saturate, if_neg (by unfold int32Max; omega), if_pos h]
  rfl

theorem saturate_of_mem {t : Int} (hlo : -2147483648 ≤ t) (hhi : t ≤ 2147483647) :
    (saturate t).sat = false ∧ (saturate t).value.toInt = t := by
  rw [saturate, if_neg hhi.not_gt, if_neg hlo.not_gt]
  exact ⟨rfl, (wrap32_toInt t).trans (Int.bmod_eq_of_le (by omega) (by omega))⟩

/-- Settles O48: F2I saturates the integer part toward zero, and the sample step collects the channels' flags. -/
theorem truncationSaturates : Obligations.TruncationSaturates := by
  refine ⟨f2i_nan, rfl, rfl, fun n m e => ?_, fun s => ⟨rfl, ?_⟩⟩
  · rw [f2i_fin]
    exact ⟨saturate_of_gt, saturate_of_lt, saturate_of_mem⟩
  · rw [State.sampleStep, State.commitSample_errSat, Bool.or_assoc]
    rfl

end Sys2Proof.Machine

/-!
PROOFS. The resampler's bank, quantisation and the output words (R270 to R279). Both coefficient vectors are runs of
words of the coefficient memories. The binary64 quotient b/2048 is the normalised value with K = 11, which is exact, and
its integer part toward zero (`towardZero`) is the integer quotient.
-/

namespace Sys2Proof.Machine

open Sys2Proof.Claims

/-! ### The coefficient vectors (R188, R270) -/

/-- Bank B starts at entry 9·B of RS (R82). -/
theorem bankAddr_eq (b : BitVec 7) : bankAddr b = 0x4000 + 4 * (9 * b.toNat) := by
  unfold bankAddr Config.rsBase; omega

/-- Settles O40: the entries are those that the vectors' words are read from, and DELAY_INDEX has 7 bits. -/
theorem filterCoefficients : Obligations.FilterCoefficients := by
  intro s
  have hindex := s.delayIndex.isLt
  refine ⟨s.mfCoefs_length, fun k hk => ?_, s.rsBank_length, fun t ht => ?_, by omega⟩
  · rw [← s.mfCoefs_length] at hk
    rw [List.getD_eq_getElem _ _ hk, s.mfCoefs_getElem k hk]
  · rw [← s.rsBank_length] at ht
    rw [List.getD_eq_getElem _ _ ht, s.rsBank_getElem t ht, bankAddr_eq, Nat.add_assoc, ← Nat.mul_add]

/-! ### Division toward zero (R14, R277) -/

/-- A quotient is its sign times its magnitude, and it is 0 where the dividend is the smaller in magnitude. -/
theorem truncDiv_eq_tdiv (a b : Int) : truncDiv a b = a.tdiv b := by
  have hmagnitude : (a.tdiv b).natAbs = a.natAbs / b.natAbs := Int.natAbs_tdiv a b
  rw [truncDiv, ← Int.sign_mul_natAbs (a.tdiv b), hmagnitude, Int.sign_tdiv]
  split
  · next hlt => rw [Nat.div_eq_of_lt hlt, Nat.cast_zero, mul_zero, mul_zero]
  · rfl

theorem towardZero_div_natCast (a : Int) (n : Nat) : towardZero ((a : ℚ) / n) = a.tdiv n := by
  have hnonneg : ∀ c : Int, 0 ≤ c → towardZero ((c : ℚ) / n) = c.tdiv n := fun c hc => by
    have hquotient : (0 : ℚ) ≤ (c : ℚ) / n := div_nonneg (by exact_mod_cast hc) n.cast_nonneg
    rw [towardZero_of_nonneg hquotient, Rat.floor_intCast_div_natCast, Int.tdiv_eq_ediv_of_nonneg hc]
  rcases le_total 0 a with ha | ha
  · exact hnonneg a ha
  · have hneg := hnonneg (-a) (by omega)
    rwa [Int.cast_neg, neg_div, towardZero_neg, Int.neg_tdiv, neg_inj] at hneg

theorem word_tdiv_bounds (b : Word) : -2 ^ 20 ≤ b.toInt.tdiv 2048 ∧ b.toInt.tdiv 2048 ≤ 2 ^ 20 - 1 := by
  have hlower := b.le_toInt
  have hupper := b.toInt_lt
  have hsign : (2048 : Int).sign = 1 := rfl
  rw [Int.tdiv_eq_ediv, hsign]
  split <;> omega

/-! ### The quantised value and its output word (R277, R279) -/

theorem quantise_eq (b : Word) : quantise b = BitVec.ofInt 32 (b.toInt.tdiv 2048) := by
  rw [quantise, truncDiv_eq_tdiv]

theorem quantise_toInt (b : Word) : (quantise b).toInt = b.toInt.tdiv 2048 := by
  obtain ⟨hlower, hupper⟩ := word_tdiv_bounds b
  rw [quantise_eq]
  exact (wrap32_toInt _).trans (Int.bmod_eq_of_le (by omega) (by omega))

theorem outputWord_toInt {y : Word} (hlower : -2 ^ 20 ≤ y.toInt) (hupper : y.toInt ≤ 2 ^ 20 - 1) :
    (outputWord y).toInt = 16 * y.toInt :=
  (wrap32_toInt _).trans (Int.bmod_eq_of_le (by omega) (by omega))

/-- A finite number is truncated to the word of its integer part, where that has one. -/
theorem f2i_value_toInt {x : F64} (hfinite : x.isFinite = true) (hlower : -2147483648 ≤ towardZero x.value)
    (hupper : towardZero x.value ≤ 2147483647) : (f2i x).value.toInt = towardZero x.value := by
  rcases x with _ | n | ⟨n, m, e⟩
  · cases hfinite
  · cases hfinite
  · rw [f2i_fin]
    exact (saturate_of_mem hlower hupper).2

/-- Dividing in binary64 and truncating gives the integer quotient: the division is exact. -/
theorem f2i_fdiv_eq_quantise (b : Word) : (f2i (fdiv (i2f b.toInt) (i2f 2048))).value = quantise b := by
  obtain ⟨hlower, hupper⟩ := word_tdiv_bounds b
  obtain ⟨hfinite, hvalue, -, hdivision, -⟩ := normalisationIsExact 11 b
  have hpart : towardZero (normalise 11 b).value = b.toInt.tdiv 2048 := by
    rw [hvalue]
    exact_mod_cast towardZero_div_natCast b.toInt 2048
  have hdivision2048 : fdiv (i2f b.toInt) (i2f 2048) = normalise 11 b := hdivision.symm
  rw [hdivision2048]
  refine BitVec.eq_of_toInt_eq ?_
  rw [f2i_value_toInt hfinite (by omega) (by omega), hpart, quantise_toInt]

/-- Settles O41: the quotient by 2048 fits in 21 bits, so 16 times it is no wrapped product either. -/
theorem quantisedOutput : Obligations.QuantisedOutput := by
  refine ⟨fun b => ?_, fun s => ⟨s.commitSample_outLastI _, s.commitSample_outLastQ _, s.commitSample_fifo _⟩⟩
  have hquotient := quantise_toInt b
  obtain ⟨hlower, hupper⟩ := word_tdiv_bounds b
  rw [← hquotient] at hlower hupper
  exact ⟨hquotient, hlower, hupper, f2i_fdiv_eq_quantise b, outputWord_toInt hlower hupper⟩

end Sys2Proof.Machine

/-!
PROOFS. The power accumulators and the SNR ratio (R290 to R293). A pattern from +0.0 to +infinity, read as an integer,
is the place of its datum in the order of the binary64 values (`F64.rank`), so an accumulator that must not decrease is
a rank that must not. Rounding to nearest never crosses a binary64 number: from x ≥ c it gives at least c. Hence adding
a non-negative datum never lowers the rank, which serves both accumulators and the denominator of the ratio.
-/

namespace Sys2Proof.Machine

open Sys2Proof.Claims

/-! ### The order of the data from +0.0 to +infinity (R114, R292) -/

/-- A datum from +0.0 to +infinity: no NaN, and no −0.0 either. -/
def F64.nonNegative : F64 → Bool
  | .nan => false
  | .inf n => !n
  | .fin n _ _ => !n

/-- The pattern of a canonical non-negative datum, read as an integer (`toNat_eq_rank`). -/
def F64.rank : F64 → Nat
  | .nan => 0
  | .inf _ => 0x7FF0000000000000
  | .fin _ m e => (e - F64.minExp).toNat * 2 ^ 52 + m

theorem toNat_patternOf (n : Bool) (b : BitVec 11) (f : BitVec 52) :
    (patternOf n b f).toNat = n.toNat * 2 ^ 63 + b.toNat * 2 ^ 52 + f.toNat := by
  have hhigh : (BitVec.ofBool n ++ b).toNat = n.toNat * 2 ^ 11 + b.toNat := by
    rw [BitVec.toNat_append, ← Nat.shiftLeft_add_eq_or_of_lt b.isLt, Nat.shiftLeft_eq, BitVec.toNat_ofBool]
  rw [patternOf, BitVec.toNat_append, ← Nat.shiftLeft_add_eq_or_of_lt f.isLt, Nat.shiftLeft_eq, hhigh]
  ring

/-- The patterns up to that of +infinity are those of the non-negative data. -/
theorem nonNegativePattern_iff (p : Pattern) : NonNegativePattern p ↔ (F64.ofBits p).nonNegative = true := by
  rw [← patternOf_fields p]
  generalize p.msb = n, p.extractLsb' 52 11 = b, p.extractLsb' 0 52 = f
  have hb := b.isLt
  have hf := f.isLt
  rw [NonNegativePattern, toNat_patternOf, F64.ofBits_patternOf]
  cases n with
  | false =>
    rw [Bool.toNat_false]
    split_ifs with htop hzero hbottom
    · exact iff_of_true (by omega) rfl
    · exact iff_of_false (by omega) Bool.false_ne_true
    · exact iff_of_true (by omega) rfl
    · exact iff_of_true (by omega) rfl
  | true =>
    rw [Bool.toNat_true]
    refine iff_of_false (by omega) ?_
    split_ifs <;> exact Bool.false_ne_true

theorem toNat_eq_rank {p : Pattern} (h : (F64.ofBits p).nonNegative = true) : p.toNat = (F64.ofBits p).rank := by
  rw [← patternOf_fields p] at h ⊢
  generalize p.msb = n, p.extractLsb' 52 11 = b, p.extractLsb' 0 52 = f at h ⊢
  rw [F64.ofBits_patternOf] at h ⊢
  rw [toNat_patternOf]
  split_ifs at h ⊢ with htop hzero hbottom
  · obtain rfl : n = false := by simpa [F64.nonNegative] using h
    rw [htop, hzero]; rfl
  · cases h
  · obtain rfl : n = false := by simpa [F64.nonNegative] using h
    rw [hbottom]; rfl
  · obtain rfl : n = false := by simpa [F64.nonNegative] using h
    simp only [F64.rank, F64.minExp, Bool.toNat_false]
    omega

/-- Of two canonical numbers the one with the greater exponent is the greater, and so is its rank. -/
theorem rank_and_magnitude_lt_of_exp_lt {n n' : Bool} {m m' : Nat} {e e' : Int} (h : (F64.fin n m e).canonical = true)
    (h' : (F64.fin n' m' e').canonical = true) (hexp : e < e') :
    (F64.fin n m e).rank < (F64.fin n' m' e').rank ∧ (m : ℚ) * (2 : ℚ) ^ e < m' * (2 : ℚ) ^ e' := by
  obtain ⟨hm, hlo, -, -⟩ := (F64.canonical_fin_iff n m e).mp h
  obtain ⟨-, -, -, hbits⟩ := (F64.canonical_fin_iff n' m' e').mp h'
  have hm' : 2 ^ 52 ≤ m' := hbits.resolve_right (by omega)
  refine ⟨by simp only [F64.rank]; omega, ?_⟩
  calc (m : ℚ) * (2 : ℚ) ^ e < 2 ^ 53 * (2 : ℚ) ^ e := mul_lt_mul_of_pos_right (by exact_mod_cast hm) (by positivity)
    _ = 2 ^ 52 * (2 : ℚ) ^ (e + 1) := by rw [zpow_add_one₀ (by norm_num)]; ring
    _ ≤ m' * (2 : ℚ) ^ e' :=
      mul_le_mul (by exact_mod_cast hm') (zpow_le_zpow_right₀ (by norm_num) (by omega)) (by positivity) (by positivity)

theorem F64.value_fin_false (m : Nat) (e : Int) : (F64.fin false m e).value = m * (2 : ℚ) ^ e := by simp [F64.value]

theorem F64.value_zero (n : Bool) : (F64.zero n).value = 0 := (F64.value_eq_zero_iff _ _ _).mpr rfl

/-- Patterns of non-negative numbers are ordered as the numbers are. -/
theorem rank_le_rank_iff {m m' : Nat} {e e' : Int} (h : (F64.fin false m e).canonical = true)
    (h' : (F64.fin false m' e').canonical = true) :
    (F64.fin false m e).rank ≤ (F64.fin false m' e').rank ↔
      (F64.fin false m e).value ≤ (F64.fin false m' e').value := by
  rw [F64.value_fin_false, F64.value_fin_false]
  rcases lt_trichotomy e e' with hlt | rfl | hgt
  · obtain ⟨hrank, hvalue⟩ := rank_and_magnitude_lt_of_exp_lt h h' hlt
    exact iff_of_true hrank.le hvalue.le
  · rw [mul_le_mul_iff_of_pos_right (by positivity), Nat.cast_le]
    exact Nat.add_le_add_iff_left
  · obtain ⟨hrank, hvalue⟩ := rank_and_magnitude_lt_of_exp_lt h' h hgt
    exact iff_of_false hrank.not_ge hvalue.not_ge

/-- No finite number has a greater pattern than +infinity. -/
theorem rank_lt_rank_inf {n : Bool} {m : Nat} {e : Int} (h : (F64.fin n m e).canonical = true) (n' : Bool) :
    (F64.fin n m e).rank < (F64.inf n').rank := by
  obtain ⟨hm, hlo, hhi, -⟩ := (F64.canonical_fin_iff n m e).mp h
  simp only [F64.rank, F64.minExp, F64.maxExp] at *
  omega

/-! ### Rounding never crosses a number (R15) -/

/-- What rounds to a number is no smaller than a given one does not round below that one. -/
theorem IsRN.le_value {x : ℚ} {c r : F64} (h : IsRN x r) (hfin : c.isFinite = true) (hcan : c.canonical = true)
    (hc : c.value ≤ x) (hr : r.isFinite = true) : c.value ≤ r.value := by
  rw [IsRN] at h
  split at h
  · rw [h] at hr; cases hr
  · obtain ⟨m, e, -, -, hnearest⟩ := h
    have hnear := (hnearest c hfin hcan).1
    rw [abs_sub_comm c.value, abs_of_nonneg (sub_nonneg.mpr hc)] at hnear
    linarith [neg_le_of_abs_le hnear]

/-- Zero is a number, so rounding at most doubles the magnitude. -/
theorem IsRN.abs_value_le {x : ℚ} {r : F64} (h : IsRN x r) : |r.value| ≤ 2 * |x| := by
  rw [IsRN] at h
  split at h
  · rw [h]; simp [F64.value]
  · obtain ⟨m, e, -, -, hnearest⟩ := h
    have hnear := (hnearest (.zero false) rfl (F64.zero_canonical false)).1
    rw [F64.value_zero, zero_sub, abs_neg] at hnear
    have htriangle := abs_add_le (r.value - x) x
    rw [sub_add_cancel] at htriangle
    linarith

theorem IsRN.cases_of_pos {x : ℚ} {r : F64} (h : IsRN x r) (hx : 0 < x) :
    r = .inf false ∨ ∃ m e, r = .fin false m e := by
  have hsign : decide (x < 0) = false := decide_eq_false hx.not_gt
  rw [IsRN, hsign] at h
  split at h
  · exact .inl h
  · obtain ⟨m, e, hr, -⟩ := h
    exact .inr ⟨m, e, hr⟩

/-! ### Sums, products and squares of non-negative data -/

theorem F64.nonNegative_cases {x : F64} (h : x.nonNegative = true) : x = .inf false ∨ ∃ m e, x = .fin false m e := by
  rcases x with _ | n | ⟨n, m, e⟩ <;> simp_all [F64.nonNegative]

theorem F64.nonNegative_round (m : Nat) (e : Int) : (F64.round false m e).nonNegative = true := by
  simp only [F64.round]
  split_ifs <;> rfl

/-- Adding a non-negative datum to a non-negative one gives a non-negative one that is not the smaller. -/
theorem nonNegative_fadd {a b : F64} (ha : a.nonNegative = true) (hb : b.nonNegative = true)
    (hcan : a.canonical = true) :
    (fadd a b).nonNegative = true ∧ a.rank ≤ (fadd a b).rank := by
  rcases F64.nonNegative_cases ha with rfl | ⟨m, e, rfl⟩
  · rcases F64.nonNegative_cases hb with rfl | ⟨m', e', rfl⟩ <;> exact ⟨rfl, le_rfl⟩
  rcases F64.nonNegative_cases hb with rfl | ⟨m', e', rfl⟩
  · exact ⟨rfl, (rank_lt_rank_inf hcan false).le⟩
  have hva : 0 ≤ (F64.fin false m e).value := by rw [F64.value_fin_false]; positivity
  have hvb : 0 ≤ (F64.fin false m' e').value := by rw [F64.value_fin_false]; positivity
  have hsumcan := fadd_canonical (.fin false m e) (.fin false m' e')
  have hrounds := fadd_fin_rounds false false m m' e e'
  dsimp only at hrounds
  split at hrounds
  · next hsum =>
    rw [hrounds]
    refine ⟨rfl, (rank_le_rank_iff hcan (F64.zero_canonical false)).mpr ?_⟩
    exact le_of_le_of_eq (by linarith) (F64.value_zero false).symm
  · next hsum =>
    have hpos := lt_of_le_of_ne (add_nonneg hva hvb) (Ne.symm hsum)
    rcases hrounds.cases_of_pos hpos with hr | ⟨mr, er, hr⟩
    · rw [hr]
      exact ⟨rfl, (rank_lt_rank_inf hcan false).le⟩
    · rw [hr] at hrounds hsumcan ⊢
      exact ⟨rfl, (rank_le_rank_iff hcan hsumcan).mpr (hrounds.le_value rfl hcan (by linarith) rfl)⟩

theorem nonNegative_fmul_self {x : F64} (h : x ≠ .nan) : (fmul x x).nonNegative = true := by
  rcases x with _ | n | ⟨n, m, e⟩
  · exact absurd rfl h
  · simp [fmul, F64.nonNegative]
  · rw [fmul, bne_self_eq_false]
    exact F64.nonNegative_round _ _

theorem F64.exists_fin_of_isFinite {x : F64} (h : x.isFinite = true) : ∃ n m e, x = .fin n m e := by
  rcases x with _ | n | ⟨n, m, e⟩
  · cases h
  · cases h
  · exact ⟨n, m, e, rfl⟩

theorem fmul_ne_nan {a b : F64} (ha : a.isFinite = true) (hb : b.isFinite = true) : fmul a b ≠ .nan := by
  obtain ⟨na, ma, ea, rfl⟩ := F64.exists_fin_of_isFinite ha
  obtain ⟨nb, mb, eb, rfl⟩ := F64.exists_fin_of_isFinite hb
  simp only [fmul, F64.round]
  split_ifs <;> simp

/-! ### One sample's addends (R290, R291) -/

theorem State.ofBits_patternAt (s : State) (site : Config.NanSite) {v : F64} (h : v.canonical = true) :
    F64.ofBits (s.patternAt site v) = v := F64.ofBits_toBits h _

/-- At a decision instant CARRIER_POWER takes the symbol power (R290). -/
theorem State.sampleStep_carrierPower_of_decision {s : State} (h : decisionInstant s.sampleCount = true) :
    F64.ofBits s.sampleStep.carrierPower = fadd (.ofBits s.carrierPower) (i2f (symbolPower s.nextSymbol)) := by
  rw [State.sampleStep, State.commitSample_carrierPower, if_pos h]
  exact s.ofBits_patternAt _ (fadd_canonical _ _)

/-- Between decision instants nothing is added, not even 0 (R290). -/
theorem State.sampleStep_carrierPower_of_between {s : State} (h : ¬ decisionInstant s.sampleCount = true) :
    s.sampleStep.carrierPower = s.carrierPower := by
  rw [State.sampleStep, State.commitSample_carrierPower, if_neg h]

/-- Every sample adds the two squares, summed first, to NOISE_POWER (R291). -/
theorem State.sampleStep_noisePower (s : State) :
    F64.ofBits s.sampleStep.noisePower = fadd (.ofBits s.noisePower)
      (fadd (fmul s.nextNoise.i s.nextNoise.i) (fmul s.nextNoise.q s.nextNoise.q)) :=
  s.ofBits_patternAt _ (fadd_canonical _ _)

theorem nonNegative_symbolPower (p : IQ (BitVec 8)) : (i2f (symbolPower p)).nonNegative = true := by
  have hsum : 0 ≤ symbolPower p := add_nonneg (mul_self_nonneg _) (mul_self_nonneg _)
  rw [i2f, decide_eq_false hsum.not_gt]
  exact F64.nonNegative_round _ _

theorem i2f_word_isFinite (a : Word) : (i2f a.toInt).isFinite = true := by
  have hlower := a.le_toInt
  have hupper := a.toInt_lt
  obtain ⟨m, e, hdatum, -⟩ := F64.dyadic_exact (v := a.toInt) (e := 0) (by omega) (by decide) (by decide)
  rw [i2f_eq_dyadic, hdatum]; rfl

/-- Both unscaled noise values are finite: each is of ten draws or fewer (R222). -/
theorem noisePair_isFinite (ds : List Draw) : (noisePair ds).i.isFinite = true ∧ (noisePair ds).q.isFinite = true :=
  ⟨noise_isFinite (List.length_take_le _ _), noise_isFinite (List.length_take_le _ _)⟩

/-- The sum of a sample's squared noise values is a number from +0.0 on, or +infinity (R292). -/
theorem State.nonNegative_noiseSquares (s : State) :
    (fadd (fmul s.nextNoise.i s.nextNoise.i) (fmul s.nextNoise.q s.nextNoise.q)).nonNegative = true := by
  obtain ⟨hi, hq⟩ := noisePair_isFinite (s.draws.drop (symbolDraws s.sampleCount))
  have hscale := i2f_word_isFinite s.snrScale
  have hsquareI := nonNegative_fmul_self (fmul_ne_nan hscale hi)
  have hsquareQ := nonNegative_fmul_self (fmul_ne_nan hscale hq)
  exact (nonNegative_fadd hsquareI hsquareQ (fmul_canonical _ _)).1

/-! ### Neither accumulator decreases (R292) -/

/-- An accumulator that takes a non-negative addend stays non-negative and does not decrease. -/
theorem accumulator_le {p q : Pattern} {x : F64} (hp : NonNegativePattern p) (hx : x.nonNegative = true)
    (hq : F64.ofBits q = fadd (.ofBits p) x) : NonNegativePattern q ∧ p.toNat ≤ q.toNat := by
  rw [nonNegativePattern_iff] at hp ⊢
  obtain ⟨hsum, hrank⟩ := nonNegative_fadd hp hx (F64.ofBits_canonical p)
  rw [← hq] at hsum hrank
  exact ⟨hsum, by rwa [toNat_eq_rank hp, toNat_eq_rank hsum]⟩

section
variable {s : State} (h : AccumulatorsNonNegative s)
include h

theorem AccumulatorsNonNegative.carrier_sampleStep :
    NonNegativePattern s.sampleStep.carrierPower ∧ s.carrierPower.toNat ≤ s.sampleStep.carrierPower.toNat := by
  by_cases hinstant : decisionInstant s.sampleCount = true
  · exact accumulator_le h.carrier (nonNegative_symbolPower _) (State.sampleStep_carrierPower_of_decision hinstant)
  · rw [State.sampleStep_carrierPower_of_between hinstant]
    exact ⟨h.carrier, le_rfl⟩

theorem AccumulatorsNonNegative.noise_sampleStep :
    NonNegativePattern s.sampleStep.noisePower ∧ s.noisePower.toNat ≤ s.sampleStep.noisePower.toNat :=
  accumulator_le h.noise s.nonNegative_noiseSquares s.sampleStep_noisePower

theorem AccumulatorsNonNegative.sampleStep : AccumulatorsNonNegative s.sampleStep :=
  ⟨h.carrier_sampleStep.1, h.noise_sampleStep.1⟩

end

/-- CARRIER_POWER and NOISE_POWER (R49). -/
def State.accumulators (s : State) : Pattern × Pattern := (s.carrierPower, s.noisePower)

theorem AccumulatorsNonNegative.of_accumulators_eq {s t : State} (h : AccumulatorsNonNegative s)
    (heq : t.accumulators = s.accumulators) : AccumulatorsNonNegative t := by
  obtain ⟨hcarrier, hnoise⟩ := Prod.mk.inj heq
  exact ⟨hcarrier ▸ h.carrier, hnoise ▸ h.noise⟩

theorem State.accumulators_flag (s : State) (e : ErrFlag) : (s.flag e).accumulators = s.accumulators := by
  simp [State.accumulators]

theorem State.accumulators_busRead (s : State) (addr : Addr) : (s.busRead addr).accumulators = s.accumulators := by
  have hanswer : ∀ (t : State) (w : Word), (t.answer w).accumulators = t.accumulators := fun _ _ => rfl
  rcases s.busRead_cases addr with ⟨-, hr⟩ | ⟨l, -, hr⟩ <;> rw [hr, hanswer]
  · exact s.accumulators_flag _
  · rcases s.readEffect_cases l with he | ⟨-, he⟩ | ⟨r, -, he⟩ <;> rw [he]
    · rcases s.popFifo_cases with ⟨-, hp⟩ | ⟨w, rest, -, hp⟩ <;> rw [hp]
      · exact s.accumulators_flag _
      · rfl
    · simp [State.accumulators]

/-- Of the commands only INIT writes an accumulator (R295). -/
theorem AccumulatorsNonNegative.command {s : State} (h : AccumulatorsNonNegative s) (c : Word) :
    AccumulatorsNonNegative (s.command c) := by
  rcases s.command_cases c with ⟨-, hc⟩ | ⟨-, hc⟩ | ⟨-, hc⟩ | ⟨-, hc⟩ | ⟨-, hc⟩ <;> rw [hc]
  · exact h
  · exact accumulatorsNonNegative_reset.of_accumulators_eq rfl
  · rcases s.startStep_cases (argOf c) with ⟨-, hs⟩ | ⟨-, -, -, hs⟩ | ⟨-, -, -, hs⟩ <;> rw [hs] <;>
      exact h.of_accumulators_eq rfl
  · rcases s.abortRun_cases with ⟨-, ha⟩ | ⟨-, ha⟩ <;> rw [ha] <;> exact h.of_accumulators_eq rfl
  · exact h.of_accumulators_eq (s.accumulators_flag _)

theorem AccumulatorsNonNegative.busWrite {s : State} (h : AccumulatorsNonNegative s) (addr : Addr) (d : Word) :
    AccumulatorsNonNegative (s.busWrite addr d) := by
  rcases s.busWrite_cases addr d with ⟨-, hw⟩ | ⟨-, -, -, -, -, hw⟩ | ⟨l, -, -, -, hw⟩ <;> rw [hw]
  · exact h.of_accumulators_eq (s.accumulators_flag _)
  · exact h.of_accumulators_eq (s.accumulators_flag _)
  · cases l with
    | cmd => exact h.command d
    | cfg r half =>
      have hkept : (s.setCfg r (withHalf (s.cfg r) half d)).accumulators = s.accumulators := by
        simp [State.accumulators]
      exact h.of_accumulators_eq hkept
    | _ => exact h.of_accumulators_eq rfl

theorem AccumulatorsNonNegative.engineTurn {s : State} (h : AccumulatorsNonNegative s) :
    AccumulatorsNonNegative s.engineTurn := by
  rcases s.engineTurn_cases with ⟨-, ht⟩ | ⟨-, ht⟩ <;> rw [ht]
  · exact h.sampleStep
  · exact h

/-- Settles O51: only a sample adds to the accumulators, and its addends are non-negative. -/
theorem accumulatorsNeverDecrease : Obligations.AccumulatorsNeverDecrease := by
  refine ⟨fun s t hstep h => ?_, fun s h => ⟨h.carrier_sampleStep.2, h.noise_sampleStep.2⟩⟩
  have hdrop : AccumulatorsNonNegative s.dropInput := h.of_accumulators_eq rfl
  cases stepBy_of_step hstep with
  | engine _ ht => exact ht ▸ hdrop.engineTurn
  | read addr _ _ ht => exact ht ▸ hdrop.of_accumulators_eq (s.dropInput.accumulators_busRead addr)
  | write addr d _ ht => exact ht ▸ hdrop.busWrite addr d
  | supply ds _ ht => exact ht ▸ hdrop.of_accumulators_eq rfl
  | powerOn _ ht => exact ht ▸ accumulatorsNonNegative_reset.of_accumulators_eq rfl

/-! ### CARRIER_POWER counts the decision instants (R290) -/

theorem sym_mul_self (d : Draw) : (sym d).toInt * (sym d).toInt = 4096 := by
  rcases sym_cases d with hsym | hsym <;> rw [hsym] <;> rfl

theorem symbolPower_of_decision {n : Word} (h : decisionInstant n = true) (ds : List Draw) :
    symbolPower (symbolPair n ds) = 8192 := by
  rw [symbolPair, if_pos h, symbolPower, sym_mul_self, sym_mul_self]
  rfl

/-- A run from SAMPLE_COUNT = 0 and CARRIER_POWER = +0.0 counts in units of 2^13 and so stays exact below 2^40 decision
instants; that SAMPLE_COUNT wraps on the way does not matter, since 256 divides 2^32. -/
theorem carrierPower_sampleSteps {t : State} (hcount : t.sampleCount = 0) (hpower : t.carrierPower = 0) (m : Nat)
    (hm : (m + 255) / 256 < 2 ^ 40) :
    F64.ofBits (sampleSteps m t).carrierPower = .dyadic ((m + 255) / 256 : Nat) 13 := by
  induction m with
  | zero =>
    rw [sampleSteps, hpower]
    decide
  | succ m ih =>
    have hsucc : sampleSteps (m + 1) t = (sampleSteps m t).sampleStep := sampleSteps_add m 1 t
    have hold := ih (by omega)
    have hinstant : decisionInstant (sampleSteps m t).sampleCount = true ↔ m % 256 = 0 := by
      rw [decisionInstant_iff, sampleSteps_sampleCount, hcount, zero_add, BitVec.toNat_ofNat]
      omega
    rw [hsucc]
    by_cases h : m % 256 = 0
    · have hunit : i2f 8192 = .dyadic 1 13 := F64.dyadic_congr (by norm_num)
      have hceil : (m + 1 + 255) / 256 = (m + 255) / 256 + 1 := by omega
      rw [State.sampleStep_carrierPower_of_decision (hinstant.mpr h), State.nextSymbol,
        symbolPower_of_decision (hinstant.mpr h), hold, hunit,
        fadd_dyadic (by decide) (by decide) (by omega) (by decide), hceil]
      rfl
    · have hceil : (m + 1 + 255) / 256 = (m + 255) / 256 := by omega
      rw [State.sampleStep_carrierPower_of_between (mt hinstant.mp h), hold, hceil]

/-- Settles O49: INIT gives the counters from which a run counts. -/
theorem carrierPowerCountsDecisions : Obligations.CarrierPowerCountsDecisions := by
  refine fun s => ⟨fun h => ?_, fun h => ?_, fun t arg m hidle hinit hm => ?_⟩
  · have hinstant := (decisionInstant_iff _).mpr h
    exact ⟨symbolPower_of_decision hinstant s.draws, State.sampleStep_carrierPower_of_decision hinstant⟩
  · exact State.sampleStep_carrierPower_of_between (mt (decisionInstant_iff _).mp h)
  · rw [exec_init_idle hidle] at hinit
    obtain rfl := Host.Outcome.next.inj hinit
    obtain ⟨m', e, hdatum, hvalue⟩ := F64.dyadic_exact (v := ((m + 255) / 256 : Nat)) (e := 13) (by omega) (by decide)
      (by decide)
    rw [carrierPower_sampleSteps s.initRun_sampleCount s.initRun_carrierPower m hm, hdatum]
    have hunit : (2 : ℚ) ^ (13 : Int) = 8192 := by norm_num
    exact ⟨rfl, by rw [hvalue, hunit, mul_comm, Int.cast_natCast]⟩

/-! ### NOISE_POWER without noise (R242, R291) -/

theorem symbolDraws_eq (n : Word) : symbolDraws n = if n.toNat % 256 = 0 then 2 else 0 := by
  simp only [symbolDraws, decisionInstant_iff]

/-- A product of +0.0 with a number is a zero of the number's sign (R242). -/
theorem zero_fmul_fin (n : Bool) (m : Nat) (e : Int) : fmul (.zero false) (.fin n m e) = .zero n := by
  rw [F64.zero, fmul, zero_mul, F64.round_zero, Bool.false_bne, F64.zero]

theorem eq_zero_of_ofBits {p : Pattern} (h : F64.ofBits p = .zero false) : p = 0 := by
  have hp := F64.toBits_ofBits (p := p) (by rw [h]; decide) 0
  rw [h] at hp
  exact hp.symm.trans (by decide)

/-- Signed zeros have the square +0.0, so they leave NOISE_POWER at +0.0. -/
theorem State.sampleStep_noisePower_zero {s : State} (hscale : s.snrScale = 0) (hpower : s.noisePower = 0) :
    s.sampleStep.noisePower = 0 := by
  obtain ⟨b, b', hnoise⟩ := State.nextNoise_of_snrScale_zero hscale
  have hsquare : ∀ b : Bool, fmul (.zero b) (.zero b) = .zero false := by decide
  refine eq_zero_of_ofBits ?_
  rw [s.sampleStep_noisePower, hnoise, hsquare, hsquare, hpower]
  decide

theorem sampleSteps_noisePower_zero (m : Nat) {s : State} (hscale : s.snrScale = 0) (hpower : s.noisePower = 0) :
    (sampleSteps m s).noisePower = 0 := by
  induction m generalizing s with
  | zero => exact hpower
  | succ m ih => exact ih (s := s.sampleStep) hscale (State.sampleStep_noisePower_zero hscale hpower)

/-- Settles O50: a scaled noise value is the product of SNR_SCALE and a finite unscaled one. -/
theorem noisePowerUpdate : Obligations.NoisePowerUpdate := by
  intro s
  rw [← symbolDraws_eq]
  obtain ⟨hi, hq⟩ := noisePair_isFinite (s.draws.drop (symbolDraws s.sampleCount))
  refine ⟨s.sampleStep_noisePower, hi, hq, fun hscale n m e => ?_, fun hscale hpower m =>
    sampleSteps_noisePower_zero m hscale hpower⟩
  have hzero : i2f s.snrScale.toInt = .zero false := by rw [hscale]; rfl
  have hscaled : ∀ x : F64, x = .fin n m e → fmul (i2f s.snrScale.toInt) x = .zero n := fun x hx => by
    rw [hzero, hx, zero_fmul_fin]
  exact ⟨hscaled _, hscaled _⟩

/-! ### The SNR ratio (R50, R293) -/

theorem fdiv_isFinite {a b : F64} (ha : a.isFinite = true) (hb : b.isFinite = true) (hcan : b.canonical = true)
    (hne : b.value ≠ 0) (h : |a.value / b.value| < overflowThreshold) : (fdiv a b).isFinite = true := by
  obtain ⟨na, ma, ea, rfl⟩ := F64.exists_fin_of_isFinite ha
  obtain ⟨nb, mb, eb, rfl⟩ := F64.exists_fin_of_isFinite hb
  have hrounds := fdiv_fin_rounds na nb ma mb ea eb hcan
  dsimp only at hrounds
  rw [if_neg hne] at hrounds
  split at hrounds
  · rw [hrounds]; rfl
  · rw [IsRN, if_neg h.not_ge] at hrounds
    obtain ⟨m, e, hfin, -⟩ := hrounds
    rw [hfin]; rfl

theorem abs_value_fmul_le {a b : F64} (ha : a.isFinite = true) (hb : b.isFinite = true) :
    |(fmul a b).value| ≤ 2 * |a.value * b.value| := by
  obtain ⟨na, ma, ea, rfl⟩ := F64.exists_fin_of_isFinite ha
  obtain ⟨nb, mb, eb, rfl⟩ := F64.exists_fin_of_isFinite hb
  have hrounds := fmul_fin_rounds na nb ma mb ea eb
  dsimp only at hrounds
  split at hrounds
  · rw [hrounds, F64.value_zero, abs_zero]
    positivity
  · exact hrounds.abs_value_le

theorem two_pow_100_lt_overflowThreshold : 2 ^ 100 < overflowThreshold :=
  calc (2 ^ 100 : ℚ)
      < 2 ^ 970 := pow_lt_pow_right₀ one_lt_two (by norm_num)
    _ ≤ overflowThreshold := le_mul_of_one_le_left (by positivity) (by norm_num)

theorem snrDuty_eq_fin : snrDuty = .fin false (2 ^ 52) (-46) := by decide

theorem eps64_eq_fin : F64.ofBits Config.eps64 = .fin false 4951760157141521 (-92) := by decide

theorem ofBits_two_pow_53 : F64.ofBits 0x4340000000000000 = .fin false (2 ^ 52) 1 := by decide

section
variable {cp np : Pattern}

/-- The numerator is finite for CP up to 2^53. -/
theorem snrNumerator_bound (hcp : NonNegativePattern cp) (hle : cp.toNat ≤ 0x4340000000000000) :
    (fmul (.ofBits cp) snrDuty).isFinite = true ∧ |(fmul (.ofBits cp) snrDuty).value| ≤ 2 ^ 60 := by
  have hnonneg := (nonNegativePattern_iff cp).mp hcp
  have hcan := F64.ofBits_canonical cp
  have htop := F64.ofBits_canonical 0x4340000000000000
  rw [toNat_eq_rank hnonneg] at hle
  rw [ofBits_two_pow_53] at htop
  rw [snrDuty_eq_fin]
  rcases F64.nonNegative_cases hnonneg with hinf | ⟨m, e, hfin⟩
  · rw [hinf] at hle
    exact absurd hle (rank_lt_rank_inf htop false).not_ge
  · rw [hfin] at hcan hle ⊢
    have hvalue := (rank_le_rank_iff hcan htop).mp hle
    have hbound : |(F64.fin false m e).value * (F64.fin false (2 ^ 52) (-46)).value| ≤ 2 ^ 59 := by
      rw [F64.value_fin_false, F64.value_fin_false] at hvalue ⊢
      rw [abs_of_nonneg (by positivity)]
      norm_num at hvalue ⊢
      linarith
    have hproduct := abs_value_fmul_le (a := .fin false m e) (b := .fin false (2 ^ 52) (-46)) rfl rfl
    have hfits : (2 ^ 59 : ℚ) < overflowThreshold := lt_trans (by norm_num) two_pow_100_lt_overflowThreshold
    exact ⟨fmul_isFinite rfl rfl (hbound.trans_lt hfits), by linarith⟩

/-- The denominator is no smaller than EPS64, as a pattern. -/
theorem snrDenominator_bound (hnp : NonNegativePattern np) :
    (fadd (.ofBits np) (.ofBits Config.eps64)).nonNegative = true ∧
    (F64.ofBits Config.eps64).rank ≤ (fadd (.ofBits np) (.ofBits Config.eps64)).rank := by
  rw [fadd_comm]
  exact nonNegative_fadd (by decide) ((nonNegativePattern_iff np).mp hnp) (F64.ofBits_canonical _)

/-- The noise-power epsilon guards against a zero denominator (R293, R332). -/
theorem snrDenominator_ne_zero (hnp : NonNegativePattern np) :
    fadd (.ofBits np) (.ofBits Config.eps64) ≠ .zero false := fun hzero => by
  have hrank := (snrDenominator_bound hnp).2
  rw [hzero] at hrank
  exact absurd hrank (by decide)

/-- An infinite denominator gives a zero; a finite one is at least 2^−40, and the numerator at most 2^60. -/
theorem snrRatio_isFinite (hcp : NonNegativePattern cp) (hnp : NonNegativePattern np)
    (hle : cp.toNat ≤ 0x4340000000000000) : (snrRatio cp np).isFinite = true := by
  obtain ⟨hnum, hnumBound⟩ := snrNumerator_bound hcp hle
  obtain ⟨hden, hrank⟩ := snrDenominator_bound hnp
  have hcan := fadd_canonical (.ofBits np) (.ofBits Config.eps64)
  have heps := F64.ofBits_canonical Config.eps64
  rw [snrRatio]
  rcases F64.nonNegative_cases hden with hinf | ⟨m, e, hfin⟩
  · obtain ⟨n, m, e, hnumFin⟩ := F64.exists_fin_of_isFinite hnum
    rw [hinf, hnumFin]; rfl
  · rw [hfin] at hcan hrank ⊢
    rw [eps64_eq_fin] at heps hrank
    have hvalue := (rank_le_rank_iff heps hcan).mp hrank
    have hlower : (2 ^ 40 : ℚ)⁻¹ ≤ (F64.fin false m e).value := by
      refine le_trans ?_ hvalue
      rw [F64.value_fin_false]
      norm_num
    have hpos : 0 < (F64.fin false m e).value := lt_of_lt_of_le (by positivity) hlower
    refine fdiv_isFinite hnum rfl hcan hpos.ne' (lt_of_le_of_lt ?_ two_pow_100_lt_overflowThreshold)
    rw [abs_div, abs_of_pos hpos, div_le_iff₀ hpos]
    linarith

end

/-- Settles O15: the two words of a LO read are one pattern, that of the ratio. -/
theorem snrRatioIsComputedOnRead : Obligations.SnrRatioIsComputedOnRead := by
  refine fun s => ⟨⟨_, exec_busRead_lo (r := .snrRatio) rfl s, ?_⟩, fun h =>
    ⟨snrDenominator_ne_zero h.noise, snrRatio_isFinite h.carrier h.noise⟩⟩
  exact (congrArg F64.ofBits (halfOf_append (s.powerPattern .snrRatio))).trans
    (s.ofBits_patternAt .snrRatio (fdiv_canonical _ _))

end Sys2Proof.Machine

/-!
PROOFS. The sample step (R310 to R316) and the exceptions (R330, R342, R343). A turn of the engine is read through
R313's condition; the sample step is read through its symbol pair, its scaled noise and its counters, each equal to the
text of R312 or R314; and each operation is asked whether it writes the configuration (`State.configuration`), whether it
starts a run, and how many error flags it raises (`RaisesAtMostOne`).
-/

namespace Sys2Proof.Machine

open Sys2Proof.Claims

/-! ### Every step has a next state (R330, R343) -/

theorem exec_answersNext (i : Instr) (s : State) : AnswersNext (exec i s) := ⟨_, exec_eq_nextOf i s⟩

theorem step_of_no_input {s : State} (h : s.inputs = []) : step s = .next s.engineTurn := by
  simp only [step, h, State.withoutHost]

theorem step_of_engine {s : State} {rest : List Event} (h : s.inputs = .engine :: rest) :
    step s = .next { s with inputs := rest }.engineTurn := by
  simp only [step, h, State.withoutHost]

theorem step_of_supply {s : State} {ds : List Draw} {rest : List Event} (h : s.inputs = .supply ds :: rest) :
    step s = .next ({ s with inputs := rest }.supplyDraws ds) := by
  simp only [step, h, State.withoutHost]

theorem step_answersNext (s : State) : AnswersNext (step s) := by
  cases h : s.inputs with
  | nil => exact ⟨_, step_of_no_input h⟩
  | cons event rest =>
    cases event with
    | host b => exact step_of_host h ▸ exec_answersNext _ _
    | engine => exact ⟨_, step_of_engine h⟩
    | supply ds => exact ⟨_, step_of_supply h⟩
    | powerOn => exact ⟨_, step_of_nextPowerOn ⟨rest, h⟩⟩

/-- Settles O56: the event at the head of the inputs decides the next state. -/
theorem nothingStopsTheMachine : Obligations.NothingStopsTheMachine := ⟨step_answersNext, exec_answersNext⟩

/-! ### One instruction, one error flag (R342) -/

/-- From `s` to `t` no error flag but perhaps one goes from 0 to 1. -/
def RaisesAtMostOne (s t : State) : Prop := ∃ e : ErrFlag, ∀ e', e' ≠ e → errBit t e' = true → errBit s e' = true

theorem RaisesAtMostOne.of_errBit_le {s t : State} (h : ∀ e, errBit t e = true → errBit s e = true) :
    RaisesAtMostOne s t := ⟨.cmd, fun e _ => h e⟩

theorem RaisesAtMostOne.of_errBit_eq {s t : State} (h : ∀ e, errBit t e = errBit s e) : RaisesAtMostOne s t :=
  .of_errBit_le fun e he => h e ▸ he

theorem RaisesAtMostOne.refl (s : State) : RaisesAtMostOne s s := .of_errBit_eq fun _ => rfl

theorem RaisesAtMostOne.flag (s : State) (e : ErrFlag) : RaisesAtMostOne s (s.flag e) :=
  ⟨e, fun e' hne h => by simpa [hne] using h⟩

theorem RaisesAtMostOne.answer {s t : State} (h : RaisesAtMostOne s t) (w : Word) : RaisesAtMostOne s (t.answer w) := h

theorem RaisesAtMostOne.unlessBusy {s t : State} (h : RaisesAtMostOne s t) : RaisesAtMostOne s (s.unlessBusy t) := by
  rcases s.unlessBusy_cases t with ⟨-, hu⟩ | ⟨-, hu⟩ <;> rw [hu]
  · exact .flag s _
  · exact h

theorem RaisesAtMostOne.initRun (s : State) : RaisesAtMostOne s s.initRun := .of_errBit_eq (errBit_initRun s)

theorem RaisesAtMostOne.startStep (s : State) (n : BitVec 24) : RaisesAtMostOne s (s.startStep n) := by
  rcases s.startStep_cases n with ⟨-, hs⟩ | ⟨-, -, -, hs⟩ | ⟨-, -, -, hs⟩ <;> rw [hs]
  · exact .flag s _
  · exact .refl s
  · exact .of_errBit_eq fun _ => rfl

theorem RaisesAtMostOne.abortRun (s : State) : RaisesAtMostOne s s.abortRun := by
  rcases s.abortRun_cases with ⟨-, ha⟩ | ⟨-, ha⟩ <;> rw [ha]
  · exact .of_errBit_eq fun _ => rfl
  · exact .refl s

theorem RaisesAtMostOne.command (s : State) (c : Word) : RaisesAtMostOne s (s.command c) := by
  rcases s.command_cases c with ⟨-, hc⟩ | ⟨-, hc⟩ | ⟨-, hc⟩ | ⟨-, hc⟩ | ⟨-, hc⟩ <;> rw [hc]
  · exact .refl s
  · exact .initRun s
  · exact .startStep s _
  · exact .abortRun s
  · exact .flag s _

theorem RaisesAtMostOne.popFifo (s : State) : RaisesAtMostOne s s.popFifo := by
  rcases s.popFifo_cases with ⟨-, hp⟩ | ⟨w, rest, -, hp⟩ <;> rw [hp]
  · exact .flag s _
  · exact .of_errBit_eq fun _ => rfl

theorem RaisesAtMostOne.busRead (s : State) (addr : Addr) : RaisesAtMostOne s (s.busRead addr) := by
  rcases s.busRead_cases addr with ⟨-, hr⟩ | ⟨l, -, hr⟩ <;> rw [hr]
  · exact (RaisesAtMostOne.flag s _).answer _
  · refine RaisesAtMostOne.answer ?_ _
    rcases s.readEffect_cases l with he | ⟨-, he⟩ | ⟨r, -, he⟩ <;> rw [he]
    · exact .refl s
    · exact .popFifo s
    · exact .of_errBit_eq (errBit_setShadow s r _)

theorem RaisesAtMostOne.writeAccepted (s : State) (d : Word) (l : Loc) : RaisesAtMostOne s (s.writeAccepted d l) := by
  cases l with
  | status =>
    refine .of_errBit_le fun e he => ?_
    rw [State.writeAccepted, errBit_clearFlags, Bool.and_eq_true] at he
    exact he.1
  | cmd => exact .command s d
  | cfg r half => exact .of_errBit_eq (errBit_setCfg s r _)
  | _ => exact .of_errBit_eq fun _ => rfl

theorem RaisesAtMostOne.busWrite (s : State) (addr : Addr) (d : Word) : RaisesAtMostOne s (s.busWrite addr d) := by
  rcases s.busWrite_cases addr d with ⟨-, hw⟩ | ⟨-, -, -, -, -, hw⟩ | ⟨l, -, -, -, hw⟩ <;> rw [hw]
  · exact .flag s _
  · exact .flag s _
  · exact .writeAccepted s d l

theorem raisesAtMostOne_nextOf (i : Instr) (s : State) : RaisesAtMostOne s (nextOf i s) := by
  cases i with
  | nop arg => exact .refl s
  | init arg => exact (RaisesAtMostOne.initRun s).unlessBusy
  | step count => exact (RaisesAtMostOne.startStep s count).unlessBusy
  | abort arg => exact .abortRun s
  | reserved opc arg => exact .flag s _
  | busRead addr => exact .busRead s addr
  | busWrite addr data => exact .busWrite s addr data

/-- Settles O24, instruction by instruction. -/
theorem atMostOneFlagPerTransaction : Obligations.AtMostOneFlagPerTransaction := fun i s =>
  ⟨nextOf i s, exec_eq_nextOf i s, raisesAtMostOne_nextOf i s⟩

/-! ### The configuration while a command runs (R145, R316) -/

/-- The configuration registers: K, SNR_SCALE, DELAY_INDEX and the seven binary64 registers (R39 to R41, R48). -/
def State.configuration (s : State) : BitVec 5 × Word × BitVec 7 × (CfgReg → Pattern) :=
  (s.k, s.snrScale, s.delayIndex, s.cfg)

theorem State.configuration_flag (s : State) (e : ErrFlag) : (s.flag e).configuration = s.configuration := by
  cases e <;> rfl

theorem State.configuration_setShadow (s : State) (r : PowerReg) (w : Word) :
    (s.setShadow r w).configuration = s.configuration := by cases r <;> rfl

theorem State.configuration_busRead (s : State) (addr : Addr) : (s.busRead addr).configuration = s.configuration := by
  rcases s.busRead_cases addr with ⟨-, hr⟩ | ⟨l, -, hr⟩ <;> rw [hr]
  · exact s.configuration_flag _
  · rcases s.readEffect_cases l with he | ⟨-, he⟩ | ⟨r, -, he⟩ <;> rw [he]
    · rfl
    · rcases s.popFifo_cases with ⟨-, hp⟩ | ⟨w, rest, -, hp⟩ <;> rw [hp]
      · exact s.configuration_flag _
      · rfl
    · exact s.configuration_setShadow r _

theorem State.configuration_command (s : State) (c : Word) : (s.command c).configuration = s.configuration := by
  rcases s.command_cases c with ⟨-, hc⟩ | ⟨-, hc⟩ | ⟨-, hc⟩ | ⟨-, hc⟩ | ⟨-, hc⟩ <;> rw [hc]
  · rfl
  · rcases s.startStep_cases (argOf c) with ⟨-, hs⟩ | ⟨-, -, -, hs⟩ | ⟨-, -, -, hs⟩ <;>
      exact (congrArg State.configuration hs :)
  · rcases s.abortRun_cases with ⟨-, ha⟩ | ⟨-, ha⟩ <;> exact (congrArg State.configuration ha :)
  · exact s.configuration_flag _

/-- The locations that are not locked while busy hold no configuration (R86). -/
theorem State.configuration_writeAccepted (s : State) {d : Word} {l : Loc} (h : l.lockedWhileBusy d = false) :
    (s.writeAccepted d l).configuration = s.configuration := by
  cases l with
  | k | snrScale | delayIndex | cfg | coef => cases h
  | cmd => exact s.configuration_command d
  | _ => rfl

theorem State.configuration_busWrite {s : State} (hbusy : s.stepsLeft ≠ 0) (addr : Addr) (d : Word) :
    (s.busWrite addr d).configuration = s.configuration := by
  rcases s.busWrite_cases addr d with ⟨-, hw⟩ | ⟨-, -, -, -, -, hw⟩ | ⟨l, -, -, hfree, hw⟩ <;> rw [hw]
  · exact s.configuration_flag _
  · exact s.configuration_flag _
  · exact s.configuration_writeAccepted (hfree.resolve_left fun hidle => hbusy (s.busy_eq_false_iff.mp hidle))

theorem State.configuration_engineTurn (s : State) : s.engineTurn.configuration = s.configuration := by
  rcases s.engineTurn_cases with ⟨-, ht⟩ | ⟨-, ht⟩ <;> exact (congrArg State.configuration ht :)

theorem step_configuration {s t : State} (hstep : step s = .next t) (hbusy : s.stepsLeft ≠ 0)
    (hpower : ¬ NextPowerOn s) : t.configuration = s.configuration := by
  cases stepBy_of_step hstep with
  | engine _ ht => exact ht ▸ s.dropInput.configuration_engineTurn
  | read addr _ _ ht => exact ht ▸ s.dropInput.configuration_busRead addr
  | write addr d _ ht => exact ht ▸ State.configuration_busWrite (s := s.dropInput) hbusy addr d
  | supply ds _ ht => exact ht ▸ rfl
  | powerOn hnext _ => exact absurd hnext hpower

/-- Settles O27: a step that writes a coefficient finds the block idle, and so does one that writes the configuration. -/
theorem configurationIsFixedWhileBusy : Obligations.ConfigurationIsFixedWhileBusy := by
  intro s t hstep hbusy hpower
  have hconfig := step_configuration hstep hbusy hpower
  simp only [State.configuration, Prod.mk.injEq] at hconfig
  obtain ⟨hk, hscale, hdelay, hcfg⟩ := hconfig
  obtain ⟨hgen, hmem | ⟨-, -, -, -, hidle, -⟩⟩ := step_mem_cases hstep hpower
  · exact ⟨hmem, hgen, hk, hscale, hdelay, congrFun hcfg .dcI, congrFun hcfg .dcQ, congrFun hcfg .gainImb,
      congrFun hcfg .cosPhi, congrFun hcfg .sinPhi, congrFun hcfg .cosTheta, congrFun hcfg .sinTheta⟩
  · exact absurd hidle hbusy

/-! ### The engine's turn (R313) -/

/-- R313's condition, in numbers. -/
theorem State.sampleEnabled_iff_enough (s : State) : s.sampleEnabled = true ↔
    s.stepsLeft ≠ 0 ∧ s.fifo.length + 2 ≤ 32 ∧
      (if s.sampleCount.toNat % 256 = 0 then 22 else 20) ≤ s.draws.length := by
  rw [s.sampleEnabled_iff, s.drawsNeeded_eq]

theorem State.engineTurn_of_enabled {s : State} (h : s.sampleEnabled = true) : s.engineTurn = s.sampleStep := if_pos h

theorem State.engineTurn_of_not_enabled {s : State} (h : ¬ s.sampleEnabled = true) : s.engineTurn = s := if_neg h

/-- Settles O29: the engine's turn by whether a sample step is enabled, which the inputs do not decide. -/
theorem engineTurnPerformsOrHolds : Obligations.EngineTurnPerformsOrHolds := by
  intro s rest
  rw [← s.sampleEnabled_iff_enough]
  refine ⟨fun hin hen => ?_, fun hin hhold => ?_, fun hin hen => ?_, fun hin hhold => ?_,
    fun ds hin => step_of_supply hin⟩
  · rw [step_of_engine hin, State.engineTurn_of_enabled (by exact hen)]
  · rw [step_of_engine hin, State.engineTurn_of_not_enabled (by exact hhold)]
  · exact step_of_sampleEnabled hin hen
  · rw [step_of_no_input hin, State.engineTurn_of_not_enabled hhold]

theorem run_of_step_self {M : Host.Core} {s : M.State} (h : M.step s = .next s) (n : Nat) : M.run n s = .next s := by
  induction n with
  | zero => rfl
  | succ n ih => rw [run_succ_of_step h, ih]

/-- Settles O30: a full FIFO enables no sample step, so the step leads back to the same state. -/
theorem fullFifoHoldsTheEngine : Obligations.FullFifoHoldsTheEngine := by
  intro s n hin hfull
  have hhold : ¬ s.sampleEnabled = true := fun hen => by
    obtain ⟨-, hroom, -⟩ := s.sampleEnabled_iff.mp hen
    omega
  have hstep : step s = .next s := by rw [step_of_no_input hin, State.engineTurn_of_not_enabled hhold]
  exact run_of_step_self hstep n

/-! ### STEPS_LEFT and DONE (R311) -/

theorem State.sampleStep_done (s : State) : s.sampleStep.done = if s.stepsLeft - 1 = 0 then true else s.done := by
  have hlast : s.stepsLeft - 1 = 0 ↔ s.stepsLeft = 1 := by bv_omega
  rw [State.sampleStep, State.commitSample_done]
  simp only [hlast]
  by_cases h : s.stepsLeft = 1
  · rw [if_pos h, decide_eq_true h, Bool.or_true]
  · rw [if_neg h, decide_eq_false h, Bool.or_false]

theorem State.sampleEnabled_of_idle {s : State} (h : s.stepsLeft = 0) : s.sampleEnabled = false := by
  rw [Bool.eq_false_iff]
  exact fun hen => (s.sampleEnabled_iff.mp hen).1 h

theorem State.busRead_stepsLeft (s : State) (addr : Addr) : (s.busRead addr).stepsLeft = s.stepsLeft := by
  rcases s.busRead_cases addr with ⟨-, hr⟩ | ⟨l, -, hr⟩ <;> rw [hr, State.answer_stepsLeft]
  · exact s.flag_stepsLeft _
  · rcases s.readEffect_cases l with he | ⟨-, he⟩ | ⟨r, -, he⟩ <;> rw [he]
    · rcases s.popFifo_cases with ⟨-, hp⟩ | ⟨w, rest, -, hp⟩ <;> rw [hp]
      exact s.flag_stepsLeft _
    · exact s.setShadow_stepsLeft _ _

section
variable {s : State} (hidle : s.stepsLeft = 0)
include hidle

/-- Of the commands only STEP starts a run, and only on a loaded block (R151, R152). -/
theorem State.command_starts {c : Word} (h : (s.command c).stepsLeft ≠ 0) :
    opcOf c = 2 ∧ Loaded s ∧ (s.command c).stepsLeft = argOf c := by
  rcases s.command_cases c with ⟨-, hc⟩ | ⟨-, hc⟩ | ⟨hopc, hc⟩ | ⟨-, hc⟩ | ⟨-, hc⟩ <;> rw [hc] at h ⊢
  · exact absurd hidle h
  · exact absurd hidle h
  · rcases s.startStep_cases (argOf c) with ⟨-, hs⟩ | ⟨-, -, -, hs⟩ | ⟨hmf, hrs, -, hs⟩ <;> rw [hs] at h ⊢
    · exact absurd ((s.flag_stepsLeft _).trans hidle) h
    · exact absurd hidle h
    · exact ⟨hopc, (loaded_iff s).mpr ⟨hmf, hrs⟩, rfl⟩
  · rw [s.abortRun_eq, if_neg (not_not.mpr hidle)] at h
    exact absurd hidle h
  · exact absurd ((s.flag_stepsLeft _).trans hidle) h

theorem State.busWrite_starts {addr : Addr} {d : Word} (h : (s.busWrite addr d).stepsLeft ≠ 0) :
    addr = 0x0008 ∧ opcOf d = 2 ∧ Loaded s ∧ (s.busWrite addr d).stepsLeft = argOf d := by
  rcases s.busWrite_cases addr d with ⟨-, hw⟩ | ⟨-, -, -, -, -, hw⟩ | ⟨l, hl, -, -, hw⟩ <;> rw [hw] at h ⊢
  · exact absurd ((s.flag_stepsLeft _).trans hidle) h
  · exact absurd ((s.flag_stepsLeft _).trans hidle) h
  · cases l with
    | cmd => exact ⟨locate_eq_cmd hl, State.command_starts hidle h⟩
    | cfg r half => exact absurd ((s.setCfg_stepsLeft _ _).trans hidle) h
    | _ => exact absurd hidle h

/-- A step leaves an idle block idle, or is a STEP command written to a loaded one. -/
theorem step_starts {t : State} (hstep : step s = .next t) (h : t.stepsLeft ≠ 0) :
    ∃ c, NextWrite s 0x0008 c ∧ opcOf c = 2 ∧ Loaded s ∧ t.stepsLeft = argOf c := by
  have hidle' : s.dropInput.stepsLeft = 0 := hidle
  cases stepBy_of_step hstep with
  | engine _ ht =>
    have hhold : ¬ s.dropInput.sampleEnabled = true := by simp [State.sampleEnabled_of_idle hidle']
    rw [ht, State.engineTurn_of_not_enabled hhold] at h
    exact absurd hidle h
  | read addr _ _ ht =>
    rw [ht, State.busRead_stepsLeft] at h
    exact absurd hidle h
  | write addr d hnext ht =>
    subst ht
    obtain ⟨rfl, hopc, hload, hcount⟩ := State.busWrite_starts hidle' h
    exact ⟨d, hnext, hopc, (loaded_dropInput s).mp hload, hcount⟩
  | supply ds _ ht =>
    subst ht
    exact absurd hidle h
  | powerOn _ ht =>
    subst ht
    exact absurd rfl h

end

/-- Settles O33: the sample step's own bookkeeping, then the steps from an idle block. -/
theorem sampleStepCountsDown : Obligations.SampleStepCountsDown := by
  refine fun s => ⟨rfl, fun hlast => ⟨?_, ?_, State.sampleEnabled_of_idle hlast⟩, fun hmore => ?_, fun t hstep hidle =>
    ⟨State.sampleEnabled_of_idle hidle, step_starts hidle hstep⟩⟩
  · rw [s.sampleStep_done, if_pos hlast]
  · rw [State.statusWord_getLsbD_busy, State.busy_eq_false_iff]
    exact hlast
  · rw [s.sampleStep_done, if_neg hmore]

/-! ### The draws of a sample (R312) -/

theorem symbolPair_of_decisionInstant {n : Word} (h : decisionInstant n = true) (ds : List Draw) :
    symbolPair n ds = ⟨sym (ds.getD 0 0), sym (ds.getD 1 0)⟩ := if_pos h

theorem noisePair_append {nI nQ : List Draw} (hI : nI.length = 10) (hQ : nQ.length = 10) (later : List Draw) :
    noisePair (nI ++ nQ ++ later) = ⟨noise nI, noise nQ⟩ := by
  rw [List.append_assoc, noisePair, List.take_left' hI, List.drop_left' hI, List.take_left' hQ]

/-- With its draws in order at the port, a sample's noise values take the two tens after the symbol draws, and the rest
stays at the port. -/
theorem State.nextNoise_and_rest_of_draws {s : State} {ds nI nQ later : List Draw}
    (hds : ds.length = symbolDraws s.sampleCount) (hI : nI.length = 10) (hQ : nQ.length = 10)
    (hdraws : s.draws = ds ++ (nI ++ nQ ++ later)) :
    s.nextNoise = ⟨fmul (i2f s.snrScale.toInt) (noise nI), fmul (i2f s.snrScale.toInt) (noise nQ)⟩ ∧
    s.sampleStep.draws = later := by
  have hrest : s.draws.drop (symbolDraws s.sampleCount) = nI ++ nQ ++ later := by
    rw [hdraws, ← hds, List.drop_left]
  have hlength : (nI ++ nQ).length = 2 * Config.noiseDraws := by simp [hI, hQ, Config.noiseDraws]
  refine ⟨by rw [State.nextNoise, hrest, noisePair_append hI hQ]; rfl, ?_⟩
  rw [State.sampleStep, State.commitSample_draws, State.drawsNeeded, ← List.drop_drop, hrest]
  exact List.drop_left' hlength

theorem State.sampleStep_drawCount (s : State) : s.sampleStep.drawCount =
    s.drawCount + BitVec.ofNat 32 (if s.sampleCount.toNat % 256 = 0 then 22 else 20) := by
  rw [State.sampleStep, State.commitSample_drawCount, State.drawsNeeded_eq]

/-- From SAMPLE_COUNT = DRAW_COUNT = 0 sample m is a decision instant where 256 divides m, through the wrap of
SAMPLE_COUNT too. -/
theorem drawCount_sampleSteps {t : State} (hcount : t.sampleCount = 0) (hdraws : t.drawCount = 0) (m : Nat) :
    (sampleSteps m t).drawCount = BitVec.ofNat 32 (20 * m + 2 * ((m + 255) / 256)) := by
  induction m with
  | zero => exact hdraws
  | succ m ih =>
    have hsucc : sampleSteps (m + 1) t = (sampleSteps m t).sampleStep := sampleSteps_add m 1 t
    have hinstant : (sampleSteps m t).sampleCount.toNat % 256 = m % 256 := by
      rw [sampleSteps_sampleCount, hcount, zero_add, BitVec.toNat_ofNat]
      omega
    have htotal : 20 * (m + 1) + 2 * ((m + 1 + 255) / 256) =
        20 * m + 2 * ((m + 255) / 256) + if m % 256 = 0 then 22 else 20 := by
      split <;> omega
    rw [hsucc, State.sampleStep_drawCount, ih, hinstant, htotal, BitVec.ofNat_add _ (ite _ _ _)]

/-- Settles O34: the draws before the noise are two symbol draws at a decision instant and none otherwise. -/
theorem drawsPerSample : Obligations.DrawsPerSample := by
  refine fun s => ⟨fun h dI dQ nI nQ later hI hQ hdraws => ?_, fun h nI nQ later hI hQ hdraws => ?_,
    fun t arg m hidle hinit => ?_⟩
  · have hsymbols : [dI, dQ].length = symbolDraws s.sampleCount := by rw [symbolDraws_eq, if_pos h]; rfl
    obtain ⟨hnoise, hrest⟩ := State.nextNoise_and_rest_of_draws hsymbols hI hQ hdraws
    have hsym : s.nextSymbol = ⟨sym dI, sym dQ⟩ := by
      rw [State.nextSymbol, symbolPair_of_decisionInstant ((decisionInstant_iff _).mpr h), hdraws]
      rfl
    exact ⟨hsym, hnoise, hrest, by rw [s.sampleStep_drawCount, if_pos h]; rfl⟩
  · have hsymbols : ([] : List Draw).length = symbolDraws s.sampleCount := by rw [symbolDraws_eq, if_neg h]; rfl
    obtain ⟨hnoise, hrest⟩ := State.nextNoise_and_rest_of_draws hsymbols hI hQ hdraws
    have hsym : s.nextSymbol = ⟨0, 0⟩ := symbolPair_of_not_decisionInstant (mt (decisionInstant_iff _).mp h) _
    exact ⟨hsym, hnoise, hrest, by rw [s.sampleStep_drawCount, if_neg h]; rfl⟩
  · rw [exec_init_idle hidle] at hinit
    obtain rfl := Host.Outcome.next.inj hinit
    exact drawCount_sampleSteps s.initRun_sampleCount s.initRun_drawCount m

/-! ### The sample step in full (R314) -/

/-- Each channel's symbol, in one equation for both kinds of sample. -/
theorem symbolPair_eq (n : Word) (ds : List Draw) : symbolPair n ds =
    ⟨if decisionInstant n then sym (ds.getD 0 0) else 0, if decisionInstant n then sym (ds.getD 1 0) else 0⟩ := by
  rw [symbolPair]
  split <;> rfl

theorem State.nextNoise_eq (s : State) : s.nextNoise =
    ⟨fmul (i2f s.snrScale.toInt) (noise ((s.draws.drop (symbolDraws s.sampleCount)).take 10)),
      fmul (i2f s.snrScale.toInt) (noise ((s.draws.drop (symbolDraws s.sampleCount + 10)).take 10))⟩ := by
  rw [← List.drop_drop]
  rfl

/-- Settles O32: the symbols, the noise and the counters are rewritten to those of R312 and R311; the datapath from the
first two on is then the same expression on both sides, stage by stage. -/
theorem sampleStepFollowsTheSequence : Obligations.SampleStepFollowsTheSequence := by
  intro s
  have hcount : BitVec.ofNat 32 (s.sampleCount.toNat + 1) = s.sampleCount + 1 := by
    rw [BitVec.ofNat_add, BitVec.ofNat_toNat, BitVec.setWidth_eq]; rfl
  dsimp only
  rw [← symbolDraws_eq, hcount, ← s.sampleStep_done]
  simp only [← decisionInstant_iff]
  rw [State.sampleStep, State.sampleValues, State.nextSymbol, symbolPair_eq, s.nextNoise_eq]
  rfl

end Sys2Proof.Machine
